-- ==== Sys2Proof/Word.lean ====
section
/-! DEFINITION. The two word types of the block's buses (10_state.md R40). -/
namespace Sys2Proof

/-- A 32-bit word: a command word, a format word or STATUS. -/
abbrev Word := BitVec 32

/-- A 64-bit word of the data bus: `cmd_data` or `rsp_data`. -/
abbrev Data := BitVec 64

end Sys2Proof
end

