-- ==== Sys2Proof/Syntax.lean ====
section
/-! DEFINITION. The commands: one constructor per row of spec/opcode_table.json (30_encoding.md R76). -/
namespace Sys2Proof

/-- The value registers `V0..V7` (10_state.md R20). -/
inductive VName where
  | v0 | v1 | v2 | v3 | v4 | v5 | v6 | v7
  deriving DecidableEq, Repr

/-- The format registers `FD0..FD3` (10_state.md R24). -/
inductive FName where
  | f0 | f1 | f2 | f3
  deriving DecidableEq, Repr

/-- The instructions. `rd`, `rs1`, `rs2` name value registers and `fs` a format register (R72); the data
operand of SETFMT, WRAP and FROMINT is the sampled `cmd_data` and stands in the state (R70, R41). -/
inductive Instr where
  /-- NOP (R140) -/
  | nop
  /-- SETFMT fs, #word (R141) -/
  | setfmt (fs : FName)
  /-- RDFMT fs (R142) -/
  | rdfmt (fs : FName)
  /-- WRAP rd, fs, #int (R143) -/
  | wrap (rd : VName) (fs : FName)
  /-- FROMINT rd, fs, #int (R144) -/
  | fromint (rd : VName) (fs : FName)
  /-- RDV rs1 (R145) -/
  | rdv (rs1 : VName)
  /-- RDTAG rs1 (R146) -/
  | rdtag (rs1 : VName)
  /-- MOV rd, rs1 (R147) -/
  | mov (rd rs1 : VName)
  /-- CVT rd, rs1, fs (R148) -/
  | cvt (rd rs1 : VName) (fs : FName)
  /-- ADD rd, rs1, rs2 (R171) -/
  | add (rd rs1 rs2 : VName)
  /-- SUB rd, rs1, rs2 (R172) -/
  | sub (rd rs1 rs2 : VName)
  /-- MUL rd, rs1, rs2 (R173) -/
  | mul (rd rs1 rs2 : VName)
  /-- DIV rd, rs1, rs2 (R174) -/
  | div (rd rs1 rs2 : VName)
  /-- NEG rd, rs1 (R175) -/
  | neg (rd rs1 : VName)
  /-- ADDA rd, rs2 (R176) -/
  | adda (rd rs2 : VName)
  /-- SUBA rd, rs2 (R177) -/
  | suba (rd rs2 : VName)
  /-- MULA rd, rs2 (R178) -/
  | mula (rd rs2 : VName)
  /-- DIVA rd, rs2 (R179) -/
  | diva (rd rs2 : VName)
  /-- CMP.EQ rs1, rs2 (R201) -/
  | cmpEq (rs1 rs2 : VName)
  /-- CMP.NE rs1, rs2 (R202) -/
  | cmpNe (rs1 rs2 : VName)
  /-- CMP.LT rs1, rs2 (R203) -/
  | cmpLt (rs1 rs2 : VName)
  /-- CMP.LE rs1, rs2 (R204) -/
  | cmpLe (rs1 rs2 : VName)
  /-- CMP.GT rs1, rs2 (R205) -/
  | cmpGt (rs1 rs2 : VName)
  /-- CMP.GE rs1, rs2 (R206) -/
  | cmpGe (rs1 rs2 : VName)
  /-- CROTC rd, rs1, rs2 (R218) -/
  | crotc (rd rs1 rs2 : VName)
  /-- CROTH rd, rs1, rs2 (R219) -/
  | croth (rd rs1 rs2 : VName)
  /-- CVECC rd, rs1, rs2 (R220) -/
  | cvecc (rd rs1 rs2 : VName)
  /-- CVECH rd, rs1, rs2 (R221) -/
  | cvech (rd rs1 rs2 : VName)
  /-- LUTRD rd, fs, KIND, index (R244); the row leaves SUB and IMM free (R83) -/
  | lutrd (rd : VName) (fs : FName) (sub : BitVec 3) (imm : BitVec 12)
  /-- RDST (R149) -/
  | rdst
  /-- CLRST mask (R150); the row fixes `imm[11:6] = 0` -/
  | clrst (mask : BitVec 6)
  deriving DecidableEq, Repr

end Sys2Proof
end

