-- ==== Sys2Proof/WellFormed.lean ====
section
/-! DEFINITION. Which instructions are well-formed (30_encoding.md R79). Registers, format registers and
the CLRST mask cannot be out of range by their types; what remains is LUTRD's SUB. -/
namespace Sys2Proof

/-- R79, R78: for LUTRD, SUB must be at most 5. -/
def lutSubOk (sub : BitVec 3) : Bool := decide (sub.toNat ≤ 5)

/-- R79: the well-formed instructions. -/
def Instr.wellFormed : Instr → Bool
  | .nop => true
  | .setfmt _ => true
  | .rdfmt _ => true
  | .wrap _ _ => true
  | .fromint _ _ => true
  | .rdv _ => true
  | .rdtag _ => true
  | .mov _ _ => true
  | .cvt _ _ _ => true
  | .add _ _ _ => true
  | .sub _ _ _ => true
  | .mul _ _ _ => true
  | .div _ _ _ => true
  | .neg _ _ => true
  | .adda _ _ => true
  | .suba _ _ => true
  | .mula _ _ => true
  | .diva _ _ => true
  | .cmpEq _ _ => true
  | .cmpNe _ _ => true
  | .cmpLt _ _ => true
  | .cmpLe _ _ => true
  | .cmpGt _ _ => true
  | .cmpGe _ _ => true
  | .crotc _ _ _ => true
  | .croth _ _ _ => true
  | .cvecc _ _ _ => true
  | .cvech _ _ _ => true
  | .lutrd _ _ kind _ => lutSubOk kind
  | .rdst => true
  | .clrst _ => true

end Sys2Proof
end

