-- ==== Sys2Proof/Decode.lean ====
section
/-! DEFINITION. The decoder, total on every command word, and the encoder (30_encoding.md R71 to R83). -/
namespace Sys2Proof

/-- The register number a value-register name stands for (R72). -/
def VName.bits : VName → BitVec 3
  | .v0 => 0#3
  | .v1 => 1#3
  | .v2 => 2#3
  | .v3 => 3#3
  | .v4 => 4#3
  | .v5 => 5#3
  | .v6 => 6#3
  | .v7 => 7#3

/-- The value register a 3-bit field names (R72: "The encoding can name every register"). -/
def VName.ofBits (b : BitVec 3) : VName :=
  match b.toNat with
  | 0 => .v0
  | 1 => .v1
  | 2 => .v2
  | 3 => .v3
  | 4 => .v4
  | 5 => .v5
  | 6 => .v6
  | _ => .v7

/-- The register number a format-register name stands for (R72). -/
def FName.bits : FName → BitVec 2
  | .f0 => 0#2
  | .f1 => 1#2
  | .f2 => 2#2
  | .f3 => 3#2

/-- The format register a 2-bit field names (R72). -/
def FName.ofBits (b : BitVec 2) : FName :=
  match b.toNat with
  | 0 => .f0
  | 1 => .f1
  | 2 => .f2
  | _ => .f3

/-- The value registers in their order (R20). -/
def VName.all : List VName := [.v0, .v1, .v2, .v3, .v4, .v5, .v6, .v7]

/-- The format registers in their order (R24). -/
def FName.all : List FName := [.f0, .f1, .f2, .f3]

/-- The seven fields of the command word (R71). -/
structure Fields where
  opc : BitVec 6
  rd  : BitVec 3
  rs1 : BitVec 3
  rs2 : BitVec 3
  fs  : BitVec 2
  sub : BitVec 3
  imm : BitVec 12
  deriving DecidableEq, Repr

/-- The fields of a command word at the places of R71. -/
def Fields.ofWord (w : Word) : Fields where
  opc := w.extractLsb' 26 6
  rd  := w.extractLsb' 23 3
  rs1 := w.extractLsb' 20 3
  rs2 := w.extractLsb' 17 3
  fs  := w.extractLsb' 15 2
  sub := w.extractLsb' 12 3
  imm := w.extractLsb' 0 12

/-- The command word with the given fields (R71). -/
def Fields.toWord (f : Fields) : Word :=
  f.opc ++ f.rd ++ f.rs1 ++ f.rs2 ++ f.fs ++ f.sub ++ f.imm

/-- The names of the operand fields (R71), for the "Used fields" column of R76. -/
inductive Field where
  | rd | rs1 | rs2 | fs | sub | imm
  deriving DecidableEq, Repr

/-- The 26 listed opcodes (R76). -/
inductive Opcode where
  | nop | setfmt | rdfmt | wrap | fromint | rdv | rdtag | mov | cvt
  | add | sub | mul | div | neg | adda | suba | mula | diva
  | cmp | crotc | croth | cvecc | cvech | lutrd | rdst | clrst
  deriving DecidableEq, Repr

/-- The opcodes in the order of R76. -/
def Opcode.all : List Opcode :=
  [.nop, .setfmt, .rdfmt, .wrap, .fromint, .rdv, .rdtag, .mov, .cvt, .add, .sub, .mul, .div,
   .neg, .adda, .suba, .mula, .diva, .cmp, .crotc, .croth, .cvecc, .cvech, .lutrd, .rdst, .clrst]

/-- The OPC value of an opcode (R76). -/
def Opcode.bits : Opcode → BitVec 6
  | .nop => 0x00#6
  | .setfmt => 0x01#6
  | .rdfmt => 0x02#6
  | .wrap => 0x03#6
  | .fromint => 0x04#6
  | .rdv => 0x05#6
  | .rdtag => 0x06#6
  | .mov => 0x07#6
  | .cvt => 0x08#6
  | .add => 0x10#6
  | .sub => 0x11#6
  | .mul => 0x12#6
  | .div => 0x13#6
  | .neg => 0x14#6
  | .adda => 0x18#6
  | .suba => 0x19#6
  | .mula => 0x1A#6
  | .diva => 0x1B#6
  | .cmp => 0x20#6
  | .crotc => 0x28#6
  | .croth => 0x29#6
  | .cvecc => 0x2A#6
  | .cvech => 0x2B#6
  | .lutrd => 0x30#6
  | .rdst => 0x38#6
  | .clrst => 0x39#6

/-- The opcode an OPC value stands for; `none` for the 38 undefined values (R76, R80). -/
def Opcode.ofBits (b : BitVec 6) : Option Opcode :=
  Opcode.all.find? (fun o => o.bits == b)

/-- The fields an opcode uses: every other field must be zero (R76, R79). CLRST's use of IMM is narrowed to
`imm[5:0]` by `Opcode.build`. -/
def Opcode.used : Opcode → List Field
  | .nop => []
  | .setfmt => [.fs]
  | .rdfmt => [.fs]
  | .wrap => [.rd, .fs]
  | .fromint => [.rd, .fs]
  | .rdv => [.rs1]
  | .rdtag => [.rs1]
  | .mov => [.rd, .rs1]
  | .cvt => [.rd, .rs1, .fs]
  | .add => [.rd, .rs1, .rs2]
  | .sub => [.rd, .rs1, .rs2]
  | .mul => [.rd, .rs1, .rs2]
  | .div => [.rd, .rs1, .rs2]
  | .neg => [.rd, .rs1]
  | .adda => [.rd, .rs2]
  | .suba => [.rd, .rs2]
  | .mula => [.rd, .rs2]
  | .diva => [.rd, .rs2]
  | .cmp => [.rs1, .rs2, .sub]
  | .crotc => [.rd, .rs1, .rs2]
  | .croth => [.rd, .rs1, .rs2]
  | .cvecc => [.rd, .rs1, .rs2]
  | .cvech => [.rd, .rs1, .rs2]
  | .lutrd => [.rd, .fs, .sub, .imm]
  | .rdst => []
  | .clrst => [.imm]

/-- Whether every field outside `u` is zero (R79). -/
def Fields.usesOnly (f : Fields) (u : List Field) : Bool :=
  (u.contains .rd || f.rd == 0#3) && (u.contains .rs1 || f.rs1 == 0#3) &&
  (u.contains .rs2 || f.rs2 == 0#3) && (u.contains .fs || f.fs == 0#2) &&
  (u.contains .sub || f.sub == 0#3) && (u.contains .imm || f.imm == 0#12)

/-- Why a command word is malformed (R79, R80, R77). -/
inductive Reject where
  /-- OPC is one of the 38 undefined values (R80) -/
  | undefinedOpcode
  /-- a field outside the opcode's used fields is not zero (R79) -/
  | unusedField
  /-- CMP with SUB 6 or 7 (R77) -/
  | cmpCondition
  /-- CLRST with `imm[11:6] != 0` (R79) -/
  | clrstMask
  deriving DecidableEq, Repr

/-- The comparison a SUB value selects (R77). -/
def cmpOfSub (sub : BitVec 3) (rs1 rs2 : VName) : Except Reject Instr :=
  match sub.toNat with
  | 0 => .ok (.cmpEq rs1 rs2)
  | 1 => .ok (.cmpNe rs1 rs2)
  | 2 => .ok (.cmpLt rs1 rs2)
  | 3 => .ok (.cmpLe rs1 rs2)
  | 4 => .ok (.cmpGt rs1 rs2)
  | 5 => .ok (.cmpGe rs1 rs2)
  | _ => .error .cmpCondition

/-- CLRST reads `imm[5:0]` and requires `imm[11:6] = 0` (R73, R79). -/
def clrstOfImm (imm : BitVec 12) : Except Reject Instr :=
  if imm.extractLsb' 6 6 = 0#6 then .ok (.clrst (imm.extractLsb' 0 6)) else .error .clrstMask

/-- The instruction of an opcode with the given fields (R72, R76, R77). LUTRD keeps any SUB, as its row
does (R83): SUB 6 and 7 end ILLEGAL in its meaning (R244). -/
def Opcode.build (o : Opcode) (f : Fields) : Except Reject Instr :=
  let rd := VName.ofBits f.rd
  let rs1 := VName.ofBits f.rs1
  let rs2 := VName.ofBits f.rs2
  let fs := FName.ofBits f.fs
  match o with
  | .nop => .ok .nop
  | .setfmt => .ok (.setfmt fs)
  | .rdfmt => .ok (.rdfmt fs)
  | .wrap => .ok (.wrap rd fs)
  | .fromint => .ok (.fromint rd fs)
  | .rdv => .ok (.rdv rs1)
  | .rdtag => .ok (.rdtag rs1)
  | .mov => .ok (.mov rd rs1)
  | .cvt => .ok (.cvt rd rs1 fs)
  | .add => .ok (.add rd rs1 rs2)
  | .sub => .ok (.sub rd rs1 rs2)
  | .mul => .ok (.mul rd rs1 rs2)
  | .div => .ok (.div rd rs1 rs2)
  | .neg => .ok (.neg rd rs1)
  | .adda => .ok (.adda rd rs2)
  | .suba => .ok (.suba rd rs2)
  | .mula => .ok (.mula rd rs2)
  | .diva => .ok (.diva rd rs2)
  | .cmp => cmpOfSub f.sub rs1 rs2
  | .crotc => .ok (.crotc rd rs1 rs2)
  | .croth => .ok (.croth rd rs1 rs2)
  | .cvecc => .ok (.cvecc rd rs1 rs2)
  | .cvech => .ok (.cvech rd rs1 rs2)
  | .lutrd => .ok (.lutrd rd fs f.sub f.imm)
  | .rdst => .ok .rdst
  | .clrst => clrstOfImm f.imm

/-- The instruction with the given fields, or why there is none (R79, R83). -/
def decodeFields (f : Fields) : Except Reject Instr :=
  match Opcode.ofBits f.opc with
  | none => .error .undefinedOpcode
  | some o => if f.usesOnly o.used then o.build f else .error .unusedField

/-- R82, R83: the decoder. It is total on all command words and reads nothing but the word. -/
def decode (w : Word) : Except Reject Instr := decodeFields (Fields.ofWord w)

/-- The command-word fields from an opcode and its operands; a field the opcode does not use is zero. -/
def mkFields (o : Opcode) (rd : BitVec 3 := 0#3) (rs1 : BitVec 3 := 0#3) (rs2 : BitVec 3 := 0#3)
    (fs : BitVec 2 := 0#2) (sub : BitVec 3 := 0#3) (imm : BitVec 12 := 0#12) : Fields :=
  ⟨o.bits, rd, rs1, rs2, fs, sub, imm⟩

/-- The fields of an instruction's command word (R71, R76, R77). -/
def Instr.fields : Instr → Fields
  | .nop => mkFields .nop
  | .setfmt fs => mkFields .setfmt (fs := fs.bits)
  | .rdfmt fs => mkFields .rdfmt (fs := fs.bits)
  | .wrap rd fs => mkFields .wrap (rd := rd.bits) (fs := fs.bits)
  | .fromint rd fs => mkFields .fromint (rd := rd.bits) (fs := fs.bits)
  | .rdv rs1 => mkFields .rdv (rs1 := rs1.bits)
  | .rdtag rs1 => mkFields .rdtag (rs1 := rs1.bits)
  | .mov rd rs1 => mkFields .mov (rd := rd.bits) (rs1 := rs1.bits)
  | .cvt rd rs1 fs => mkFields .cvt (rd := rd.bits) (rs1 := rs1.bits) (fs := fs.bits)
  | .add rd rs1 rs2 => mkFields .add (rd := rd.bits) (rs1 := rs1.bits) (rs2 := rs2.bits)
  | .sub rd rs1 rs2 => mkFields .sub (rd := rd.bits) (rs1 := rs1.bits) (rs2 := rs2.bits)
  | .mul rd rs1 rs2 => mkFields .mul (rd := rd.bits) (rs1 := rs1.bits) (rs2 := rs2.bits)
  | .div rd rs1 rs2 => mkFields .div (rd := rd.bits) (rs1 := rs1.bits) (rs2 := rs2.bits)
  | .neg rd rs1 => mkFields .neg (rd := rd.bits) (rs1 := rs1.bits)
  | .adda rd rs2 => mkFields .adda (rd := rd.bits) (rs2 := rs2.bits)
  | .suba rd rs2 => mkFields .suba (rd := rd.bits) (rs2 := rs2.bits)
  | .mula rd rs2 => mkFields .mula (rd := rd.bits) (rs2 := rs2.bits)
  | .diva rd rs2 => mkFields .diva (rd := rd.bits) (rs2 := rs2.bits)
  | .cmpEq rs1 rs2 => mkFields .cmp (rs1 := rs1.bits) (rs2 := rs2.bits) (sub := 0#3)
  | .cmpNe rs1 rs2 => mkFields .cmp (rs1 := rs1.bits) (rs2 := rs2.bits) (sub := 1#3)
  | .cmpLt rs1 rs2 => mkFields .cmp (rs1 := rs1.bits) (rs2 := rs2.bits) (sub := 2#3)
  | .cmpLe rs1 rs2 => mkFields .cmp (rs1 := rs1.bits) (rs2 := rs2.bits) (sub := 3#3)
  | .cmpGt rs1 rs2 => mkFields .cmp (rs1 := rs1.bits) (rs2 := rs2.bits) (sub := 4#3)
  | .cmpGe rs1 rs2 => mkFields .cmp (rs1 := rs1.bits) (rs2 := rs2.bits) (sub := 5#3)
  | .crotc rd rs1 rs2 => mkFields .crotc (rd := rd.bits) (rs1 := rs1.bits) (rs2 := rs2.bits)
  | .croth rd rs1 rs2 => mkFields .croth (rd := rd.bits) (rs1 := rs1.bits) (rs2 := rs2.bits)
  | .cvecc rd rs1 rs2 => mkFields .cvecc (rd := rd.bits) (rs1 := rs1.bits) (rs2 := rs2.bits)
  | .cvech rd rs1 rs2 => mkFields .cvech (rd := rd.bits) (rs1 := rs1.bits) (rs2 := rs2.bits)
  | .lutrd rd fs kind imm => mkFields .lutrd (rd := rd.bits) (fs := fs.bits) (sub := kind) (imm := imm)
  | .rdst => mkFields .rdst
  | .clrst mask => mkFields .clrst (imm := mask.setWidth 12)

/-- The command word of an instruction (R71). -/
def encode (i : Instr) : Word := i.fields.toWord

/-- The mnemonic of an instruction, as spec/opcode_table.json spells it (R76, R77). -/
def Instr.mnemonic : Instr → String
  | .nop => "NOP"
  | .setfmt _ => "SETFMT"
  | .rdfmt _ => "RDFMT"
  | .wrap _ _ => "WRAP"
  | .fromint _ _ => "FROMINT"
  | .rdv _ => "RDV"
  | .rdtag _ => "RDTAG"
  | .mov _ _ => "MOV"
  | .cvt _ _ _ => "CVT"
  | .add _ _ _ => "ADD"
  | .sub _ _ _ => "SUB"
  | .mul _ _ _ => "MUL"
  | .div _ _ _ => "DIV"
  | .neg _ _ => "NEG"
  | .adda _ _ => "ADDA"
  | .suba _ _ => "SUBA"
  | .mula _ _ => "MULA"
  | .diva _ _ => "DIVA"
  | .cmpEq _ _ => "CMP.EQ"
  | .cmpNe _ _ => "CMP.NE"
  | .cmpLt _ _ => "CMP.LT"
  | .cmpLe _ _ => "CMP.LE"
  | .cmpGt _ _ => "CMP.GT"
  | .cmpGe _ _ => "CMP.GE"
  | .crotc _ _ _ => "CROTC"
  | .croth _ _ _ => "CROTH"
  | .cvecc _ _ _ => "CVECC"
  | .cvech _ _ _ => "CVECH"
  | .lutrd _ _ _ _ => "LUTRD"
  | .rdst => "RDST"
  | .clrst _ => "CLRST"

/-- One row of the opcode table: the mnemonic, the bits a word must have, and which bits those are. -/
structure Row where
  mnemonic : String
  pat      : Word
  mask     : Word
  deriving DecidableEq, Repr

/-- The rows of spec/opcode_table.json (R79, R83). -/
def opcodeRows : List Row :=
  [⟨"NOP", 0x00000000#32, 0xFFFFFFFF#32⟩,
   ⟨"SETFMT", 0x04000000#32, 0xFFFE7FFF#32⟩,
   ⟨"RDFMT", 0x08000000#32, 0xFFFE7FFF#32⟩,
   ⟨"WRAP", 0x0C000000#32, 0xFC7E7FFF#32⟩,
   ⟨"FROMINT", 0x10000000#32, 0xFC7E7FFF#32⟩,
   ⟨"RDV", 0x14000000#32, 0xFF8FFFFF#32⟩,
   ⟨"RDTAG", 0x18000000#32, 0xFF8FFFFF#32⟩,
   ⟨"MOV", 0x1C000000#32, 0xFC0FFFFF#32⟩] ++
  [⟨"CVT", 0x20000000#32, 0xFC0E7FFF#32⟩,
   ⟨"ADD", 0x40000000#32, 0xFC01FFFF#32⟩,
   ⟨"SUB", 0x44000000#32, 0xFC01FFFF#32⟩,
   ⟨"MUL", 0x48000000#32, 0xFC01FFFF#32⟩,
   ⟨"DIV", 0x4C000000#32, 0xFC01FFFF#32⟩,
   ⟨"NEG", 0x50000000#32, 0xFC0FFFFF#32⟩,
   ⟨"ADDA", 0x60000000#32, 0xFC71FFFF#32⟩,
   ⟨"SUBA", 0x64000000#32, 0xFC71FFFF#32⟩] ++
  [⟨"MULA", 0x68000000#32, 0xFC71FFFF#32⟩,
   ⟨"DIVA", 0x6C000000#32, 0xFC71FFFF#32⟩,
   ⟨"CMP.EQ", 0x80000000#32, 0xFF81FFFF#32⟩,
   ⟨"CMP.NE", 0x80001000#32, 0xFF81FFFF#32⟩,
   ⟨"CMP.LT", 0x80002000#32, 0xFF81FFFF#32⟩,
   ⟨"CMP.LE", 0x80003000#32, 0xFF81FFFF#32⟩,
   ⟨"CMP.GT", 0x80004000#32, 0xFF81FFFF#32⟩,
   ⟨"CMP.GE", 0x80005000#32, 0xFF81FFFF#32⟩] ++
  [⟨"CROTC", 0xA0000000#32, 0xFC01FFFF#32⟩,
   ⟨"CROTH", 0xA4000000#32, 0xFC01FFFF#32⟩,
   ⟨"CVECC", 0xA8000000#32, 0xFC01FFFF#32⟩,
   ⟨"CVECH", 0xAC000000#32, 0xFC01FFFF#32⟩,
   ⟨"LUTRD", 0xC0000000#32, 0xFC7E0000#32⟩,
   ⟨"RDST", 0xE0000000#32, 0xFFFFFFFF#32⟩,
   ⟨"CLRST", 0xE4000000#32, 0xFFFFFFC0#32⟩]

/-- R83: `(cmd & row.mask) == row.match`. -/
def Row.covers (r : Row) (w : Word) : Bool := (w &&& r.mask) == r.pat

/-- The instruction the decoder reads from a word numbered as spec/opcode_table.json numbers it: bits
31:0 are the command word (R71), and bits from `nbits` on are zero. -/
def decodeTableWord (nbits w : Nat) : Option Instr :=
  match decode (BitVec.ofNat 32 (w % 2 ^ nbits)) with
  | .ok i => some i
  | .error _ => none

end Sys2Proof
end

