-- ==== Sys2Proof/Config.lean ====
section
/-! DEFINITION. The implementation parameters of the block (00_scope.md R4), with the values this
hardware takes. `LUT_REAL` of that table is fixed by rule R242 and stands as a ROM in Machine/Lut.lean. -/
namespace Sys2Proof.Config

/-- `NREG`, the number of value registers (R4, R20). -/
def nreg : Nat := 8

/-- `NFD`, the number of format registers (R4, R24). -/
def nfd : Nat := 4

/-- `WMAX`, the widest native integer in bits (R4, R120). -/
def wmax : Nat := 64

/-- The native storage widths (R4, R120). -/
def nativeWidths : List Nat := [8, 16, 32, 64]

/-- The least scale exponent (R4). -/
def eMin : Int := -128

/-- The greatest scale exponent (R4). -/
def eMax : Int := 127

/-- The width of the command word in bits (R4). -/
def cmdWidth : Nat := 32

/-- The width of the data bus in bits (R4). -/
def dataWidth : Nat := 64

/-- The scale exponent of the LUT ROM: an entry holds the floor of the exact real times `2 ^ romBits`.
A legal tag has `P = F + E <= 64 + 127 = 191`, so the ROM is finer than every binary point. -/
def romBits : Nat := 192

end Sys2Proof.Config
end

