-- ==== Sys2Proof/Machine/Tag.lean ====
section
/-! DEFINITION. Format tags, their 32-bit words and their ranges (10_state.md R25, R26;
40_numeric_primitives.md R100 to R103, R120). -/
namespace Sys2Proof.Machine

/-- An overflow or underflow policy (R25): 0 = THROW, 1 = IGNORE. -/
inductive Policy where
  | throw | ignore
  deriving DecidableEq, Repr

/-- A storage width, `WC` in the format word (R25, R120). -/
inductive Width where
  | w8 | w16 | w32 | w64
  deriving DecidableEq, Repr

/-- A tag `(W, S, N, F, E, OP, UP)` (R21, R25). -/
structure Tag where
  /-- W, the storage width -/
  w  : Width
  /-- S, true for signed -/
  s  : Bool
  /-- N, the integer bits, without the sign bit -/
  n  : Nat
  /-- F, the fractional bits -/
  f  : Nat
  /-- E, the scale exponent -/
  e  : Int
  /-- OP, the overflow policy -/
  op : Policy
  /-- UP, the underflow policy -/
  up : Policy
  deriving DecidableEq, Repr

/-- The width in bits (R25). -/
def Width.size : Width → Nat
  | .w8 => 8
  | .w16 => 16
  | .w32 => 32
  | .w64 => 64

/-- The WC code of a width (R25). -/
def Width.code : Width → BitVec 2
  | .w8 => 0#2
  | .w16 => 1#2
  | .w32 => 2#2
  | .w64 => 3#2

/-- The width of a WC code (R25: every encoding is legal). -/
def Width.ofCode (b : BitVec 2) : Width :=
  match b.toNat with
  | 0 => .w8
  | 1 => .w16
  | 2 => .w32
  | _ => .w64

/-- The policy of its bit (R25). -/
def Policy.ofBit (b : Bool) : Policy := if b then .ignore else .throw

/-- The bit of a policy (R25). -/
def Policy.bit : Policy → Bool
  | .throw => false
  | .ignore => true

/-- `nativeW(b)`: the smallest native width of at least `b` bits; used only when `b <= WMAX` (R120). -/
def nativeW (b : Nat) : Width :=
  if b ≤ 8 then .w8 else if b ≤ 16 then .w16 else if b ≤ 32 then .w32 else .w64

/-- The tag a format word holds, field by field (R25). -/
def Tag.ofWord (x : Word) : Tag where
  w  := Width.ofCode (x.extractLsb' 23 2)
  s  := x.getLsbD 22
  n  := (x.extractLsb' 0 7).toNat
  f  := (x.extractLsb' 7 7).toNat
  e  := (x.extractLsb' 14 8).toInt
  op := Policy.ofBit (x.getLsbD 25)
  up := Policy.ofBit (x.getLsbD 26)

/-- `word(t)`: the format word of a tag, reserved bits zero (R25, R146). -/
def Tag.toWord (t : Tag) : Word :=
  0#5 ++ BitVec.ofBool t.up.bit ++ BitVec.ofBool t.op.bit ++ t.w.code ++ BitVec.ofBool t.s ++
    BitVec.ofInt 8 t.e ++ BitVec.ofNat 7 t.f ++ BitVec.ofNat 7 t.n

/-- 1 for a signed tag, 0 for an unsigned one: S as a number of bits. -/
def Tag.sBits (t : Tag) : Nat := if t.s then 1 else 0

/-- R26 for a tag: `N + F + S <= W`, `N + F >= 1`, and E in -128..127. -/
def Tag.legal (t : Tag) : Bool :=
  decide (t.n + t.f + t.sBits ≤ t.w.size) && decide (1 ≤ t.n + t.f) &&
    decide (Config.eMin ≤ t.e) && decide (t.e ≤ Config.eMax)

/-- `Legal(w)` for a format word (R26): bits 31:27 are zero and the fields make a legal tag. -/
def legalWord (x : Word) : Bool := (x.extractLsb' 27 5 == 0#5) && (Tag.ofWord x).legal

/-- The binary point `P(t) = F + E` (R100). -/
def Tag.point (t : Tag) : Int := t.f + t.e

/-- `largest(t) = 2^(N+F) - 1` (R101). -/
def largest (t : Tag) : Int := 2 ^ (t.n + t.f) - 1

/-- `least(t)`: `-2^(N+F)` if signed, else 0 (R101). -/
def least (t : Tag) : Int := if t.s then -2 ^ (t.n + t.f) else 0

/-- Whether a stored integer is in range: `least(t) <= v <= largest(t)` (R101). -/
def inRange (v : Int) (t : Tag) : Bool := decide (least t ≤ v) && decide (v ≤ largest t)

/-- Whether a stored integer fits the storage width W of its tag (R22). -/
def fitsWidth (v : Int) (t : Tag) : Bool :=
  if t.s then decide (-2 ^ (t.w.size - 1) ≤ v) && decide (v ≤ 2 ^ (t.w.size - 1) - 1)
  else decide (0 ≤ v) && decide (v ≤ 2 ^ t.w.size - 1)

/-- `wrap_W(v, S)`: two's-complement truncation to W bits (R103). -/
def wrapW (w : Nat) (s : Bool) (v : Int) : Int :=
  let m := v % 2 ^ w
  if s && decide (2 ^ (w - 1) ≤ m) then m - 2 ^ w else m

/-- `val(v, t) = v * 2^-P(t)`, the real value of a stored integer (R100); also `TOREAL(v, t)` (R106). -/
def val (v : Int) (t : Tag) : Rat := v * 2 ^ (-t.point)

/-- `precision(t) = 2^-P(t)`, one ulp (R102). -/
def precision (t : Tag) : Rat := 2 ^ (-t.point)

/-- The reset format word Q<15,16>, W = 32, THROW/THROW (R291). -/
def resetFormat : Word := 0x0140080F#32

/-- `Q<n,f>`: the signed tag with E = 0, THROW/THROW, at the smallest native width (D41). -/
def qTag (n f : Nat) : Tag := ⟨nativeW (n + f + 1), true, n, f, 0, .throw, .throw⟩

end Sys2Proof.Machine
end

