-- ==== Sys2Proof/Machine/State.lean ====
section
/-! DEFINITION. The machine's state, as plain data (10_state.md; 70_reset_and_hazards.md R291), its reset,
and why a step could stop. -/
namespace Sys2Proof.Machine

/-- A response code, `rsp_code` (60_exceptions.md R260): 0 OK, 1 OVERFLOW, 2 UNDERFLOW, 3 DOMAIN, 4 ILLEGAL.
Codes 5 to 7 are never produced. -/
inductive Code where
  | ok | overflow | underflow | domain | illegal
  deriving DecidableEq, Repr

/-- One value register (R21): its valid bit, its stored integer and its tag. While `valid` is false the
other two are unspecified and no command can observe them (R291). -/
structure VReg where
  valid : Bool
  v     : Int
  t     : Tag
  deriving DecidableEq, Repr

/-- The eight value registers (R20). -/
structure VFile where
  v0 : VReg
  v1 : VReg
  v2 : VReg
  v3 : VReg
  v4 : VReg
  v5 : VReg
  v6 : VReg
  v7 : VReg
  deriving DecidableEq, Repr

/-- The four format registers (R24), each one 32-bit format word. -/
structure FFile where
  f0 : Word
  f1 : Word
  f2 : Word
  f3 : Word
  deriving DecidableEq, Repr

/-- A command: the command word and its data operand (30_encoding.md R70). -/
structure Command where
  cmd  : Word
  data : Data
  deriving DecidableEq, Repr

/-- A move of the host (R296): offer a command, leave the channel idle, or pull `rst_n` low. -/
inductive HostMove where
  | issue (c : Command)
  | idle
  | reset
  deriving DecidableEq, Repr

/-- The state. -/
structure State where
  /-- `V0..V7` (R20, R21) -/
  vregs      : VFile
  /-- `FD0..FD3` (R24) -/
  fds        : FFile
  /-- STATUS (R27) -/
  status     : Word
  /-- the command index, the model's "pc" (R32) -/
  index      : Nat
  /-- a command is in flight (R34, R41) -/
  busy       : Bool
  /-- the cycles left before its response (R34, R295) -/
  cyclesLeft : Nat
  /-- the sampled command word (R41) -/
  cmd        : Word
  /-- the sampled data operand (R41, R70) -/
  cmdData    : Data
  /-- the port `rsp_valid` (R40, R42) -/
  rspValid   : Bool
  /-- the port `rsp_code` (R40, R260) -/
  rspCode    : Code
  /-- the port `rsp_data` (R40) -/
  rspData    : Data
  /-- the moves the host has yet to make (R296, R297): the model's own field (log entry 2) -/
  host       : List HostMove
  deriving DecidableEq, Repr

/-- Nothing faults: every command ends with a response and the next command runs (60_exceptions.md R269;
10_state.md R43, "The function is total"). No constructor; safe. -/
inductive Fault where
  deriving DecidableEq, Repr

/-- Why a step could be refused. -/
inductive Refusal where
  /-- raised only by an arm of `exec` whose instruction has no meaning yet; no arm is one, so nothing
  raises it. Safe: the model stops where the block goes on. -/
  | notModelled (mnemonic : String)
  deriving DecidableEq, Repr

/-- A value register after reset (R291): not valid. Its contents are unspecified and unobservable; the
model names 0 and the reset format. DESIGN CHOICE, unsafe (log entry 3). -/
def VReg.reset : VReg := ⟨false, 0, Tag.ofWord resetFormat⟩

/-- The machine right after reset (R291). The contents of invalid registers (log entry 3), of the sampled
command and of the response port while `rsp_valid = 0` (log entry 4), and the empty list of host moves
(log entry 2) are the model's. DESIGN CHOICE, unsafe. -/
def State.reset : State where
  vregs := ⟨.reset, .reset, .reset, .reset, .reset, .reset, .reset, .reset⟩
  fds := ⟨resetFormat, resetFormat, resetFormat, resetFormat⟩
  status := 0#32
  index := 0
  busy := false
  cyclesLeft := 0
  cmd := 0#32
  cmdData := 0#64
  rspValid := false
  rspCode := .ok
  rspData := 0#64
  host := []

end Sys2Proof.Machine
end

