-- ==== Sys2Proof/Machine/Ops.lean ====
section
/-! DEFINITION. The named operations over the state: register access, how a command's events are
collected, and the two ways a command ends (10_state.md R42, R43; 60_exceptions.md R266). -/
namespace Sys2Proof.Machine

/-- What a computation inside a command comes to (40_numeric_primitives.md R110): the STATUS bits its
events set, and either its value or the response code of the event that ended it. -/
structure Ev (α : Type) where
  flags : Word
  out   : Except Code α
  deriving DecidableEq

/-- A value with no event. -/
def Ev.val {α : Type} (a : α) : Ev α := ⟨0#32, .ok a⟩

/-- An event under IGNORE: its STATUS bits are set and the computation goes on (R110). -/
def Ev.note (flags : Word) : Ev Unit := ⟨flags, .ok ()⟩

/-- An event that ends the command: its STATUS bits are set and its code is the response (R110). -/
def Ev.raise {α : Type} (flags : Word) (c : Code) : Ev α := ⟨flags, .error c⟩

/-- One computation after another: the bits set so far stay set, and a raise skips what follows (R110, R266). -/
def Ev.andThen {α β : Type} (m : Ev α) (k : α → Ev β) : Ev β :=
  match m.out with
  | .ok a => ⟨m.flags ||| (k a).flags, (k a).out⟩
  | .error c => ⟨m.flags, .error c⟩

/-- The value register a name stands for (R20). -/
def VFile.get (r : VFile) : VName → VReg
  | .v0 => r.v0
  | .v1 => r.v1
  | .v2 => r.v2
  | .v3 => r.v3
  | .v4 => r.v4
  | .v5 => r.v5
  | .v6 => r.v6
  | .v7 => r.v7

/-- The value registers with one replaced. -/
def VFile.set (r : VFile) (i : VName) (x : VReg) : VFile :=
  match i with
  | .v0 => { r with v0 := x }
  | .v1 => { r with v1 := x }
  | .v2 => { r with v2 := x }
  | .v3 => { r with v3 := x }
  | .v4 => { r with v4 := x }
  | .v5 => { r with v5 := x }
  | .v6 => { r with v6 := x }
  | .v7 => { r with v7 := x }

/-- The format register a name stands for (R24). -/
def FFile.get (r : FFile) : FName → Word
  | .f0 => r.f0
  | .f1 => r.f1
  | .f2 => r.f2
  | .f3 => r.f3

/-- The format registers with one replaced. -/
def FFile.set (r : FFile) (i : FName) (x : Word) : FFile :=
  match i with
  | .f0 => { r with f0 := x }
  | .f1 => { r with f1 := x }
  | .f2 => { r with f2 := x }
  | .f3 => { r with f3 := x }

/-- Read a value register as it stands. -/
def State.getV (s : State) (i : VName) : VReg := s.vregs.get i

/-- `V[i] <- (1, v, t)` (R5). -/
def State.setV (s : State) (i : VName) (v : Int) (t : Tag) : State :=
  { s with vregs := s.vregs.set i ⟨true, v, t⟩ }

/-- Read a format register. -/
def State.getF (s : State) (i : FName) : Word := s.fds.get i

/-- `FD[i] <- w`. -/
def State.setF (s : State) (i : FName) (x : Word) : State := { s with fds := s.fds.set i x }

/-- Set STATUS bits: sticky, an event only sets them (R27). -/
def State.raiseFlags (s : State) (flags : Word) : State := { s with status := s.status ||| flags }

/-- Write STATUS. -/
def State.setStatus (s : State) (x : Word) : State := { s with status := x }

/-- Give the response: `rsp_valid = 1`, `busy` returns to 0, and the command index advances by 1 (R42, R32). -/
def State.respond (s : State) (c : Code) (d : Data) : State :=
  { s with rspValid := true, rspCode := c, rspData := d, busy := false, cyclesLeft := 0,
           index := s.index + 1 }

/-- The end of a command by an error (R266): no register is written, the sticky bits its events set stay
set, and `rsp_data = 0`. This is the block's only form of exception (R267). -/
def State.abort (s : State) (flags : Word) (c : Code) : State := (s.raiseFlags flags).respond c 0#64

/-- The end of a command that came to `e`: an error aborts it; otherwise its STATUS bits are set, its
writes are made and it responds OK (R43, R266). -/
def State.finish {α : Type} (s : State) (e : Ev α) (write : State → α → State) (rsp : α → Data) :
    Host.Outcome State Fault Refusal :=
  match e.out with
  | .ok a => .next ((write (s.raiseFlags e.flags) a).respond .ok (rsp a))
  | .error c => .next (s.abort e.flags c)

/-- The 64-bit response word of a stored integer: its two's complement, or the value itself (R145). -/
def dataOfInt (v : Int) : Data := BitVec.ofInt 64 v

/-- The end of a command that writes one value register and returns the written stored integer (R143, D29). -/
def State.finishV (s : State) (rd : VName) (e : Ev (Int × Tag)) : Host.Outcome State Fault Refusal :=
  s.finish e (fun s' a => s'.setV rd a.1 a.2) (fun a => dataOfInt a.1)

/-- The end of a command that writes no register and returns data. -/
def State.finishR (s : State) (e : Ev Data) : Host.Outcome State Fault Refusal :=
  s.finish e (fun s' _ => s') (fun d => d)

end Sys2Proof.Machine
end

