-- ==== Sys2Proof/Machine/Flags.lean ====
section
/-! DEFINITION. STATUS, and the events that set its bits: the overflow and underflow detector
(10_state.md R27; 40_numeric_primitives.md R110 to R113; 60_exceptions.md R261, R262). -/
namespace Sys2Proof.Machine

/-- STATUS.OVF (R27). -/
def ovf : Word := 0x01#32
/-- STATUS.UNF (R27). -/
def unf : Word := 0x02#32
/-- STATUS.DOM (R27). -/
def dom : Word := 0x04#32
/-- STATUS.ILL (R27). -/
def ill : Word := 0x08#32
/-- STATUS.APX (R27). -/
def apx : Word := 0x10#32
/-- STATUS.CMP (R27). -/
def cmpBit : Word := 0x20#32
/-- The six bits STATUS has; bits 31:6 are reserved and read 0 (R27). -/
def statusMask : Word := 0x3F#32

/-- STATUS as RDST reads it: reserved bits read 0 (R27, R149). -/
def State.readStatus (s : State) : Word := s.status &&& statusMask

/-- STATUS.CMP written with a comparison's result (R27, R200). -/
def State.setCmp (s : State) (c : Bool) : State :=
  s.setStatus ((s.status &&& ~~~cmpBit) ||| (if c then cmpBit else 0#32))

/-- CLRST: `STATUS[5:0] <- STATUS[5:0] AND NOT imm[5:0]` (R150). -/
def State.clearStatus (s : State) (mask : BitVec 6) : State :=
  s.setStatus (s.status &&& ~~~(mask.setWidth 32))

/-- `raise ILLEGAL`, with STATUS.ILL set (R261). -/
def illegal {α : Type} : Ev α := Ev.raise ill .illegal

/-- A DOMAIN event, always signalled (R110, R262). -/
def domainError {α : Type} : Ev α := Ev.raise dom .domain

/-- `Check(r, t)`, the overflow detector (R111). -/
def check (r : Int) (t : Tag) : Ev Int :=
  if inRange r t then Ev.val r
  else match t.op with
    | .throw => Ev.raise ovf .overflow
    | .ignore => ⟨ovf, .ok (wrapW t.w.size t.s r)⟩

/-- `Underflow(t)`, the underflow event (R113). -/
def underflow (t : Tag) : Ev Unit :=
  match t.up with
  | .throw => Ev.raise unf .underflow
  | .ignore => Ev.note unf

/-- `if c: Underflow(t)`: the event of R112, R126 and R128, if its condition holds. -/
def underflowIf (c : Bool) (t : Tag) : Ev Unit := if c then underflow t else Ev.val ()

/-- `STATUS.APX <- 1`: the non-expandable path is taken (R27, R126, R128). -/
def approximate : Ev Unit := Ev.note apx

end Sys2Proof.Machine
end

