-- ==== Sys2Proof/Machine/Operands.lean ====
section
/-! DEFINITION. The operand forms: value registers, format registers, the data operand, and conversion
between formats (41_transfer.md preamble; 40_numeric_primitives.md R104, R105, R112). -/
namespace Sys2Proof.Machine

/-- `ReadV(i)`: ILLEGAL if `V[i].valid = 0`, else the stored integer and the tag (41_transfer.md preamble). -/
def State.readV (s : State) (i : VName) : Ev (Int × Tag) :=
  if (s.getV i).valid then Ev.val ((s.getV i).v, (s.getV i).t) else illegal

/-- The format tag that `FD[i]` holds (R24, R25). -/
def State.tagF (s : State) (i : FName) : Tag := Tag.ofWord (s.getF i)

/-- The data operand of WRAP and FROMINT: `sext_64(data)` for a signed tag, else `zext_64(data)` (R143, R144). -/
def dataInt (t : Tag) (d : Data) : Int := if t.s then d.toInt else d.toNat

/-- `asr(v, k) = floor(v / 2^k)` (R6). -/
def asr (v : Int) (k : Nat) : Int := v / 2 ^ k

/-- `shl(v, k) = v * 2^k` (R6). -/
def shl (v : Int) (k : Nat) : Int := v * 2 ^ k

/-- `RHA(q)` of a rational: `floor(q + 1/2)` for `q >= 0`, else `-floor(-q + 1/2)` (R6, R104). -/
def rha (q : Rat) : Int := if 0 ≤ q then (q + 1 / 2).floor else -(-q + 1 / 2).floor

/-- `RHA(v / 2^m)` in integers: to nearest, ties away from zero (R104). -/
def roundShift (v : Int) (m : Nat) : Int :=
  if 0 ≤ v then (2 * v + 2 ^ m) / 2 ^ (m + 1) else -((2 * (-v) + 2 ^ m) / 2 ^ (m + 1))

/-- `RHA(k * 2^p)` for an integer k: exact for `p >= 0` (R104, R144). -/
def scaleRound (k : Int) (p : Int) : Int :=
  if 0 ≤ p then shl k p.toNat else roundShift k (-p).toNat

/-- `FROMREAL(k, t)` of an integer k: `Check(RHA(k * 2^P(t)), t)`, never an underflow (R105, R144). -/
def fromInteger (k : Int) (t : Tag) : Ev Int := check (scaleRound k t.point) t

/-- `RHA(x)` of a real: `floor(x + 1/2)` for `x >= 0`, else `-floor(-x + 1/2)` (R6, R104). -/
noncomputable def rhaReal (x : ℝ) : Int := if 0 ≤ x then ⌊x + 1 / 2⌋ else -⌊-x + 1 / 2⌋

/-- The stored integer `FROMREAL_v(x, t) = RHA(x * 2^P(t))` of a real x, before its range check (R93, R105). -/
noncomputable def fromRealV (x : ℝ) (t : Tag) : Int := rhaReal (x * 2 ^ t.point)

/-- `FROMREAL(x, t)` of a real x: the reference function of R105. It never underflows. -/
noncomputable def fromReal (x : ℝ) (t : Tag) : Ev Int := check (fromRealV x t) t

/-- `FROMREAL(x, t)` of a rational x, which can be evaluated: `fromReal` of the same number (R105;
fromReal_ratCast in Laws/Numeric.lean). -/
def fromRational (x : Rat) (t : Tag) : Ev Int := check (rha (x * 2 ^ t.point)) t

/-- The shift of `Normalize`: an exact left shift or a floored right shift by the difference of the points (R112). -/
def rescale (v : Int) (src dst : Tag) : Int :=
  if 0 ≤ dst.point - src.point then shl v (dst.point - src.point).toNat
  else asr v (src.point - dst.point).toNat

/-- Whether `Normalize` underflows: a right shift takes a nonzero value to 0 (R112). -/
def vanishes (v : Int) (src dst : Tag) : Bool :=
  decide (dst.point < src.point) && v != 0 && rescale v src dst == 0

/-- `Normalize(v, s, d)`: convert a stored integer from tag s to tag d, with events governed by d (R112). -/
def normalize (v : Int) (src dst : Tag) : Ev Int :=
  (underflowIf (vanishes v src dst) dst).andThen fun _ => check (rescale v src dst) dst

end Sys2Proof.Machine
end

