-- ==== Sys2Proof/Machine/Numeric.lean ====
section
/-! DEFINITION. Type promotion, and the exact and fallback multiply and divide
(40_numeric_primitives.md R120 to R129). -/
namespace Sys2Proof.Machine

/-- A candidate result tag `(S, N, F, E)` (R121). -/
structure Candidate where
  s : Bool
  n : Nat
  f : Nat
  e : Int
  deriving DecidableEq, Repr

/-- `req(c) = N + F + S`, the bits a candidate needs (R121). -/
def Candidate.req (c : Candidate) : Nat := c.n + c.f + (if c.s then 1 else 0)

/-- Whether a candidate is expandable (R121). -/
def Candidate.expandable (c : Candidate) : Bool :=
  decide (c.req ≤ Config.wmax) && decide (Config.eMin ≤ c.e) && decide (c.e ≤ Config.eMax)

/-- The promotion of R121: `(tag, ex)`. An expandable candidate gets the smallest native width and the left
operand's policies; otherwise the result keeps the left operand's tag a. -/
def promote (c : Candidate) (a : Tag) : Tag × Bool :=
  if c.expandable then (⟨nativeW c.req, c.s, c.n, c.f, c.e, a.op, a.up⟩, true) else (a, false)

/-- `SumTag(a, b)` (R123). -/
def sumTag (a b : Tag) : Tag × Bool := promote ⟨a.s || b.s, a.n + 1, a.f, a.e⟩ a

/-- `ProdTag(a, b)` (R124). -/
def prodTag (a b : Tag) : Tag × Bool := promote ⟨a.s || b.s, a.n + b.n, a.f + b.f, a.e + b.e⟩ a

/-- `QuotTag(a, b)` (R125). -/
def quotTag (a b : Tag) : Tag × Bool := promote ⟨a.s || b.s, a.n + b.f, a.f + b.n, a.e - b.e⟩ a

/-- `(a.S OR b.S)` as a number of bits. -/
def eitherSigned (a b : Tag) : Nat := if a.s || b.s then 1 else 0

/-- `MulExact(A, a, B, b)` (R127); `p` is the product tag. -/
def mulExact (p : Tag) (A B : Int) : Ev Int := check (A * B) p

/-- The bits of b's fraction that `MulFallback` drops: `min(max(excess, 0), b.F)` (R126). -/
def mulDrop (a b : Tag) : Nat :=
  min (a.n + b.n + (a.f + b.f) + eitherSigned a b - Config.wmax) b.f

/-- The result of `MulFallback` before its events: the product with the truncated B, at a's point (R126). -/
def mulApprox (A : Int) (a : Tag) (B : Int) (b : Tag) : Int :=
  let prod := A * asr B (mulDrop a b)
  let sh := b.point - mulDrop a b
  if 0 ≤ sh then asr prod sh.toNat else shl prod (-sh).toNat

/-- `MulFallback(A, a, B, b)` (R126). -/
def mulFallback (A : Int) (a : Tag) (B : Int) (b : Tag) : Ev Int :=
  approximate.andThen fun _ =>
  (underflowIf (A != 0 && B != 0 && mulApprox A a B b == 0) a).andThen fun _ =>
  check (mulApprox A a B b) a

/-- `DivExact(A, a, B, b)` (R129); `q` is the quotient tag: the pre-shift by `Tb = b.N + b.F`, then
integer division toward zero. -/
def divExact (q : Tag) (A B : Int) (b : Tag) : Ev Int := check ((shl A (b.n + b.f)).tdiv B) q

/-- `u`, the bits by which `DivFallback` shifts both operands: `min(max(need, 0), b.F, bitlen(|B|) - 1)` (R128). -/
def divDrop (a : Tag) (B : Int) (b : Tag) : Nat :=
  min (min ((a.n : Int) + a.f + eitherSigned a b + max b.point 0 - Config.wmax).toNat b.f) B.natAbs.log2

/-- The result of `DivFallback` before its events: `trunc((A2 * 2^P(b)) / B2)` (R128). -/
def divApprox (A : Int) (a : Tag) (B : Int) (b : Tag) : Int :=
  let A2 := asr A (divDrop a B b)
  let B2 := asr B (divDrop a B b)
  if 0 ≤ b.point then (A2 * 2 ^ b.point.toNat).tdiv B2 else A2.tdiv (B2 * 2 ^ (-b.point).toNat)

/-- `DivFallback(A, a, B, b)`, for `B != 0` (R128). -/
def divFallback (A : Int) (a : Tag) (B : Int) (b : Tag) : Ev Int :=
  approximate.andThen fun _ =>
  (underflowIf (A != 0 && divApprox A a B b == 0) a).andThen fun _ =>
  check (divApprox A a B b) a

end Sys2Proof.Machine
end

