-- ==== Sys2Proof/Machine/Arithmetic.lean ====
section
/-! DEFINITION. The arithmetic commands (42_arithmetic.md R170 to R179). All arithmetic is on unbounded
integers; a result is limited only by the check against its tag (R170). -/
namespace Sys2Proof.Machine

/-- Both source registers are read before anything is written (R170; 42_arithmetic.md preamble). -/
def State.read2 (s : State) (i j : VName) : Ev ((Int × Tag) × (Int × Tag)) :=
  (s.readV i).andThen fun x => (s.readV j).andThen fun y => Ev.val (x, y)

/-- ADD and SUB: convert the right operand to the left tag, combine, and check against the sum tag (R171, R172). -/
def sumValue (op : Int → Int → Int) (x y : Int × Tag) : Ev (Int × Tag) :=
  (normalize y.1 y.2 x.2).andThen fun B2 =>
  (check (op x.1 B2) (sumTag x.2 y.2).1).andThen fun r => Ev.val (r, (sumTag x.2 y.2).1)

/-- MUL: exact when the product is expandable, else the fallback (R173). -/
def mulValue (x y : Int × Tag) : Ev (Int × Tag) :=
  (if (prodTag x.2 y.2).2 then mulExact (prodTag x.2 y.2).1 x.1 y.1
   else mulFallback x.1 x.2 y.1 y.2).andThen fun r => Ev.val (r, (prodTag x.2 y.2).1)

/-- DIV: DOMAIN on a zero divisor, before promotion; else exact or the fallback (R174). -/
def divValue (x y : Int × Tag) : Ev (Int × Tag) :=
  if y.1 = 0 then domainError
  else (if (quotTag x.2 y.2).2 then divExact (quotTag x.2 y.2).1 x.1 y.1 y.2
        else divFallback x.1 x.2 y.1 y.2).andThen fun r => Ev.val (r, (quotTag x.2 y.2).1)

/-- NEG: `-A` if signed, else `largest(a) - A`, checked against a (R175). -/
def negValue (x : Int × Tag) : Ev (Int × Tag) :=
  (check (if x.2.s then -x.1 else largest x.2 - x.1) x.2).andThen fun r => Ev.val (r, x.2)

/-- The compound forms: the binary result is converted back to rd's own tag a (R176 to R179). -/
def inPlace (m : Ev (Int × Tag)) (a : Tag) : Ev (Int × Tag) :=
  m.andThen fun r => (normalize r.1 r.2 a).andThen fun v => Ev.val (v, a)

/-- ADD rd, rs1, rs2 (R171). -/
def execAdd (rd rs1 rs2 : VName) (s : State) : Host.Outcome State Fault Refusal :=
  s.finishV rd ((s.read2 rs1 rs2).andThen fun p => sumValue (· + ·) p.1 p.2)

/-- SUB rd, rs1, rs2 (R172). -/
def execSub (rd rs1 rs2 : VName) (s : State) : Host.Outcome State Fault Refusal :=
  s.finishV rd ((s.read2 rs1 rs2).andThen fun p => sumValue (· - ·) p.1 p.2)

/-- MUL rd, rs1, rs2 (R173). -/
def execMul (rd rs1 rs2 : VName) (s : State) : Host.Outcome State Fault Refusal :=
  s.finishV rd ((s.read2 rs1 rs2).andThen fun p => mulValue p.1 p.2)

/-- DIV rd, rs1, rs2 (R174). -/
def execDiv (rd rs1 rs2 : VName) (s : State) : Host.Outcome State Fault Refusal :=
  s.finishV rd ((s.read2 rs1 rs2).andThen fun p => divValue p.1 p.2)

/-- NEG rd, rs1 (R175). -/
def execNeg (rd rs1 : VName) (s : State) : Host.Outcome State Fault Refusal :=
  s.finishV rd ((s.readV rs1).andThen negValue)

/-- ADDA rd, rs2 (R176). -/
def execAdda (rd rs2 : VName) (s : State) : Host.Outcome State Fault Refusal :=
  s.finishV rd ((s.read2 rd rs2).andThen fun p => inPlace (sumValue (· + ·) p.1 p.2) p.1.2)

/-- SUBA rd, rs2 (R177). -/
def execSuba (rd rs2 : VName) (s : State) : Host.Outcome State Fault Refusal :=
  s.finishV rd ((s.read2 rd rs2).andThen fun p => inPlace (sumValue (· - ·) p.1 p.2) p.1.2)

/-- MULA rd, rs2 (R178). -/
def execMula (rd rs2 : VName) (s : State) : Host.Outcome State Fault Refusal :=
  s.finishV rd ((s.read2 rd rs2).andThen fun p => inPlace (mulValue p.1 p.2) p.1.2)

/-- DIVA rd, rs2 (R179). -/
def execDiva (rd rs2 : VName) (s : State) : Host.Outcome State Fault Refusal :=
  s.finishV rd ((s.read2 rd rs2).andThen fun p => inPlace (divValue p.1 p.2) p.1.2)

end Sys2Proof.Machine
end

