-- ==== Sys2Proof/Machine/Compare.lean ====
section
/-! DEFINITION. The comparison commands (43_compare.md R200 to R206). -/
namespace Sys2Proof.Machine

/-- The shared part of CMP.cc (R200): read both operands, convert the right one to the left tag, compare. -/
def compareValue (cond : Int → Int → Bool) (x y : Int × Tag) : Ev Bool :=
  (normalize y.1 y.2 x.2).andThen fun B2 => Ev.val (cond x.1 B2)

/-- The end of CMP.cc (R200): write STATUS.CMP and return 1 for true, 0 for false. -/
def State.finishC (s : State) (e : Ev Bool) : Host.Outcome State Fault Refusal :=
  s.finish e (fun s' c => s'.setCmp c) (fun c => if c then 1#64 else 0#64)

/-- CMP.EQ rs1, rs2 (R201). -/
def execCmpEq (rs1 rs2 : VName) (s : State) : Host.Outcome State Fault Refusal :=
  s.finishC ((s.read2 rs1 rs2).andThen fun p => compareValue (fun A B2 => decide (A = B2)) p.1 p.2)

/-- CMP.NE rs1, rs2 (R202). -/
def execCmpNe (rs1 rs2 : VName) (s : State) : Host.Outcome State Fault Refusal :=
  s.finishC ((s.read2 rs1 rs2).andThen fun p => compareValue (fun A B2 => decide (A ≠ B2)) p.1 p.2)

/-- CMP.LT rs1, rs2 (R203). -/
def execCmpLt (rs1 rs2 : VName) (s : State) : Host.Outcome State Fault Refusal :=
  s.finishC ((s.read2 rs1 rs2).andThen fun p => compareValue (fun A B2 => decide (A < B2)) p.1 p.2)

/-- CMP.LE rs1, rs2 (R204). -/
def execCmpLe (rs1 rs2 : VName) (s : State) : Host.Outcome State Fault Refusal :=
  s.finishC ((s.read2 rs1 rs2).andThen fun p => compareValue (fun A B2 => decide (A ≤ B2)) p.1 p.2)

/-- CMP.GT rs1, rs2 (R205). -/
def execCmpGt (rs1 rs2 : VName) (s : State) : Host.Outcome State Fault Refusal :=
  s.finishC ((s.read2 rs1 rs2).andThen fun p => compareValue (fun A B2 => decide (A > B2)) p.1 p.2)

/-- CMP.GE rs1, rs2 (R206). -/
def execCmpGe (rs1 rs2 : VName) (s : State) : Host.Outcome State Fault Refusal :=
  s.finishC ((s.read2 rs1 rs2).andThen fun p => compareValue (fun A B2 => decide (A ≥ B2)) p.1 p.2)

end Sys2Proof.Machine
end

