-- ==== Sys2Proof/Machine/Lut.lean ====
section
/-! DEFINITION. The angle and scale-factor tables, and LUTRD (45_lut.md R240 to R248). The tables have no
state (R245): each is a constant list, one natural number an entry, the floor of the exact real of R241 times
`2 ^ Config.romBits`. `RHA` at a binary point below 192 needs no more than that floor (log entry 7). -/
namespace Sys2Proof.Machine

/-- The six table kinds (R240). -/
inductive LutKind where
  | atan | atanh | pow2 | ipow2 | kcirc | khyp
  deriving DecidableEq, Repr

/-- The table kind a SUB value selects; 6 and 7 are undefined (R78). -/
def LutKind.ofSub (sub : BitVec 3) : Option LutKind :=
  match sub.toNat with
  | 0 => some .atan
  | 1 => some .atanh
  | 2 => some .pow2
  | 3 => some .ipow2
  | 4 => some .kcirc
  | 5 => some .khyp
  | _ => none

/-- `floor(atan(2^-i) * 2^192)` for i = 0..63 (R241, kind ATAN). -/
def atanRom : List Nat :=
  [0xC90FDAA22168C234C4C6628B80DC1CD129024E088A67CC74, 0x76B19C1586ED3DA2B7F222F65E1D4681B70A0AC3930E6F80,
   0x3EB6EBF25901BAC55B71E7BD7DE885F96A9FEA40E22CE0DA, 0x1FD5BA9AAC2F6DC65912F313E7D111DEF1672AFB2BB35B24,
   0xFFAADDB967EF4E36CB2792DC0E2E0D51319C12CF59D4B2D, 0x7FF556EEA5D892A13BCEBBB6ED463109C036814A606DC40,
   0x3FFEAAB776E5356EF9E31590057DD812083BD970437BBD1, 0x1FFFD555BBBA972D00C46A3F77CC15E8ED0AD402E345E00,
   0xFFFFAAAADDDDB94BB12AFB6B6D4F7E167C18BAEB9BC957, 0x7FFFF55556EEEEA5CA6ADEAB02251CE8F2409FEE23880B,
   0x3FFFFEAAAAB77776E52E5A019FBCEA5F34DBC3AACA1311, 0x1FFFFFD55555BBBBBA97297625624A8279C3594C521697,
   0xFFFFFFAAAAAADDDDDDB94B94D5BD5BBE778A75117F928, 0x7FFFFFF5555556EEEEEEA5CA5CB40340311A860615272,
   0x3FFFFFFEAAAAAAB7777776E52E52EC4AC4ABEDAD667E3, 0x1FFFFFFFD5555555BBBBBBBA9729729AB7AB7AAC0891F] ++
  [0xFFFFFFFFAAAAAAAADDDDDDDDB94B94B968068067EF3A, 0x7FFFFFFFF555555556EEEEEEEEA5CA5CA5D895895892,
   0x3FFFFFFFFEAAAAAAAAB777777776E52E52E5356F56F5, 0x1FFFFFFFFFD555555555BBBBBBBBBA972972972D00D0,
   0xFFFFFFFFFFAAAAAAAAAADDDDDDDDDDB94B94B94BB12, 0x7FFFFFFFFFF55555555556EEEEEEEEEEA5CA5CA5CA6,
   0x3FFFFFFFFFFEAAAAAAAAAAB77777777776E52E52E52, 0x1FFFFFFFFFFFD55555555555BBBBBBBBBBBA9729729,
   0xFFFFFFFFFFFFAAAAAAAAAAAADDDDDDDDDDDDB94B94, 0x7FFFFFFFFFFFF5555555555556EEEEEEEEEEEEA5CA,
   0x3FFFFFFFFFFFFEAAAAAAAAAAAAB7777777777776E5, 0x1FFFFFFFFFFFFFD5555555555555BBBBBBBBBBBBBA,
   0xFFFFFFFFFFFFFFAAAAAAAAAAAAAADDDDDDDDDDDDD, 0x7FFFFFFFFFFFFFF555555555555556EEEEEEEEEEE,
   0x3FFFFFFFFFFFFFFEAAAAAAAAAAAAAAB7777777777, 0x1FFFFFFFFFFFFFFFD555555555555555BBBBBBBBB] ++
  [0xFFFFFFFFFFFFFFFFAAAAAAAAAAAAAAAADDDDDDDD, 0x7FFFFFFFFFFFFFFFF55555555555555556EEEEEE,
   0x3FFFFFFFFFFFFFFFFEAAAAAAAAAAAAAAAAB77777, 0x1FFFFFFFFFFFFFFFFFD55555555555555555BBBB,
   0xFFFFFFFFFFFFFFFFFFAAAAAAAAAAAAAAAAAADDD, 0x7FFFFFFFFFFFFFFFFFF5555555555555555556E,
   0x3FFFFFFFFFFFFFFFFFFEAAAAAAAAAAAAAAAAAAB, 0x1FFFFFFFFFFFFFFFFFFFD555555555555555555,
   0xFFFFFFFFFFFFFFFFFFFFAAAAAAAAAAAAAAAAAA, 0x7FFFFFFFFFFFFFFFFFFFF55555555555555555,
   0x3FFFFFFFFFFFFFFFFFFFFEAAAAAAAAAAAAAAAA, 0x1FFFFFFFFFFFFFFFFFFFFFD555555555555555,
   0xFFFFFFFFFFFFFFFFFFFFFFAAAAAAAAAAAAAAA, 0x7FFFFFFFFFFFFFFFFFFFFFF55555555555555,
   0x3FFFFFFFFFFFFFFFFFFFFFFEAAAAAAAAAAAAA, 0x1FFFFFFFFFFFFFFFFFFFFFFFD555555555555] ++
  [0xFFFFFFFFFFFFFFFFFFFFFFFFAAAAAAAAAAAA, 0x7FFFFFFFFFFFFFFFFFFFFFFFF55555555555,
   0x3FFFFFFFFFFFFFFFFFFFFFFFFEAAAAAAAAAA, 0x1FFFFFFFFFFFFFFFFFFFFFFFFFD555555555,
   0xFFFFFFFFFFFFFFFFFFFFFFFFFFAAAAAAAAA, 0x7FFFFFFFFFFFFFFFFFFFFFFFFFF55555555,
   0x3FFFFFFFFFFFFFFFFFFFFFFFFFFEAAAAAAA, 0x1FFFFFFFFFFFFFFFFFFFFFFFFFFFD555555,
   0xFFFFFFFFFFFFFFFFFFFFFFFFFFFFAAAAAA, 0x7FFFFFFFFFFFFFFFFFFFFFFFFFFFF55555,
   0x3FFFFFFFFFFFFFFFFFFFFFFFFFFFFEAAAA, 0x1FFFFFFFFFFFFFFFFFFFFFFFFFFFFFD555,
   0xFFFFFFFFFFFFFFFFFFFFFFFFFFFFFFAAA, 0x7FFFFFFFFFFFFFFFFFFFFFFFFFFFFFF55,
   0x3FFFFFFFFFFFFFFFFFFFFFFFFFFFFFFEA, 0x1FFFFFFFFFFFFFFFFFFFFFFFFFFFFFFFD]

/-- `floor(atanh(2^-(i+1)) * 2^192)` for i = 0..63 (R241, kind ATANH). -/
def atanhRom : List Nat :=
  [0x8C9F53D5681854BB520CC6AA829DBE5ADF0A216CDBF046F8, 0x4162BBEA0451469C9DAF0BE0810EDA9F459C16F39F7F500E,
   0x202B12393D5DEED328CF41ED722D8C9297F95BA790926DF2, 0x1005588AD375ACDCB1312A563C685255E7D9D31948AC2127,
   0x800AAC448D77125A4EE9FEE2DB3774F8FAE0A8482292EF0, 0x4001556222B47263834E958AB3B4CA2D42C7EAF97899E35,
   0x20002AAB111235A6E87A29F88BB425DE56F1240424B4B66, 0x1000055558888AD1AEE1EF9340407975AF91AD489B027A3,
   0x80000AAAAC44448D68E4C64F4D81187A63F4D27720EA5A, 0x4000015555622222B46B4DD0DD6AE827CB944355AD7B76,
   0x2000002AAAAB11111235A35DC3DC4966C51F54DE909796, 0x1000000555555888888AD1AD1C98C98E0D26A519AEB342,
   0x8000000AAAAAAC4444448D68D69BA1BA1E8A744ACAE6D, 0x4000000155555562222222B46B46BB87B87BE4CFC15E1,
   0x200000002AAAAAAB1111111235A35A393193193D3601E, 0x1000000005555555588888888AD1AD1AD374374375ABA] ++
  [0x800000000AAAAAAAAC444444448D68D68D770F70F712, 0x4000000001555555556222222222B46B46B472632632,
   0x20000000002AAAAAAAAB111111111235A35A35A6E86E, 0x1000000000055555555558888888888AD1AD1AD1AEE1,
   0x80000000000AAAAAAAAAAC44444444448D68D68D68E, 0x4000000000015555555555622222222222B46B46B46,
   0x2000000000002AAAAAAAAAAB11111111111235A35A3, 0x1000000000000555555555555888888888888AD1AD1,
   0x8000000000000AAAAAAAAAAAAC4444444444448D68, 0x4000000000000155555555555562222222222222B4,
   0x200000000000002AAAAAAAAAAAAB11111111111112, 0x100000000000000555555555555558888888888888,
   0x800000000000000AAAAAAAAAAAAAAC44444444444, 0x40000000000000015555555555555562222222222,
   0x20000000000000002AAAAAAAAAAAAAAB111111111, 0x10000000000000000555555555555555588888888] ++
  [0x80000000000000000AAAAAAAAAAAAAAAAC444444, 0x4000000000000000015555555555555555622222,
   0x2000000000000000002AAAAAAAAAAAAAAAAB1111, 0x1000000000000000000555555555555555555888,
   0x8000000000000000000AAAAAAAAAAAAAAAAAAC4, 0x400000000000000000015555555555555555556,
   0x200000000000000000002AAAAAAAAAAAAAAAAAA, 0x100000000000000000000555555555555555555,
   0x800000000000000000000AAAAAAAAAAAAAAAAA, 0x40000000000000000000015555555555555555,
   0x20000000000000000000002AAAAAAAAAAAAAAA, 0x10000000000000000000000555555555555555,
   0x80000000000000000000000AAAAAAAAAAAAAA, 0x4000000000000000000000015555555555555,
   0x2000000000000000000000002AAAAAAAAAAAA, 0x1000000000000000000000000555555555555] ++
  [0x8000000000000000000000000AAAAAAAAAAA, 0x400000000000000000000000015555555555,
   0x200000000000000000000000002AAAAAAAAA, 0x100000000000000000000000000555555555,
   0x800000000000000000000000000AAAAAAAA, 0x40000000000000000000000000015555555,
   0x20000000000000000000000000002AAAAAA, 0x10000000000000000000000000000555555,
   0x80000000000000000000000000000AAAAA, 0x4000000000000000000000000000015555,
   0x2000000000000000000000000000002AAA, 0x1000000000000000000000000000000555,
   0x8000000000000000000000000000000AA, 0x400000000000000000000000000000015,
   0x200000000000000000000000000000002, 0x100000000000000000000000000000000]

/-- `floor(2^(2^-i) * 2^192)` for i = 0..63 (R241, kind POW2). -/
def pow2Rom : List Nat :=
  [0x2000000000000000000000000000000000000000000000000, 0x16A09E667F3BCC908B2FB1366EA957D3E3ADEC17512775099,
   0x1306FE0A31B7152DE8D5A46305C85EDECBC27343629F502F1, 0x1172B83C7D517ADCDF7C8C50EB14A792035509FF7D758693F,
   0x10B5586CF9890F6298B92B71842A98364291408B3CEB0A2A2, 0x1059B0D31585743AE7C548EB68CA417FE53E3495F7DF4BAF8,
   0x102C9A3E778060EE6F7CACA4F7A29BDE93D70A2CABC5CB89B, 0x10163DA9FB33356D84A66AE336DCDFA4003EC04C360BE2404,
   0x100B1AFA5ABCBED6129AB13EC11DC954455B8187F0C9741EB, 0x10058C86DA1C09EA1FF19D294CF2F679C68BF05EB63F5C41C,
   0x1002C605E2E8CEC506D21BFC89A23A010806C0A42D5DAE7E0, 0x100162F3904051FA128BCA9C55C31E5E06DDD31155FE06C40,
   0x1000B175EFFDC76BA38E31671CA939726694630E2F50BA331, 0x100058BA01FB9F96D6CACD4B180917C3E43A86F9ED9B4CED9,
   0x10002C5CC37DA9491D0985C348C68E7B3D505D939D869B9E7, 0x1000162E525EE054754457D5995292026D9D47870C82F4523] ++
  [0x10000B17255775C040618BF4A4ADE83FCA8F8CFDFC7EB1DBF, 0x1000058B91B5BC9AE2EED81E9B7D4CFAC1B1B76FBF41B08A8,
   0x100002C5C89D5EC6CA4D7C8ACC017B7C9D9CDF6F672D9A286, 0x10000162E43F4F831060E02D839A9D16D6FB332D9BABC52DE,
   0x100000B1721BCFC99D9F890EA069117637D190CB3E159DFE8, 0x10000058B90CF1E6D97F9CA14DBCC16289FA75FFD0B14CF25,
   0x1000002C5C863B73F016468F6BAC5CA2C11F6D72BC1020152, 0x100000162E430E5A18F6119E3C02282A5F70F2C46B0DD191F,
   0x1000000B1721835514B86E6D96EFD1BFF6819E4668BEEA56A, 0x100000058B90C0B48C6BE5DF846C5B2F02C95A3BBC2819121,
   0x10000002C5C8601CC6B9E94213C72737ABFEF0E9C3BA606C1, 0x1000000162E42FFF037DF38AA2B219F06BAA53C7E7FA7F95E,
   0x10000000B17217FBA9C739AA5819F44F9C7FA9EE41FE8C78D, 0x1000000058B90BFCDEE5ACD3C1CEDC823B10657B2B69ADC8E,
   0x100000002C5C85FE31F35A6A30DA1BE50FD0F47F54E7C4107, 0x10000000162E42FF0999CE3541B9FFFCFBA83C5E11BA83DD6] ++
  [0x100000000B17217F80F4EF5AADDA4555466E70CC0654EE4FE, 0x10000000058B90BFBF8479BD5A81B51ADA9F644DE97E51FA2,
   0x1000000002C5C85FDF84BD62AE30A74CCBCEB4B8E2DC9EB2F, 0x100000000162E42FEFB2FED257559BDAA79B863EE98166287,
   0x1000000000B17217F7D5A7716BBA4A9AF17D584482369AF7C, 0x100000000058B90BFBE9DDBAC5E109CCF1D2E27D5D64E66E5,
   0x10000000002C5C85FDF4B15DE6F17EB0D96388F475923CFE4, 0x1000000000162E42FEFA494F1478FDE05516EBAB58C5BB5CF,
   0x10000000000B17217F7D20CF927C8E94CEAD93CA662F4A131, 0x1000000000058B90BFBE8F71CB4E4B33E5A06BE76FA0B3C65,
   0x100000000002C5C85FDF477B662B26945D0AC1C4E8B220B6B, 0x10000000000162E42FEFA3AE53369388CA690840D4C93EBFC,
   0x100000000000B17217F7D1D351A389D40C580E8545079F539, 0x10000000000058B90BFBE8E8B2D3D4EDEFFA3DED817D6DFE5,
   0x1000000000002C5C85FDF4741BEA6E77F2715723AD873A5C0, 0x100000000000162E42FEFA39FE95583C37D5CEED5897017DF] ++
  [0x1000000000000B17217F7D1CFB72B45E2B9232F7959482421, 0x100000000000058B90BFBE8E7CC35C3F19B2ECB14637068FB,
   0x10000000000002C5C85FDF473E242EA38DD3EB30AA1A05453, 0x1000000000000162E42FEFA39F02B772C72892CFABD10D363,
   0x10000000000000B17217F7D1CF7D83C1A3A3F0B5D63A16828, 0x1000000000000058B90BFBE8E7BDCBE2E1D5E22E708580E36,
   0x100000000000002C5C85FDF473DEA871F4EBEB8C1A47600F4, 0x10000000000000162E42FEFA39EF44D91B76346345BA2835A,
   0x100000000000000B17217F7D1CF79E9495FB29D8F1055C2F2, 0x10000000000000058B90BFBE8E7BCE544D0D98D64C0D155DC,
   0x1000000000000002C5C85FDF473DE6ECA70ACD659AE92F289, 0x100000000000000162E42FEFA39EF366F3A666F16AAD4207B,
   0x1000000000000000B17217F7D1CF79AFA1DB73885CA4CBCB5, 0x100000000000000058B90BFBE8E7BCD6DAEFC9C81825F09CD,
   0x10000000000000002C5C85FDF473DE6B2FF868E50687DAFCE, 0x1000000000000000162E42FEFA39EF35889C5572C1E1262A2]

/-- `floor(2^(-(2^-i)) * 2^192)` for i = 0..63 (R241, kind IPOW2). -/
def ipow2Rom : List Nat :=
  [0x800000000000000000000000000000000000000000000000, 0xB504F333F9DE6484597D89B3754ABE9F1D6F60BA893BA84C,
   0xD744FCCAD69D6AF439A68BB9902D3FDE1D733AF522058B16, 0xEAC0C6E7DD24392ED02D75B3706E54FAC4FAACE043B7F91C,
   0xF5257D152486CC2C7B9D0C7AED980FC36F510308677709F5, 0xFA83B2DB722A033A7C25BB14315D7FCC8006FE21A95D14DC,
   0xFD3E0C0CF486C174853F3A5931E0EE03061B7BB285A60791, 0xFE9E115C7B8F884BADD25995E79D2F096934EC56BE0D2544,
   0xFF4ECB59511EC8A5301BA217EF18DD7C2F409857956D475F, 0xFFA756521C8DAED19F3A1B48FB94C5890307B74822FD5159,
   0xFFD3A751C0F7E10BD3B9F8AE012FBE068EB5ECD47DDB2897, 0xFFE9D2B2F7DB2755DDF1D28A378A438C6F052F62E83E6392,
   0xFFF4E91BFF1B8C3D88338E0EBF284A4DE81D1C9B01B7B876, 0xFFFA747EA0040664238F92F792405805955C348754BD0A9B,
   0xFFFD3A3B7814EB53CD7629D70FEA116A4F9AC1FACAE74DF6, 0xFFFE9D1CC60DDAB126DE1AEC4A87E7B8D22F40EE87B245CD] ++
  [0xFFFF4E8E25879BFA09EA263360240C1A1F8A9B5789EBBE49, 0xFFFFA7470363F4515426D76C762B6B619A48F39BFA448AFD,
   0xFFFFD3A37DDA03133BDE87A8379C8932AC150861082DAE69, 0xFFFFE9D1BDF703AEF21EA4DCFB0682D865AF81F4246103F5,
   0xFFFFF4E8DEBE025E24128A3D460731F1F007C529C829AD6D, 0xFFFFFA746F4FA1506788FBC89750BF71094F7CDA6D2CC695,
   0xFFFFFD3A37A3F8B07E7C4871DC00D76E9D5A932873978113, 0xFFFFFE9D1BD1065A50971275792F1C83F9174CA2A308858E,
   0xFFFFFF4E8DE845ADAC77243CD0914B374834DF4596FC10D3, 0xFFFFFFA746F41376F74124CD483186D442C25F94953E46C1,
   0xFFFFFFD3A37A05E383E14C90273C94F5C81B375E6802DA31, 0xFFFFFFE9D1BD01FBC400BF822DC936B55E2099529300EFEF,
   0xFFFFFFF4E8DE80C062846365949B61AF3DA30AD54B60EA60, 0xFFFFFFFA746F4050D1633246A8A0E09A3057D5FFF6A19598,
   0xFFFFFFFD3A37A02490B9D93DA3C1EBCFB547AFABA1F97C15, 0xFFFFFFFE9D1BD011525EFCA410B8EAB785B1EECA64C79B7B] ++
  [0xFFFFFFFF4E8DE8086BB002532D71E54D5A605FD6AF1237F6, 0xFFFFFFFFA746F40426782229DAAA3CFAC56F363DF0777A04,
   0xFFFFFFFFD3A37A020F641954FDA6EEDD5EDF4D3860818060, 0xFFFFFFFFE9D1BD0106BC0EBA82D29B400D3955E3023FBCAF,
   0xFFFFFFFFF4E8DE80832087E142666C8B89E6DB6642980C96, 0xFFFFFFFFFA746F404180E411A17228BF8B40EF296328CB63,
   0xFFFFFFFFFD3A37A020BC9A1110C8C65613E33669AF3968E1, 0xFFFFFFFFFE9D1BD0105D570A98684E53991836B5C95B8F25,
   0xFFFFFFFFFF4E8DE8082E6E05D03521C94FC87FB463B32F77, 0xFFFFFFFFFFA746F4041727A3091ACF8734A1B09FB6B257BB,
   0xFFFFFFFFFFD3A37A020B8FF98CCD776B92FDFF7720FE939C, 0xFFFFFFFFFFE9D1BD0105C706C876BF9FB25A02E41E734F65,
   0xFFFFFFFFFFF4E8DE8082E345E4BF60CA50B9B9680A47CAD8, 0xFFFFFFFFFFFA746F404171939280B0A3C5EAC996FED98F32,
   0xFFFFFFFFFFFD3A37A020B8C5F14898618A4E37E0ED3875F6, 0xFFFFFFFFFFFE9D1BD0105C6202A65C34AEFBFBB167FAEF0C] ++
  [0xFFFFFFFFFFFF4E8DE8082E30C3D3B21B51F30B2863129D99, 0xFFFFFFFFFFFFA746F40417185289FA0DE796C3940BA64773,
   0xFFFFFFFFFFFFD3A37A020B8C256D05470372B09F7A2557C7, 0xFFFFFFFFFFFFE9D1BD0105C611C084B385A32BEFC9E097A3,
   0xFFFFFFFFFFFFF4E8DE8082E308A2C2DDC3CC0ADD3E1AF299, 0xFFFFFFFFFFFFFA746F4041718442018FE224A2A7A0170879,
   0xFFFFFFFFFFFFFD3A37A020B8C21D28D03121F8A205A5C4B7, 0xFFFFFFFFFFFFFE9D1BD0105C610D9E6A2894E6248EE46E10,
   0xFFFFFFFFFFFFFF4E8DE8082E308691B5984B6D872A4BF968, 0xFFFFFFFFFFFFFFA746F404171843397AED25F560CDD7193A,
   0xFFFFFFFFFFFFFFD3A37A020B8C2198E57ED30A57B517293C, 0xFFFFFFFFFFFFFFE9D1BD0105C610CB7CC1798915AE166675,
   0xFFFFFFFFFFFFFFF4E8DE8082E3086580E140C5854BEDE506, 0xFFFFFFFFFFFFFFFA746F4041718432B110C16301432F9EA1,
   0xFFFFFFFFFFFFFFFD3A37A020B8C21954B068F19048E5FA4D, 0xFFFFFFFFFFFFFFFE9D1BD0105C610CA9623688CC0E4687E4]

/-- `floor(prod_(k<F) (1 + 2^-2k)^(-1/2) * 2^192)` for F = 0..64 (R241, kind KCIRC). -/
def kcircRom : List Nat :=
  [0x1000000000000000000000000000000000000000000000000, 0xB504F333F9DE6484597D89B3754ABE9F1D6F60BA893BA84C,
   0xA1E89B12424876D9B744B679EBD7FF75576022564E0005AB, 0x9D130DD36BD1B4BE3CE38C2FA55EBAE8908BC673B4DBB24F,
   0x9BDC8A0EF59FEF6A460DB793BE8AF34D3F92F68C865D79D1, 0x9B8ED60C1777AC645EC45BA99491C87914D6923DA1229706,
   0x9B7B67D5ECB0F9EB3185C60B4F4E0D3373FF601912B3C74F, 0x9B768C34F93F4616513C2419D8F2A44BF28FD132E0A02D57,
   0x9B75554B859077BD2A38FD31394F429356C8C9AB4782C638, 0x9B7507911536845CC04AEA4F6EBA69F8FBDC323E49104363,
   0x9B74F42277E91F21041FA5FC3B07908435E0B5FC78853F10, 0x9B74EF46D082573A3ECAFB1C8B08EF50ABBF642D43C9102D,
   0x9B74EE0FE6A76E56C9A04725FA1ED481D9EF6821832C6A9A, 0x9B74EDC22C30A0AF4EFE7DB5B8E5B1C0815FB83D77CC13F3,
   0x9B74EDAEBD92EC0E867C3282D3D1E19F8C484371FFAE0D87, 0x9B74EDA9E1EB7ED2E5BDF08C6E6493C976AB429E63F2FF9D] ++
  [0x9B74EDA8AB01A382C6A484D5C94B1A86D7E8D1B6D96BE2C1, 0x9B74EDA85D472CAEAB6F8C337584EB2872D26C26B360E68F,
   0x9B74EDA849D88EF9A36B642F9184528509DC550BFB715C23, 0x9B74EDA844FCE78C6156EB90E3819F5086A434049314DBCD,
   0x9B74EDA843C5FDB110D0967F5CB08341AF965396374EECD7, 0x9B74EDA84378433A3CAEEDCC5D4734301A801D0DCB899616,
   0x9B74EDA84364D49C87A68268B3918FE67035A8810AED3E32, 0x9B74EDA8435FF8F51A64677C5A8671CB9FB67E0320D9D623,
   0x9B74EDA8435EC20B3F13E0C00D59CEF464F179924A77C04B, 0x9B74EDA8435E7450C83FBF10E6A008898DD4CB1510606D0D,
   0x9B74EDA8435E60E22A8AB6A51BBAAD138786E438A1D7A778, 0x9B74EDA8435E5C06831D748A28EDE79850EAFEBC17F65AF7,
   0x9B74EDA8435E5ACF994224036C397F4FA7F37EA058291A75, 0x9B74EDA8435E5A81DECB4FE1BD0C51CEE000962D9D46B790,
   0x9B74EDA8435E5A6E702D9AD951410537C4288B8A31DAC69A, 0x9B74EDA8435E5A6994862D97364E31FE8E94D3D8EB34833D] ++
  [0x9B74EDA8435E5A685D9C5246AF917D2F0A460A9C12CE3DAD, 0x9B74EDA8435E5A680FE1DB728DE24FFB15C3BA97D448E0FD,
   0x9B74EDA8435E5A67FC733DBD857684AE176C3CBB7420CD1C, 0x9B74EDA8435E5A67F7979650435B91DAD7C2EEA6A70E5C58,
   0x9B74EDA8435E5A67F660AC74F2D4D52607D764379879396B, 0x9B74EDA8435E5A67F612F1FE1EB325F8D3DC6E2D371EE843,
   0x9B74EDA8435E5A67F5FF836069AABA2D86DDAF73B4ED0373, 0x9B74EDA8435E5A67F5FAA7B8FC689F3AB39DFFB1E5C2D536,
   0x9B74EDA8435E5A67F5F970CF2118187DFECE13C03B0E6E57, 0x9B74EDA8435E5A67F5F92314AA43F6CED19A18C3BCF2B6EA,
   0x9B74EDA8435E5A67F5F90FA60C8EEE63064D1A049C34DF33, 0x9B74EDA8435E5A67F5F90ACA6521AC481379DA54D3F1FAA8,
   0x9B74EDA8435E5A67F5F909937B465BC156C50A68E1E00A9B, 0x9B74EDA8435E5A67F5F90945C0CF879FA797D66DE55B7B29,
   0x9B74EDA8435E5A67F5F909325231D2973BCC896F263A5616, 0x9B74EDA8435E5A67F5F9092D768A655520D9B62F76720CBE] ++
  [0x9B74EDA8435E5A67F5F9092C3FA08A049A1D015F8A7FFA66, 0x9B74EDA8435E5A67F5F9092BF1E61330786DD42B8F8375D1,
   0x9B74EDA8435E5A67F5F9092BDE77757B700208DE90C454AB, 0x9B74EDA8435E5A67F5F9092BD99BCE0E2DE7160B51148C62,
   0x9B74EDA8435E5A67F5F9092BD864E432DD60595681289A4F, 0x9B74EDA8435E5A67F5F9092BD81729BC093EAA294D2D9DCB,
   0x9B74EDA8435E5A67F5F9092BD803BB1E54363E5E002EDEAA, 0x9B74EDA8435E5A67F5F9092BD7FEDF76E6F4236B2CEF2EE1,
   0x9B74EDA8435E5A67F5F9092BD7FDA88D0BA39CAE781F42EF, 0x9B74EDA8435E5A67F5F9092BD7FD5AD294CF7AFF4AEB47F3,
   0x9B74EDA8435E5A67F5F9092BD7FD4763F71A72937F9E4934, 0x9B74EDA8435E5A67F5F9092BD7FD42884FAD30788CCB0984,
   0x9B74EDA8435E5A67F5F9092BD7FD415165D1DFF1D0163998, 0x9B74EDA8435E5A67F5F9092BD7FD4103AB5B0BD020E9059D,
   0x9B74EDA8435E5A67F5F9092BD7FD40F03CBD56C7B51DB89E, 0x9B74EDA8435E5A67F5F9092BD7FD40EB6115E9859A2AE55E] ++
  [0x9B74EDA8435E5A67F5F9092BD7FD40EA2A2C0E35136E308F]

/-- `floor(prod_(k in H(F)) (1 - 2^-2k)^(-1/2) * 2^192)` for F = 0..64 (R241, kind KHYP). -/
def khypRom : List Nat :=
  [0x1000000000000000000000000000000000000000000000000, 0x1279A74590331C4D218F81E4AFB257D06193ACDDD8D3C2FBB,
   0x1314C3D92A9E90CE4370D9A00631FC47BCD57A1843713AD24, 0x133B61605E13A5B5FF4F70C71DA5BB59B19D72D1132B6913C,
   0x134EB0106E8227DDDD2C9D648227E33CEE8BFECFE30E778B5, 0x13511A5A60D7FF82F18D9715576D2631D520239E2FD9D229F,
   0x1351B4EA727582F37BD196A594999DFB0080B502FB27FDA39, 0x1351DB8E503627C49B350DFB02AA77121332D285C7C76D04D,
   0x1351E537453C083EA7108A5A439BDE167E554D7F0855C4F82, 0x1351E7A18256DC5D9A1B94EA3542E665577185F21D17FEBB0,
   0x1351E83C119B27278E28EDBDA6588C6370EFA1EE02147E2C3, 0x1351E862B56C133637620CA6DCE70F263CE3133ED2397DC39,
   0x1351E86C5E604BCFA496B563B942CEAF34DE49BF108456794, 0x1351E87132DA681C5B30BC7A8571ED5091599DE366EBCF530,
   0x1351E871CD69ABAD30BB28310A69170D98C7841C2BD9F6257, 0x1351E871F40D7C913F79F237BEBF966826A39C169A046E2B7] ++
  [0x1351E871FDB670CA40BF67AB200B36DE1F5DBE9C263108930, 0x1351E8720020ADD880EA2137142D90DACF660E5878DA831E3,
   0x1351E87200BB3D1C10F2655D02F54EBF4371D8978EC6F58EF, 0x1351E87200E1E0ECF4F44FC2ADC3396FD24910F756A7AB7F3,
   0x1351E87200EB89E12DF4C7F1DB6873F27191720FF85880CC9, 0x1351E87200EDF41E3C34E5D70300DE910D2E88C0B48212DE5,
   0x1351E87200EE8EAD7FC4ED4DE2A9EAF89582C5A876E55800B, 0x1351E87200EEB55150A8EF2B73F05D2E75B76573745C25820,
   0x1351E87200EEBEFA44E1EFA2D5D7BCADADA6A973B9D65A58A, 0x1351E87200EEC16481F02FC0AE2AF0BC97A09CC0B56BEA2C7,
   0x1351E87200EEC1FF1133BFC8243D538343DEFBBAF33C13356, 0x1351E87200EEC225B504A3CA01C1C5911E0A919BFB5FE71C8,
   0x1351E87200EEC22F5DF8DCCA7922DFAA578736F66516DD25F, 0x1351E87200EEC231C835EB0A96FB260A02157C4B220006CB1,
   0x1351E87200EEC23262C52E9A9E71379F827BFF6033620A26D, 0x1351E87200EEC2328968FF7EA04EBC04BBF1CF4175DD0695B] ++
  [0x1351E87200EEC2329311F3B7A0C61D1E07E5062B865DED6B0, 0x1351E87200EEC232957C30C5E0E3F5645ABB3015267C499BF,
   0x1351E87200EEC2329616C00970EB6B75EF6E50528043C2CFE, 0x1351E87200EEC232963D63DA54ED48FA549AF1BE05D19F3F6,
   0x1351E87200EEC23296470CCE8DEDC05B6DE617AEAA26D63D6, 0x1351E87200EEC2329649770B9C2DDE33B438E1042F6B3FFB1,
   0x1351E87200EEC232964A119ADFBDE5A9C5CD9357267F4C2A5, 0x1351E87200EEC232964A383EB0A1E7874A32BFEBBDA07E522,
   0x1351E87200EEC232964A4B909913E8760C655636093117661, 0x1351E87200EEC232964A4DFAD6222893E4ABA8FF531715FB4,
   0x1351E87200EEC232964A4E956565B89B5ABD3DB1A58E2B637, 0x1351E87200EEC232964A4EBC09369C9D3841A2DE3A2BCA19B,
   0x1351E87200EEC232964A4EC5B22AD59DAFA2BC295F532F5D0, 0x1351E87200EEC232964A4EC81C67E3DDCD7B027C289D08873,
   0x1351E87200EEC232964A4EC8B6F7276DD4F11410DAEF7ECF5, 0x1351E87200EEC232964A4EC8DD9AF851D6CE987607841C614] ++
  [0x1351E87200EEC232964A4EC8E743EC8AD745F98F52A943C5B, 0x1351E87200EEC232964A4EC8E9AE29991763D1D5A5728D9ED,
   0x1351E87200EEC232964A4EC8EA48B8DCA76B47E73A24E0151, 0x1351E87200EEC232964A4EC8EA6F5CAD8B6D256B9F5174B2A,
   0x1351E87200EEC232964A4EC8EA7905A1C46D9CCCB89C99DA1, 0x1351E87200EEC232964A4EC8EA7B6FDED2ADBAA4FEEF6323E,
   0x1351E87200EEC232964A4EC8EA7C0A6E163DC21B108415766, 0x1351E87200EEC232964A4EC8EA7C3111E721C3F894E9420AF,
   0x1351E87200EEC232964A4EC8EA7C3ABADB5AC46FF6028D302, 0x1351E87200EEC232964A4EC8EA7C3D251869048DCE48DFF97,
   0x1351E87200EEC232964A4EC8EA7C3DBFA7AC9495445A74ABC, 0x1351E87200EEC232964A4EC8EA7C3DE64B7D789721DED9D85,
   0x1351E87200EEC232964A4EC8EA7C3DEFF471B197993FF3237, 0x1351E87200EEC232964A4EC8EA7C3DF25EAEBFD7B71839764,
   0x1351E87200EEC232964A4EC8EA7C3DF2F93E0367BE8E4B0AF, 0x1351E87200EEC232964A4EC8EA7C3DF31FE1D44BC06BCF702] ++
  [0x1351E87200EEC232964A4EC8EA7C3DF3298AC884C0E330897]

/-- The ROM word of entry i of a kind at F fractional bits. The scale factors are one entry for each F; the
four angle and power tables do not depend on F (R241). Outside the ROM it is 0: no legal tag has F above 64. -/
def romWord (kind : LutKind) (i f : Nat) : Nat :=
  match kind with
  | .atan => atanRom.getD i 0
  | .atanh => atanhRom.getD i 0
  | .pow2 => pow2Rom.getD i 0
  | .ipow2 => ipow2Rom.getD i 0
  | .kcirc => kcircRom.getD f 0
  | .khyp => khypRom.getD f 0

/-- `len(kind, F)` (R243). -/
def lutLen (kind : LutKind) (f : Nat) : Nat :=
  match kind with
  | .atan => f
  | .atanh => f
  | .pow2 => f
  | .ipow2 => f
  | .kcirc => 1
  | .khyp => 1

/-- `RHA(L(kind, i, t.F) * 2^P(t))`, the entry before its range check (R242). -/
def lutRound (kind : LutKind) (i : Nat) (t : Tag) : Int :=
  scaleRound (romWord kind i t.f) (t.point - Config.romBits)

/-- `E(kind, i, t) = FROMREAL(L(kind, i, t.F), t)`, the stored entry for a tag (R242). -/
def lutEntry (kind : LutKind) (i : Nat) (t : Tag) : Ev Int := check (lutRound kind i t) t

/-- The value LUTRD loads: ILLEGAL for an undefined kind or an index at or above the length (R244, R243). -/
def lutrdValue (sub : BitVec 3) (imm : BitVec 12) (t : Tag) : Ev (Int × Tag) :=
  match LutKind.ofSub sub with
  | none => illegal
  | some kind =>
    if imm.toNat < lutLen kind t.f then (lutEntry kind imm.toNat t).andThen fun r => Ev.val (r, t)
    else illegal

/-- LUTRD rd, fs, KIND, index (R244). -/
def execLutrd (rd : VName) (fs : FName) (sub : BitVec 3) (imm : BitVec 12) (s : State) :
    Host.Outcome State Fault Refusal :=
  s.finishV rd (lutrdValue sub imm (s.tagF fs))

end Sys2Proof.Machine
end

