-- ==== Sys2Proof/Machine/Cordic.lean ====
section
/-! DEFINITION. The CORDIC engines (44_cordic.md R210 to R221). -/
namespace Sys2Proof.Machine

/-- The coordinate system of an engine. -/
inductive Coord where
  | circular | hyperbolic
  deriving DecidableEq, Repr

/-- The mode of an engine: which lane is driven to zero. -/
inductive Mode where
  | rotation | vectoring
  deriving DecidableEq, Repr

/-- The three lanes of an engine. -/
structure Lanes where
  x : Int
  y : Int
  z : Int
  deriving DecidableEq, Repr

/-- Whether a shift is in REP = 4, 13, 40, 121, ..., given a member r of it and enough fuel: `r' = 3r + 1` (R212). -/
def isRepeatFrom : Nat → Nat → Nat → Bool
  | 0, _, _ => false
  | fuel + 1, r, k => if k < r then false else if k = r then true else isRepeatFrom fuel (3 * r + 1) k

/-- Whether the hyperbolic schedule runs shift k twice (R212). -/
def isRepeat (k : Nat) : Bool := isRepeatFrom k 4 k

/-- `C(F) = [0, 1, ..., F-1]` (R211). -/
def circularSchedule (f : Nat) : List Nat := List.range f

/-- `H(F)`: the shifts 1..F, each member of REP twice in a row (R212). -/
def hyperbolicSchedule : Nat → List Nat
  | 0 => []
  | f + 1 => hyperbolicSchedule f ++ (if isRepeat (f + 1) then [f + 1, f + 1] else [f + 1])

/-- The schedule of a coordinate system (R211, R212). -/
def schedule (c : Coord) (f : Nat) : List Nat :=
  match c with
  | .circular => circularSchedule f
  | .hyperbolic => hyperbolicSchedule f

/-- The table entry of the step with shift k: `ATAN[k]`, or `ATANH[k-1]` (R211, R212). R210 makes it representable. -/
def stepAngle (c : Coord) (t : Tag) (k : Nat) : Int :=
  match c with
  | .circular => lutRound .atan k t
  | .hyperbolic => lutRound .atanh (k - 1) t

/-- `RHA(L0 * 2^P(t))`, the kind's entry 0 (R210 condition 6). -/
def firstAngle (c : Coord) (t : Tag) : Int :=
  match c with
  | .circular => lutRound .atan 0 t
  | .hyperbolic => lutRound .atanh 0 t

/-- The direction of a step, read from the state before it: rotation by the sign of Z (R213), vectoring by
the sign of Y (R214). -/
def direction (m : Mode) (l : Lanes) : Int :=
  match m with
  | .rotation => if 0 ≤ l.z then 1 else -1
  | .vectoring => if l.y < 0 then 1 else -1

/-- One micro-step with shift k: all three lanes read the state before it and wrap in W bits (R215, R216). -/
def microStep (c : Coord) (m : Mode) (t : Tag) (l : Lanes) (k : Nat) : Lanes :=
  let d := direction m l
  { x := wrapW t.w.size true (match c with
      | .circular => l.x - d * asr l.y k
      | .hyperbolic => l.x + d * asr l.y k)
    y := wrapW t.w.size true (l.y + d * asr l.x k)
    z := wrapW t.w.size true (l.z - d * stepAngle c t k) }

/-- All the steps of the schedule (R218 to R221). -/
def runEngine (c : Coord) (m : Mode) (t : Tag) (l : Lanes) : Lanes :=
  (schedule c t.f).foldl (microStep c m t) l

/-- R210: whether a CORDIC command may run on these three registers. -/
def State.cordicLegal (s : State) (c : Coord) (rd rs1 rs2 : VName) : Bool :=
  let t := (s.getV rd).t
  decide (rd ≠ rs1) && decide (rd ≠ rs2) && decide (rs1 ≠ rs2) &&
  (s.getV rd).valid && (s.getV rs1).valid && (s.getV rs2).valid &&
  decide (t = (s.getV rs1).t) && decide (t = (s.getV rs2).t) &&
  t.s && decide (1 ≤ t.f) && decide (firstAngle c t ≤ largest t)

/-- The lanes a CORDIC command starts from: X in rd, Y in rs1, Z in rs2. -/
def State.lanes (s : State) (rd rs1 rs2 : VName) : Lanes := ⟨(s.getV rd).v, (s.getV rs1).v, (s.getV rs2).v⟩

/-- The writeback checks, X then Y then Z (R217). -/
def checkLanes (l : Lanes) (t : Tag) : Ev Lanes :=
  (check l.x t).andThen fun x => (check l.y t).andThen fun y => (check l.z t).andThen fun z =>
  Ev.val ⟨x, y, z⟩

/-- What a CORDIC command comes to: the operand test, the iteration and the writeback checks (R210, R217). -/
def cordicLanes (c : Coord) (m : Mode) (rd rs1 rs2 : VName) (s : State) : Ev Lanes :=
  if s.cordicLegal c rd rs1 rs2 then
    checkLanes (runEngine c m (s.getV rd).t (s.lanes rd rs1 rs2)) (s.getV rd).t
  else illegal

/-- The writes of a CORDIC command: all three lanes with the tag t (R217). -/
def State.setLanes (s : State) (rd rs1 rs2 : VName) (t : Tag) (l : Lanes) : State :=
  ((s.setV rd l.x t).setV rs1 l.y t).setV rs2 l.z t

/-- A CORDIC command: `rsp <- x` (R217). -/
def State.cordic (s : State) (c : Coord) (m : Mode) (rd rs1 rs2 : VName) :
    Host.Outcome State Fault Refusal :=
  s.finish (cordicLanes c m rd rs1 rs2 s) (fun s' l => s'.setLanes rd rs1 rs2 (s.getV rd).t l)
    (fun l => dataOfInt l.x)

/-- CROTC rd, rs1, rs2 (R218). -/
def execCrotc (rd rs1 rs2 : VName) (s : State) : Host.Outcome State Fault Refusal :=
  s.cordic .circular .rotation rd rs1 rs2

/-- CROTH rd, rs1, rs2 (R219). -/
def execCroth (rd rs1 rs2 : VName) (s : State) : Host.Outcome State Fault Refusal :=
  s.cordic .hyperbolic .rotation rd rs1 rs2

/-- CVECC rd, rs1, rs2 (R220). -/
def execCvecc (rd rs1 rs2 : VName) (s : State) : Host.Outcome State Fault Refusal :=
  s.cordic .circular .vectoring rd rs1 rs2

/-- CVECH rd, rs1, rs2 (R221). -/
def execCvech (rd rs1 rs2 : VName) (s : State) : Host.Outcome State Fault Refusal :=
  s.cordic .hyperbolic .vectoring rd rs1 rs2

end Sys2Proof.Machine
end

