-- ==== Sys2Proof/Machine/Transfer.lean ====
section
/-! DEFINITION. The transfer, conversion and status commands (41_transfer.md R140 to R150). -/
namespace Sys2Proof.Machine

/-- NOP (R140). -/
def execNop (s : State) : Host.Outcome State Fault Refusal := s.finishR (Ev.val 0#64)

/-- The format word SETFMT loads: ILLEGAL if `data[63:32] != 0` or the word is not legal (R141, R26). -/
def formatOperand (d : Data) : Ev Word :=
  if (d.extractLsb' 32 32 == 0#32) && legalWord (d.extractLsb' 0 32) then Ev.val (d.extractLsb' 0 32)
  else illegal

/-- SETFMT fs, #word (R141). -/
def execSetfmt (fs : FName) (s : State) : Host.Outcome State Fault Refusal :=
  s.finish (formatOperand s.cmdData) (fun s' x => s'.setF fs x) (fun _ => 0#64)

/-- RDFMT fs (R142). -/
def execRdfmt (fs : FName) (s : State) : Host.Outcome State Fault Refusal :=
  s.finishR (Ev.val ((s.getF fs).setWidth 64))

/-- The value WRAP loads (R143). -/
def wrapValue (t : Tag) (d : Data) : Ev (Int × Tag) :=
  (check (dataInt t d) t).andThen fun r => Ev.val (r, t)

/-- WRAP rd, fs, #int (R143). -/
def execWrap (rd : VName) (fs : FName) (s : State) : Host.Outcome State Fault Refusal :=
  s.finishV rd (wrapValue (s.tagF fs) s.cmdData)

/-- The value FROMINT loads (R144). -/
def fromintValue (t : Tag) (d : Data) : Ev (Int × Tag) :=
  (fromInteger (dataInt t d) t).andThen fun r => Ev.val (r, t)

/-- FROMINT rd, fs, #int (R144). -/
def execFromint (rd : VName) (fs : FName) (s : State) : Host.Outcome State Fault Refusal :=
  s.finishV rd (fromintValue (s.tagF fs) s.cmdData)

/-- RDV rs1 (R145). -/
def execRdv (rs1 : VName) (s : State) : Host.Outcome State Fault Refusal :=
  s.finishR ((s.readV rs1).andThen fun x => Ev.val (dataOfInt x.1))

/-- RDTAG rs1 (R146). -/
def execRdtag (rs1 : VName) (s : State) : Host.Outcome State Fault Refusal :=
  s.finishR ((s.readV rs1).andThen fun x => Ev.val (x.2.toWord.setWidth 64))

/-- MOV rd, rs1 (R147): the value is copied unchecked. -/
def execMov (rd rs1 : VName) (s : State) : Host.Outcome State Fault Refusal := s.finishV rd (s.readV rs1)

/-- The value CVT makes (R148). -/
def cvtValue (x : Int × Tag) (d : Tag) : Ev (Int × Tag) :=
  (normalize x.1 x.2 d).andThen fun r => Ev.val (r, d)

/-- CVT rd, rs1, fs (R148). -/
def execCvt (rd rs1 : VName) (fs : FName) (s : State) : Host.Outcome State Fault Refusal :=
  s.finishV rd ((s.readV rs1).andThen fun x => cvtValue x (s.tagF fs))

/-- RDST (R149). -/
def execRdst (s : State) : Host.Outcome State Fault Refusal :=
  s.finishR (Ev.val (s.readStatus.setWidth 64))

/-- CLRST mask (R150). -/
def execClrst (mask : BitVec 6) (s : State) : Host.Outcome State Fault Refusal :=
  s.finish (Ev.val mask) (fun s' m => s'.clearStatus m) (fun _ => 0#64)

end Sys2Proof.Machine
end

