-- ==== Sys2Proof/Machine/Dispatch.lean ====
section
/-! DEFINITION. One arm for each instruction. -/
namespace Sys2Proof.Machine

def exec (i : Instr) (s : State) : Host.Outcome State Fault Refusal :=
  match i with
  -- transfer and conversion (41_transfer.md)
  | .nop => Sys2Proof.Machine.execNop s
  | .setfmt fs => Sys2Proof.Machine.execSetfmt fs s
  | .rdfmt fs => Sys2Proof.Machine.execRdfmt fs s
  | .wrap rd fs => Sys2Proof.Machine.execWrap rd fs s
  | .fromint rd fs => Sys2Proof.Machine.execFromint rd fs s
  | .rdv rs1 => Sys2Proof.Machine.execRdv rs1 s
  | .rdtag rs1 => Sys2Proof.Machine.execRdtag rs1 s
  | .mov rd rs1 => Sys2Proof.Machine.execMov rd rs1 s
  | .cvt rd rs1 fs => Sys2Proof.Machine.execCvt rd rs1 fs s
  -- arithmetic (42_arithmetic.md)
  | .add rd rs1 rs2 => Sys2Proof.Machine.execAdd rd rs1 rs2 s
  | .sub rd rs1 rs2 => Sys2Proof.Machine.execSub rd rs1 rs2 s
  | .mul rd rs1 rs2 => Sys2Proof.Machine.execMul rd rs1 rs2 s
  | .div rd rs1 rs2 => Sys2Proof.Machine.execDiv rd rs1 rs2 s
  | .neg rd rs1 => Sys2Proof.Machine.execNeg rd rs1 s
  | .adda rd rs2 => Sys2Proof.Machine.execAdda rd rs2 s
  | .suba rd rs2 => Sys2Proof.Machine.execSuba rd rs2 s
  | .mula rd rs2 => Sys2Proof.Machine.execMula rd rs2 s
  | .diva rd rs2 => Sys2Proof.Machine.execDiva rd rs2 s
  -- comparison (43_compare.md)
  | .cmpEq rs1 rs2 => Sys2Proof.Machine.execCmpEq rs1 rs2 s
  | .cmpNe rs1 rs2 => Sys2Proof.Machine.execCmpNe rs1 rs2 s
  | .cmpLt rs1 rs2 => Sys2Proof.Machine.execCmpLt rs1 rs2 s
  | .cmpLe rs1 rs2 => Sys2Proof.Machine.execCmpLe rs1 rs2 s
  | .cmpGt rs1 rs2 => Sys2Proof.Machine.execCmpGt rs1 rs2 s
  | .cmpGe rs1 rs2 => Sys2Proof.Machine.execCmpGe rs1 rs2 s
  -- the CORDIC engines (44_cordic.md)
  | .crotc rd rs1 rs2 => Sys2Proof.Machine.execCrotc rd rs1 rs2 s
  | .croth rd rs1 rs2 => Sys2Proof.Machine.execCroth rd rs1 rs2 s
  | .cvecc rd rs1 rs2 => Sys2Proof.Machine.execCvecc rd rs1 rs2 s
  | .cvech rd rs1 rs2 => Sys2Proof.Machine.execCvech rd rs1 rs2 s
  -- the tables (45_lut.md) and STATUS (41_transfer.md)
  | .lutrd rd fs kind imm => Sys2Proof.Machine.execLutrd rd fs kind imm s
  | .rdst => Sys2Proof.Machine.execRdst s
  | .clrst mask => Sys2Proof.Machine.execClrst mask s

end Sys2Proof.Machine
end

