-- ==== Sys2Proof/Machine/Issue.lean ====
section
/-! DEFINITION. How a command is accepted, decoded and performed, and the host's other moves
(10_state.md R41 to R43; 70_reset_and_hazards.md R290, R295, R296). -/
namespace Sys2Proof.Machine

/-- The latency of a CORDIC command: `len(schedule) + 1`, or 1 if it ends ILLEGAL (R224, R295). -/
def State.cordicLatency (s : State) (c : Coord) (rd rs1 rs2 : VName) : Nat :=
  if s.cordicLegal c rd rs1 rs2 then (schedule c (s.getV rd).t.f).length + 1 else 1

/-- The latency L of an instruction from the state it is accepted in (R295; informative). -/
def State.latencyOf (s : State) : Instr → Nat
  | .crotc rd rs1 rs2 | .cvecc rd rs1 rs2 => s.cordicLatency .circular rd rs1 rs2
  | .croth rd rs1 rs2 | .cvech rd rs1 rs2 => s.cordicLatency .hyperbolic rd rs1 rs2
  | .nop | .setfmt _ | .rdfmt _ | .wrap _ _ | .fromint _ _ | .rdv _ | .rdtag _ | .mov _ _ | .cvt _ _ _
  | .add _ _ _ | .sub _ _ _ | .mul _ _ _ | .div _ _ _ | .neg _ _ | .adda _ _ | .suba _ _ | .mula _ _
  | .diva _ _ | .cmpEq _ _ | .cmpNe _ _ | .cmpLt _ _ | .cmpLe _ _ | .cmpGt _ _ | .cmpGe _ _
  | .lutrd _ _ _ _ | .rdst | .clrst _ => 1

/-- The latency of a command word; a malformed word ends ILLEGAL in 1 cycle (R295). -/
def State.latency (s : State) (w : Word) : Nat :=
  match decode w with
  | .ok i => s.latencyOf i
  | .error _ => 1

/-- Accept a command (R41): sample `cmd` and `cmd_data`, set `busy`, and count the cycles left (R34). The
previous response's one cycle is over (R40). -/
def State.accept (s : State) (c : Command) : State :=
  { s with busy := true, cmd := c.cmd, cmdData := c.data, cyclesLeft := s.latency c.cmd, rspValid := false }

/-- Perform the sampled command (R43, R82, R83): decode its word and run the instruction; a malformed word
ends ILLEGAL with STATUS.ILL set and nothing else changed (R79). -/
def State.perform (s : State) : Host.Outcome State Fault Refusal :=
  match decode s.cmd with
  | .ok i => exec i s
  | .error _ => .next (s.abort ill .illegal)

/-- A cycle in which the host offers nothing: `rsp_valid` lasts exactly one cycle (R40, R296). -/
def State.idle (s : State) : State := { s with rspValid := false }

/-- All state in its reset value (R290, R291); the host's moves are not state of the block. -/
def State.toReset (s : State) : State := { State.reset with host := s.host }

/-- The host's remaining moves replaced. -/
def State.setHost (s : State) (h : List HostMove) : State := { s with host := h }

/-- Make the host's next move one that issues the command in bits `w`, numbered as the opcode table numbers
them: bits 31:0 the command word, bits 95:32 the data operand, bits from `nbits` on zero. No command is
left in flight, so that it is accepted at once. -/
def State.offerWord (s : State) (nbits w : Nat) : State :=
  { s with busy := false, cyclesLeft := 0,
           host := .issue ⟨BitVec.ofNat 32 (w % 2 ^ nbits), BitVec.ofNat 64 (w % 2 ^ nbits / 2 ^ 32)⟩ :: s.host }

/-- The command-level move of the machine (R43). A reset by the host comes first, in flight or not (R290). A
command in flight is brought to its response (log entry 5). Otherwise the host's next move is taken: a
command it issues is accepted and performed; on an idle move, or with no move left, nothing happens. -/
def State.advance (s : State) : Host.Outcome State Fault Refusal :=
  match s.host with
  | .reset :: rest => .next (s.setHost rest).toReset
  | .issue c :: rest => if s.busy then s.perform else ((s.setHost rest).accept c).perform
  | .idle :: rest => if s.busy then s.perform else .next (s.setHost rest).idle
  | [] => if s.busy then s.perform else .next s.idle

end Sys2Proof.Machine
end

