-- ==== Sys2Proof/Machine/Step.lean ====
section
/-! DEFINITION. One step of the machine, at the level of commands (10_state.md R43). -/
namespace Sys2Proof.Machine

/-- One step: the machine's next command-level move. -/
def step (s : State) : Host.Outcome State Fault Refusal := s.advance

/-- The state whose very next step runs the instruction in bits `w` (log entry 2). -/
def State.withFetchWord (s : State) (nbits w : Nat) : State := s.offerWord nbits w

end Sys2Proof.Machine
end

