-- ==== Sys2Proof/Machine/Assembler.lean ====
section
/-! DEFINITION. The pseudo-instructions and the assembler syntax (30_encoding.md R92, R93). -/
namespace Sys2Proof.Machine

/-- The pseudo-instructions (R93). -/
inductive Pseudo where
  | ldq (vD : VName) (fS : FName) (x : ℝ)
  | clrall
  | setq (fS : FName) (n f : Nat)

/-- The data operands LDQ tries for a stored integer r under tag t: r itself in 64 bits (R92); then a word that is
r modulo `2^W` and lies above the range of every W below 64; then the largest word of t's signedness. R93 names no
operand for an r outside 64 bits: DESIGN CHOICE, log entry 12. -/
def ldqCandidates (r : Int) (t : Tag) : List Data :=
  [dataOfInt r, dataOfInt (r % 2 ^ t.w.size + 2 ^ 62), dataOfInt (if t.s then 2 ^ 63 - 1 else 2 ^ 64 - 1)]

/-- The data operand of LDQ: the first candidate that WRAP checks as FROMREAL checks r, event and value alike, so
that WRAP raises the overflow itself (R93, R105). There is none only where no 64-bit word does that (log entry 12). -/
def ldqOperand (r : Int) (t : Tag) : Option Data :=
  (ldqCandidates r t).find? fun d => decide (check (dataInt t d) t = check r t)

/-- The command a pseudo-instruction stands for; `fd` gives the format words the registers will hold when it
runs (R93). SETQ of n and f that no native width holds stands for no command: D41 gives `Q<n,f>` the smallest
native W with `n + f + 1 <= W`, and R120 has none above 64. DESIGN CHOICE, log entry 18. -/
noncomputable def Pseudo.expand (fd : FFile) : Pseudo → Option Command
  | .ldq vD fS x =>
    (ldqOperand (fromRealV x (Tag.ofWord (fd.get fS))) (Tag.ofWord (fd.get fS))).map (⟨encode (.wrap vD fS), ·⟩)
  | .clrall => some ⟨encode (.clrst 0x3F#6), 0#64⟩
  | .setq fS n f =>
    if n + f + 1 ≤ Config.wmax then some ⟨encode (.setfmt fS), (qTag n f).toWord.setWidth 64⟩ else none

/-- The assembler name of a value register (R20, R92). -/
def VName.asm (v : VName) : String := "v" ++ toString v.bits.toNat

/-- The assembler name of a format register (R24, R92). -/
def FName.asm (f : FName) : String := "f" ++ toString f.bits.toNat

/-- The assembler name of a table kind (R92); a malformed kind is written as its number. -/
def kindAsm (sub : BitVec 3) : String :=
  match LutKind.ofSub sub with
  | some .atan => "ATAN"
  | some .atanh => "ATANH"
  | some .pow2 => "POW2"
  | some .ipow2 => "IPOW2"
  | some .kcirc => "KCIRC"
  | some .khyp => "KHYP"
  | none => toString sub.toNat

/-- The operands of an instruction in the order of R92; `d` is the data operand. -/
def operandsAsm (i : Instr) (d : Data) : List String :=
  match i with
  | .nop | .rdst => []
  | .setfmt fs => [FName.asm fs, "#" ++ toString d.toNat]
  | .rdfmt fs => [FName.asm fs]
  | .wrap rd fs | .fromint rd fs => [VName.asm rd, FName.asm fs, "#" ++ toString d.toInt]
  | .rdv rs1 | .rdtag rs1 => [VName.asm rs1]
  | .mov rd rs1 | .neg rd rs1 => [VName.asm rd, VName.asm rs1]
  | .cvt rd rs1 fs => [VName.asm rd, VName.asm rs1, FName.asm fs]
  | .add rd rs1 rs2 | .sub rd rs1 rs2 | .mul rd rs1 rs2 | .div rd rs1 rs2 | .crotc rd rs1 rs2
  | .croth rd rs1 rs2 | .cvecc rd rs1 rs2 | .cvech rd rs1 rs2 => [VName.asm rd, VName.asm rs1, VName.asm rs2]
  | .adda rd rs2 | .suba rd rs2 | .mula rd rs2 | .diva rd rs2 => [VName.asm rd, VName.asm rs2]
  | .cmpEq a b | .cmpNe a b | .cmpLt a b | .cmpLe a b | .cmpGt a b | .cmpGe a b => [VName.asm a, VName.asm b]
  | .lutrd rd fs kind imm => [VName.asm rd, FName.asm fs, kindAsm kind, toString imm.toNat]
  | .clrst mask => [toString mask.toNat]

/-- A command in assembler syntax: the mnemonic, then its operands separated by commas (R92). -/
def asm (i : Instr) (d : Data) : String :=
  match operandsAsm i d with
  | [] => i.mnemonic
  | ops => i.mnemonic ++ " " ++ String.intercalate ", " ops

end Sys2Proof.Machine
end

