-- ==== Sys2Proof/Machine/Clock.lean ====
section
/-! DEFINITION. The clock-edge view of the same state: the ports, the handshake, the cycles a command is in
flight, and the synchronous reset (10_state.md R34, R40 to R42; 70_reset_and_hazards.md R290, R294, R295).
`step` is one command; an edge is one clock. -/
namespace Sys2Proof.Machine

/-- The input ports in one cycle (R40). -/
structure Pins where
  rstN     : Bool
  cmdValid : Bool
  cmd      : Word
  cmdData  : Data
  deriving DecidableEq, Repr

/-- The output ports in one cycle (R40). -/
structure Outputs where
  cmdReady : Bool
  rspValid : Bool
  rspCode  : BitVec 3
  rspData  : Data
  deriving DecidableEq, Repr

/-- The number of a response code on `rsp_code` (R40, R260). -/
def Code.bits : Code → BitVec 3
  | .ok => 0#3
  | .overflow => 1#3
  | .underflow => 2#3
  | .domain => 3#3
  | .illegal => 4#3

/-- The outputs in a cycle (R40, R290): `cmd_ready = 1` iff `busy = 0` and not in reset; in a reset cycle
`rsp_valid = 0`. -/
def State.outputs (s : State) (p : Pins) : Outputs where
  cmdReady := p.rstN && !s.busy
  rspValid := p.rstN && s.rspValid
  rspCode := s.rspCode.bits
  rspData := s.rspData

/-- One cycle of a command in flight (R34, R42): on the last one its response is given and all its writes
appear together; before that no architectural state changes. -/
def State.flight (s : State) : Host.Outcome State Fault Refusal :=
  if s.cyclesLeft ≤ 1 then s.perform
  else .next { s with cyclesLeft := s.cyclesLeft - 1, rspValid := false }

/-- One rising edge of `clk`, with the ports as they stand in the cycle it ends (R290, R41, R42, R294). -/
def State.clockEdge (s : State) (p : Pins) : Host.Outcome State Fault Refusal :=
  if !p.rstN then .next s.toReset
  else if s.busy then s.flight
  else if p.cmdValid then (s.accept ⟨p.cmd, p.cmdData⟩).flight
  else .next s.idle

/-- The edges of a list of cycles, one after another. -/
def State.clockRun (s : State) : List Pins → Host.Outcome State Fault Refusal
  | [] => .next s
  | p :: ps =>
    match s.clockEdge p with
    | .next t => t.clockRun ps
    | .fault r => .fault r
    | .refused r => .refused r

end Sys2Proof.Machine
end

