-- ==== Sys2Proof/Machine/Run.lean ====
section
/-! DEFINITION. A run and its observation (70_reset_and_hazards.md R297; 20_memory.md R57). -/
namespace Sys2Proof.Machine

/-- A run from a state over a finite sequence of commands: the final state and the list of responses
`(rsp_code, rsp_data)`. An error response does not end the run (R297, R269). R297 does not say whether a launch state
may hold a command in flight; from such a state the run accepts its first command and drops the one in flight, without
a response. DESIGN CHOICE, log entry 19. -/
def State.runCommands (s : State) : List Command → Host.Outcome (State × List (Code × Data)) Fault Refusal
  | [] => .next (s, [])
  | c :: cs =>
    match (s.accept c).perform with
    | .fault r => .fault r
    | .refused r => .refused r
    | .next t =>
      match t.runCommands cs with
      | .next u => .next (u.1, (t.rspCode, t.rspData) :: u.2)
      | .fault r => .fault r
      | .refused r => .refused r

end Sys2Proof.Machine
end

