-- ==== Sys2Proof/Safety.lean ====
section
/-! DEFINITION. The terms the statements use: the invariant of the state, which registers and STATUS bits
each command may touch, and the exact real functions the tables round. -/
namespace Sys2Proof

open Sys2Proof.Machine

/-- The value registers each command's rule reads (R76, R261). -/
def Instr.sources : Instr → List VName
  | .nop | .setfmt _ | .rdfmt _ | .wrap _ _ | .fromint _ _ | .lutrd _ _ _ _ | .rdst | .clrst _ => []
  | .rdv rs1 | .rdtag rs1 | .mov _ rs1 | .cvt _ rs1 _ | .neg _ rs1 => [rs1]
  | .add _ rs1 rs2 | .sub _ rs1 rs2 | .mul _ rs1 rs2 | .div _ rs1 rs2 => [rs1, rs2]
  | .adda rd rs2 | .suba rd rs2 | .mula rd rs2 | .diva rd rs2 => [rd, rs2]
  | .cmpEq rs1 rs2 | .cmpNe rs1 rs2 | .cmpLt rs1 rs2 | .cmpLe rs1 rs2 | .cmpGt rs1 rs2
  | .cmpGe rs1 rs2 => [rs1, rs2]
  | .crotc rd rs1 rs2 | .croth rd rs1 rs2 | .cvecc rd rs1 rs2 | .cvech rd rs1 rs2 => [rd, rs1, rs2]

/-- The value registers each command's rule writes (R23). -/
def Instr.dests : Instr → List VName
  | .nop | .setfmt _ | .rdfmt _ | .rdv _ | .rdtag _ | .rdst | .clrst _ => []
  | .cmpEq _ _ | .cmpNe _ _ | .cmpLt _ _ | .cmpLe _ _ | .cmpGt _ _ | .cmpGe _ _ => []
  | .wrap rd _ | .fromint rd _ | .mov rd _ | .cvt rd _ _ | .neg rd _ | .lutrd rd _ _ _ => [rd]
  | .add rd _ _ | .sub rd _ _ | .mul rd _ _ | .div rd _ _ => [rd]
  | .adda rd _ | .suba rd _ | .mula rd _ | .diva rd _ => [rd]
  | .crotc rd rs1 rs2 | .croth rd rs1 rs2 | .cvecc rd rs1 rs2 | .cvech rd rs1 rs2 => [rd, rs1, rs2]

/-- The format registers a command writes: SETFMT alone writes one (R24). -/
def Instr.formatDests : Instr → List FName
  | .setfmt fs => [fs]
  | .nop | .rdfmt _ | .wrap _ _ | .fromint _ _ | .rdv _ | .rdtag _ | .mov _ _ | .cvt _ _ _ | .add _ _ _
  | .sub _ _ _ | .mul _ _ _ | .div _ _ _ | .neg _ _ | .adda _ _ | .suba _ _ | .mula _ _ | .diva _ _
  | .cmpEq _ _ | .cmpNe _ _ | .cmpLt _ _ | .cmpLe _ _ | .cmpGt _ _ | .cmpGe _ _ | .crotc _ _ _
  | .croth _ _ _ | .cvecc _ _ _ | .cvech _ _ _ | .lutrd _ _ _ _ | .rdst | .clrst _ => []

/-- The STATUS bits a command may change: the "Flags" line of its rule (R140 to R150, R171 to R179, R200,
R218 to R221, R244), and ILL where its responses list ILLEGAL for an operand (R261). -/
def Instr.statusBits : Instr → Word
  | .nop | .rdfmt _ | .rdst => 0#32
  | .setfmt _ | .rdv _ | .rdtag _ | .mov _ _ => ill
  | .wrap _ _ | .fromint _ _ => ovf
  | .cvt _ _ _ | .add _ _ _ | .sub _ _ _ | .adda _ _ | .suba _ _ => ovf ||| unf ||| ill
  | .mul _ _ _ | .mula _ _ => ovf ||| unf ||| apx ||| ill
  | .div _ _ _ | .diva _ _ => ovf ||| unf ||| apx ||| dom ||| ill
  | .neg _ _ | .crotc _ _ _ | .croth _ _ _ | .cvecc _ _ _ | .cvech _ _ _ | .lutrd _ _ _ _ => ovf ||| ill
  | .cmpEq _ _ | .cmpNe _ _ | .cmpLt _ _ | .cmpLe _ _ | .cmpGt _ _ | .cmpGe _ _ =>
    ovf ||| unf ||| ill ||| cmpBit
  | .clrst mask => mask.setWidth 32

/-- The response codes a command may end with, once its word has decoded: the "Responses" line of its rule,
less the ILLEGAL of a malformed word (R262 to R264). -/
def Instr.codes : Instr → List Code
  | .nop | .rdfmt _ | .rdst | .clrst _ => [.ok]
  | .setfmt _ | .rdv _ | .rdtag _ | .mov _ _ => [.ok, .illegal]
  | .wrap _ _ | .fromint _ _ => [.ok, .overflow]
  | .cvt _ _ _ | .add _ _ _ | .sub _ _ _ | .mul _ _ _ | .adda _ _ | .suba _ _ | .mula _ _ =>
    [.ok, .overflow, .underflow, .illegal]
  | .div _ _ _ | .diva _ _ => [.ok, .overflow, .underflow, .domain, .illegal]
  | .neg _ _ | .crotc _ _ _ | .croth _ _ _ | .cvecc _ _ _ | .cvech _ _ _ | .lutrd _ _ _ _ =>
    [.ok, .overflow, .illegal]
  | .cmpEq _ _ | .cmpNe _ _ | .cmpLt _ _ | .cmpLe _ _ | .cmpGt _ _ | .cmpGe _ _ =>
    [.ok, .overflow, .underflow, .illegal]

end Sys2Proof

namespace Sys2Proof.Machine

/-- R22 for one register: if it is valid, its tag is legal, its stored integer fits W bits, and it lies in
the range of the format under an OP = THROW tag. -/
def VReg.Ok (r : VReg) : Prop :=
  r.valid = true → r.t.legal = true ∧ fitsWidth r.v r.t = true ∧ (r.t.op = .throw → inRange r.v r.t = true)

/-- The invariant of the state: R22 for every value register, every format word legal (R24), and the reserved
bits of STATUS zero (R27). -/
def State.Inv (s : State) : Prop :=
  (∀ i, (s.getV i).Ok) ∧ (∀ j, legalWord (s.getF j) = true) ∧ s.status &&& ~~~statusMask = 0#32

/-- The frame of a command: what it leaves unchanged. Every value register but its destinations, every format
register but SETFMT's, every STATUS bit but those its rule names, the sampled command and the host. -/
def Frame (i : Instr) (s t : State) : Prop :=
  (∀ r, r ∉ i.dests → t.getV r = s.getV r) ∧ (∀ j, j ∉ i.formatDests → t.getF j = s.getF j) ∧
  t.status &&& ~~~i.statusBits = s.status &&& ~~~i.statusBits ∧
  t.cmd = s.cmd ∧ t.cmdData = s.cmdData ∧ t.host = s.host

/-- The architectural state of a run's observation: `(V[0..7], FD[0..3], STATUS)` (R297). -/
def SameArch (s t : State) : Prop := s.vregs = t.vregs ∧ s.fds = t.fds ∧ s.status = t.status

/-- Two value registers a command cannot tell apart: equal, or both invalid (R21, R291). -/
def VReg.Alike (x y : VReg) : Prop := x.valid = y.valid ∧ (x.valid = true → x = y)

/-- Two states a command cannot tell apart: equal but for the contents of invalid value registers (R291). -/
def State.Alike (s t : State) : Prop :=
  (∀ i, (s.getV i).Alike (t.getV i)) ∧ t = { s with vregs := t.vregs }

/-- The bits of STATUS that an event sets and only CLRST clears: 0 to 4 (R27). -/
def stickyMask : Word := 0x1F#32

/-- The STATUS bit of an error code (R260). -/
def Code.statusBit : Code → Word
  | .ok => 0#32
  | .overflow => ovf
  | .underflow => unf
  | .domain => dom
  | .illegal => ill

/-- The sequence REP of R212: `r_1 = 4`, `r_(j+1) = 3 r_j + 1`, counted from 0. -/
def repShift : Nat → Nat
  | 0 => 4
  | j + 1 => 3 * repShift j + 1

/-- `L(kind, i, F)`, the exact real value of a table entry (R241). -/
noncomputable def lutReal (kind : LutKind) (i f : ℕ) : ℝ :=
  match kind with
  | .atan => Real.arctan ((1 / 2) ^ i)
  | .atanh => Real.artanh ((1 / 2) ^ (i + 1))
  | .pow2 => (2 : ℝ) ^ ((1 / 2 : ℝ) ^ i)
  | .ipow2 => (2 : ℝ) ^ (-(1 / 2 : ℝ) ^ i)
  | .kcirc => ∏ k ∈ Finset.range f, (1 + (1 / 4 : ℝ) ^ k) ^ (-(1 / 2 : ℝ))
  | .khyp => ((hyperbolicSchedule f).map fun k => (1 - (1 / 4 : ℝ) ^ k) ^ (-(1 / 2 : ℝ))).prod

end Sys2Proof.Machine
end

