-- ==== Sys2Proof/Certificates/Slice0/Obligations.lean ====
section
/-! DEFINITION. The statements for the provers. Each docstring names the rule of spec/ it formalises. -/

open Sys2Proof Sys2Proof.Machine

/-! ## Encoding (30_encoding.md) -/

/-- Decoding the command word of an instruction gives the instruction back, with every operand at every value
its field admits (R71, R72, R76, R77). -/
def Obligations.DecodeOfEncodeIsIdentity : Prop :=
  ∀ i : Instr, decode (encode i) = .ok i

/-- A word that decodes is the word of the instruction it decodes to: no bit of it is dropped (R71, R79). -/
def Obligations.EncodeOfDecodeIsIdentity : Prop :=
  ∀ (w : Word) (i : Instr), decode w = .ok i → encode i = w

/-- R83: a row of the opcode table covers a word exactly when the word decodes to an instruction of that row. -/
def Obligations.DecoderReadsTheOpcodeTable : Prop :=
  ∀ (w : Word) (r : Row), r ∈ opcodeRows →
    (r.covers w = true ↔ ∃ i, decode w = .ok i ∧ i.mnemonic = r.mnemonic)

/-- R80: exactly the 38 listed OPC values are undefined, and a command with one ends ILLEGAL. -/
def Obligations.UndefinedOpcodesEndIllegal : Prop :=
  ∀ w : Word,
    (decode w = .error .undefinedOpcode ↔
      (w.extractLsb' 26 6).toNat ∈ [0x09, 0x0A, 0x0B, 0x0C, 0x0D, 0x0E, 0x0F, 0x15, 0x16, 0x17, 0x1C, 0x1D,
        0x1E, 0x1F, 0x21, 0x22, 0x23, 0x24, 0x25, 0x26, 0x27, 0x2C, 0x2D, 0x2E, 0x2F, 0x31, 0x32, 0x33, 0x34,
        0x35, 0x36, 0x37, 0x3A, 0x3B, 0x3C, 0x3D, 0x3E, 0x3F]) ∧
    ∀ (s : State) (d : Data), decode w = .error .undefinedOpcode →
      (s.accept ⟨w, d⟩).perform = .next ((s.accept ⟨w, d⟩).abort ill .illegal)

/-- R79: every word that is not well-formed ends ILLEGAL with STATUS.ILL set and nothing else changed, whether
the decoder rejects it or its LUTRD kind is undefined. -/
def Obligations.MalformedWordsEndIllegal : Prop :=
  ∀ (s : State) (w : Word) (d : Data),
    (∀ i, decode w = .ok i → i.wellFormed = false) →
    ∃ t, (s.accept ⟨w, d⟩).perform = .next t ∧ t.rspCode = .illegal ∧ t.rspData = 0#64 ∧
      t.vregs = s.vregs ∧ t.fds = s.fds ∧ t.status = s.status ||| ill ∧ t.index = s.index + 1

/-- Words written out from R71 and R76 decode to the instructions they stand for: one of each family
(95_test_vectors.md L2). -/
def Obligations.SampleWordsDecode : Prop :=
  decode 0x0C808000#32 = .ok (.wrap .v1 .f1) ∧ decode 0x41020000#32 = .ok (.add .v2 .v0 .v1) ∧
  decode 0x620A0000#32 = .ok (.adda .v4 .v5) ∧ decode 0x80262000#32 = .ok (.cmpLt .v2 .v3) ∧
  decode 0xA8140000#32 = .ok (.cvecc .v0 .v1 .v2) ∧ decode 0xC1815000#32 = .ok (.lutrd .v3 .f2 5#3 0#12) ∧
  decode 0xE400003F#32 = .ok (.clrst 0x3F#6) ∧ decode 0x14800000#32 = .error .unusedField ∧
  decode 0x80026000#32 = .error .cmpCondition ∧ decode 0xE4000040#32 = .error .clrstMask

/-! ## The machine (10_state.md, 20_memory.md, 60_exceptions.md, 70_reset_and_hazards.md) -/

/-- A step runs the decoded instruction (R41, R43): when no command is in flight and the host's next move
issues a command whose word decodes to i, the step is `exec i` of the state that has accepted the command,
with the host's other moves left. -/
def Obligations.StepRunsTheDecodedInstruction : Prop :=
  ∀ (s : State) (c : Command) (rest : List HostMove) (i : Instr),
    s.busy = false → s.host = .issue c :: rest → decode c.cmd = .ok i →
    step s = exec i ((s.setHost rest).accept c) ∧
    SameArch ((s.setHost rest).accept c) s ∧ ((s.setHost rest).accept c).cmdData = c.data

/-- What a step does when the host issues nothing (R40, R290, R291): it waits, or it is reset, in flight or not;
and a command in flight is performed (the model's convention, log entry 5). That an idle step keeps `rsp_code` and
`rsp_data`, that a reset keeps the host's moves, and the values State.reset names where the spec gives none are the
model's choices too (log entries 3, 4, 6, 16). -/
def Obligations.StepWithoutANewCommand : Prop :=
  ∀ (s : State) (rest : List HostMove),
    (s.busy = false → s.host = [] → step s = .next { s with rspValid := false }) ∧
    (s.busy = false → s.host = .idle :: rest → step s = .next { s with rspValid := false, host := rest }) ∧
    (s.host = .reset :: rest → step s = .next { State.reset with host := rest }) ∧
    (s.busy = true → (∀ r, s.host ≠ .reset :: r) → step s = s.perform)

/-- R290, R291: in every cycle with `rst_n = 0` the block holds `cmd_ready = 0` and `rsp_valid = 0` and puts all state
in its reset value, a command in flight being abandoned; in the next cycle with `rst_n = 1`, `cmd_ready = 1`.
Nothing is said of the contents of the value registers. -/
def Obligations.ResetPutsAllStateInItsResetValue : Prop :=
  ∀ (s : State) (p : Pins), p.rstN = false →
    (s.outputs p).cmdReady = false ∧ (s.outputs p).rspValid = false ∧
    ∃ t, s.clockEdge p = .next t ∧
      (∀ i, (t.getV i).valid = false) ∧
      (∀ j, t.getF j = 0x0140080F#32 ∧ legalWord (t.getF j) = true ∧
        t.tagF j = ⟨.w32, true, 15, 16, 0, .throw, .throw⟩) ∧
      t.status = 0#32 ∧ t.busy = false ∧ t.cyclesLeft = 0 ∧ t.index = 0 ∧ t.host = s.host ∧
      (∀ q : Pins, q.rstN = true → (t.outputs q).cmdReady = true ∧ (t.outputs q).rspValid = false) ∧
      ∀ rest, s.host = .reset :: rest → step s = .next (t.setHost rest)

/-- The invariant holds after reset (R22, R24, R27, R291). -/
def Obligations.ResetMeetsTheInvariant : Prop := State.reset.Inv

/-- R22, R24, R27: every step keeps the invariant, from every state that has it: legal tags, stored integers
that fit W and, under THROW, the format's range; legal format words; reserved STATUS bits zero. -/
def Obligations.StepKeepsTheInvariant : Prop :=
  ∀ s t : State, s.Inv → step s = .next t → t.Inv

/-- R43, R42, R32: every step is a total transition, and every instruction answers with exactly one response:
`rsp_valid` is 1, `busy` is 0 and the command index has advanced by 1. -/
def Obligations.EveryCommandGetsOneResponse : Prop :=
  (∀ s : State, ∃ t, step s = .next t) ∧
  ∀ (i : Instr) (s : State), ∃ t, exec i s = .next t ∧ t.rspValid = true ∧ t.busy = false ∧
    t.cyclesLeft = 0 ∧ t.index = s.index + 1

/-- R266, R267: a command that ends with any code other than OK writes no value register and no format register,
not even a CORDIC lane, and not STATUS.CMP; sticky bits stay set, the bit of the ending code among them;
`rsp_data = 0`; and the sequence advances. -/
def Obligations.ErrorsArePrecise : Prop :=
  ∀ s t : State, s.perform = .next t → t.rspCode ≠ .ok →
    t.vregs = s.vregs ∧ t.fds = s.fds ∧ t.status &&& ~~~stickyMask = s.status &&& ~~~stickyMask ∧
    s.status &&& stickyMask &&& ~~~t.status = 0#32 ∧ t.rspCode.statusBit &&& ~~~t.status = 0#32 ∧
    t.rspData = 0#64 ∧ t.index = s.index + 1

/-- R27: bits 0 to 4 of STATUS are sticky: no command but CLRST clears one, however it ends. -/
def Obligations.StickyBitsOnlyClearedByClrst : Prop :=
  ∀ (i : Instr) (s t : State), (∀ m, i ≠ .clrst m) → exec i s = .next t →
    s.status &&& stickyMask &&& ~~~t.status = 0#32

/-- R23: a value register changes only by a command that completes with OK and names it as a destination, and no
command invalidates a register: of all steps, only a reset by the host clears `valid`. -/
def Obligations.ValueRegistersChangeOnlyOnOk : Prop :=
  (∀ (i : Instr) (s t : State) (r : VName), exec i s = .next t →
    (t.getV r ≠ s.getV r → t.rspCode = .ok ∧ r ∈ i.dests)) ∧
  ∀ (s t : State) (r : VName), (∀ rest, s.host ≠ .reset :: rest) → step s = .next t →
    ((s.getV r).valid = true → (t.getV r).valid = true) ∧
    (t.getV r ≠ s.getV r → t.rspValid = true ∧ t.rspCode = .ok)

/-- R260, R263, R264: each instruction ends only with the response codes its rule lists. -/
def Obligations.ResponseCodesAreTheListedOnes : Prop :=
  ∀ (i : Instr) (s t : State), exec i s = .next t → t.rspCode ∈ i.codes

/-- R262: DOMAIN is the response exactly of DIV and DIVA with both operands valid and a zero divisor, whatever the
policies are; STATUS.DOM is set. -/
def Obligations.DomainIsExactlyAZeroDivisor : Prop :=
  ∀ (i : Instr) (s t : State), exec i s = .next t →
    (t.rspCode = .domain ↔ ∃ l r, ((∃ rd, i = .div rd l r) ∨ i = .diva l r) ∧
      (s.getV l).valid = true ∧ (s.getV r).valid = true ∧ (s.getV r).v = 0) ∧
    (t.rspCode = .domain → t = s.abort dom .domain)

/-- R261: a command that reads an invalid value register ends ILLEGAL, with STATUS.ILL set and nothing else
changed, whatever its other operands are. -/
def Obligations.InvalidSourceEndsIllegal : Prop :=
  ∀ (i : Instr) (s : State) (r : VName), r ∈ i.sources → (s.getV r).valid = false →
    exec i s = .next (s.abort ill .illegal)

/-- R21, R291: the contents of an invalid register are unobservable. Two states that differ only in them give
every command the same response and the same STATUS, and differ only in them afterwards. -/
def Obligations.InvalidContentsAreUnobservable : Prop :=
  ∀ (i : Instr) (s t s' t' : State), s.Alike t → exec i s = .next s' → exec i t = .next t' → s'.Alike t'

/-- R70: every command but SETFMT, WRAP and FROMINT ignores its data operand. -/
def Obligations.OtherCommandsIgnoreTheDataOperand : Prop :=
  ∀ (i : Instr) (s t : State) (d : Data), (∀ fs, i ≠ .setfmt fs) → (∀ rd fs, i ≠ .wrap rd fs) →
    (∀ rd fs, i ≠ .fromint rd fs) → exec i s = .next t →
    exec i { s with cmdData := d } = .next { t with cmdData := d }

/-- R54: NOP, RDFMT, RDV, RDTAG and RDST have no side effect when they complete with OK, and issuing one again
gives the same response. -/
def Obligations.ReadCommandsAreIdempotent : Prop :=
  ∀ (i : Instr) (s t : State),
    (i = .nop ∨ (∃ fs, i = .rdfmt fs) ∨ (∃ r, i = .rdv r) ∨ (∃ r, i = .rdtag r) ∨ i = .rdst) →
    exec i s = .next t → t.rspCode = .ok →
    SameArch s t ∧ ∃ u, exec i t = .next u ∧ SameArch s u ∧ u.rspCode = .ok ∧ u.rspData = t.rspData

/-- R57, R297: a run over one list of commands and then another is the run over both, and it gives one response for
each command, errors included. A launch state with a command in flight is taken as log entry 19 says. -/
def Obligations.RunsComposeSequentially : Prop :=
  ∀ (s : State) (cs ds : List Command), ∃ t u rs qs,
    s.runCommands cs = .next (t, rs) ∧ t.runCommands ds = .next (u, qs) ∧
    s.runCommands (cs ++ ds) = .next (u, rs ++ qs) ∧ rs.length = cs.length ∧
    t.index = s.index + cs.length

/-- R34: while a command is in flight and its response is not due, an edge changes no architectural state, gives no
response and accepts no command. -/
def Obligations.NothingChangesInFlight : Prop :=
  ∀ (s : State) (p : Pins), s.busy = true → 1 < s.cyclesLeft → p.rstN = true →
    (s.outputs p).cmdReady = false ∧
    ∃ t, s.clockEdge p = .next t ∧ SameArch s t ∧ t.index = s.index ∧ t.busy = true ∧ t.rspValid = false ∧
      t.cmd = s.cmd ∧ t.cmdData = s.cmdData ∧ t.cyclesLeft + 1 = s.cyclesLeft

/-- R41, R42, R43, R295: the clock-edge view does what a step does. A command offered to an idle block is given its
response after exactly its latency in edges, whatever the host drives on the channel meanwhile, and the state
then is the one a command-level step of it gives. It rests on the model's choices of log entries 1 (a step and the
clock-edge view beside it), 2 (the host's moves in State), 10 (the latency fixed at acceptance) and 11 (a host that
changes the channel while it waits). -/
def Obligations.ClockEdgesRefineTheStep : Prop :=
  ∀ (s : State) (c : Command) (ps : List Pins), s.busy = false →
    (∀ p ∈ ps, p.rstN = true) → ps.length + 1 = s.latency c.cmd →
    s.clockRun (⟨true, true, c.cmd, c.data⟩ :: ps) = step { s with host := .issue c :: s.host }

/-- R23, R24, R27 and the "Flags" line of every rule: what each command leaves unchanged. Every value register but its
destinations, every format register but SETFMT's, every STATUS bit but those its rule names, the sampled command and
the host. -/
def Obligations.EveryCommandKeepsItsFrame : Prop :=
  ∀ (i : Instr) (s t : State), exec i s = .next t → Frame i s t

/-! ## Numeric primitives (40_numeric_primitives.md) -/

/-- R103: `wrap_W` keeps the residue modulo `2^W` and lands in the W-bit range of its signedness. -/
def Obligations.WrapKeepsTheResidue : Prop :=
  ∀ (w : Nat) (v : Int), 1 ≤ w →
    (wrapW w false v = v % 2 ^ w) ∧
    (wrapW w true v = if v % 2 ^ w ≥ 2 ^ (w - 1) then v % 2 ^ w - 2 ^ w else v % 2 ^ w) ∧
    (0 ≤ wrapW w false v ∧ wrapW w false v < 2 ^ w) ∧
    (-2 ^ (w - 1) ≤ wrapW w true v ∧ wrapW w true v < 2 ^ (w - 1)) ∧
    ∀ sg, (wrapW w sg v) % 2 ^ w = v % 2 ^ w

/-- R104: RHA goes to a nearest integer, a tie away from zero; the integer form the commands use is RHA of the
rational `k * 2^p`; and the RHA of reals, which FROMREAL uses (R105), rounds so as well. -/
def Obligations.RhaRoundsHalfAway : Prop :=
  (∀ q : ℚ, |(rha q : ℚ) - q| ≤ 1 / 2 ∧ (|(rha q : ℚ) - q| = 1 / 2 → |q| < |(rha q : ℚ)|) ∧
    rha q = if 0 ≤ q then ⌊q + 1 / 2⌋ else ⌈q - 1 / 2⌉) ∧
  (∀ (k p : Int), scaleRound k p = rha ((k : ℚ) * 2 ^ p)) ∧
  ∀ x : ℝ, |(rhaReal x : ℝ) - x| ≤ 1 / 2 ∧ (|(rhaReal x : ℝ) - x| = 1 / 2 → |x| < |(rhaReal x : ℝ)|) ∧
    rhaReal x = if 0 ≤ x then ⌊x + 1 / 2⌋ else ⌈x - 1 / 2⌉

/-- R111: `Check` returns a value in range with no event; otherwise OVF is set, and it raises OVERFLOW under THROW or
goes on with the wrapped value under IGNORE. -/
def Obligations.CheckDetectsOverflow : Prop :=
  ∀ (r : Int) (t : Tag),
    (least t ≤ r → r ≤ largest t → check r t = Ev.val r) ∧
    (r < least t ∨ largest t < r → t.op = .throw → check r t = Ev.raise ovf .overflow) ∧
    (r < least t ∨ largest t < r → t.op = .ignore → check r t = ⟨ovf, .ok (wrapW t.w.size t.s r)⟩)

/-- R112, R113: `Normalize` is the floor of the rescaled value; it underflows exactly when a nonzero value becomes 0,
and then it cannot overflow. -/
def Obligations.NormalizeFloorsAndDetects : Prop :=
  ∀ (v : Int) (a d : Tag),
    rescale v a d = ⌊(v : ℚ) * 2 ^ (d.point - a.point)⌋ ∧
    (v ≠ 0 ∧ rescale v a d = 0 → d.up = .throw → normalize v a d = Ev.raise unf .underflow) ∧
    (v ≠ 0 ∧ rescale v a d = 0 → d.up = .ignore → normalize v a d = ⟨unf, .ok 0⟩) ∧
    (¬ (v ≠ 0 ∧ rescale v a d = 0) → normalize v a d = check (rescale v a d) d)

/-- R121, R122: a promotion of two legal tags is a legal tag; it is signed if either operand is, or it is the left
operand's tag; and it carries the left operand's policies. -/
def Obligations.PromotionsAreLegal : Prop :=
  ∀ (a b : Tag) (p : Tag × Bool), a.legal = true → b.legal = true →
    p = sumTag a b ∨ p = prodTag a b ∨ p = quotTag a b →
    p.1.legal = true ∧ (p.2 = true → p.1.s = (a.s || b.s)) ∧ (p.2 = false → p.1 = a) ∧
      p.1.op = a.op ∧ p.1.up = a.up

/-- R127: the expandable product is exact, whatever the operands are; and for in-range operands its only overflow is
the product of two most-negative signed values. -/
def Obligations.ExactProductHasNoError : Prop :=
  ∀ (a b : Tag) (A B : Int), (prodTag a b).2 = true →
    val (A * B) (prodTag a b).1 = val A a * val B b ∧
    (inRange A a = true → inRange B b = true →
      (inRange (A * B) (prodTag a b).1 = false ↔
        a.s = true ∧ b.s = true ∧ A = -2 ^ (a.n + a.f) ∧ B = -2 ^ (b.n + b.f)))

/-- R129: the expandable quotient is within one ulp, truncated toward zero; a nonzero dividend never gives 0; and for
in-range operands its only overflow is `least(a) / -1`. -/
def Obligations.ExactQuotientWithinOneUlp : Prop :=
  ∀ (a b : Tag) (A B : Int), (quotTag a b).2 = true → inRange A a = true → inRange B b = true → B ≠ 0 →
    |val ((shl A (b.n + b.f)).tdiv B) (quotTag a b).1 - val A a / val B b| < precision (quotTag a b).1 ∧
    |val ((shl A (b.n + b.f)).tdiv B) (quotTag a b).1| ≤ |val A a / val B b| ∧
    (A ≠ 0 → (shl A (b.n + b.f)).tdiv B ≠ 0) ∧
    (inRange ((shl A (b.n + b.f)).tdiv B) (quotTag a b).1 = false ↔
      a.s = true ∧ b.s = true ∧ A = -2 ^ (a.n + a.f) ∧ B = -1)

/-- R126: with `t = min(max(excess, 0), b.F)` bits of b's fraction dropped, the fallback product is `A * asr(B, t)` at
the point of a; it differs from the exact product by less than `|val(A,a)| * 2^(t - P(b)) + 2^-P(a)`. -/
def Obligations.FallbackProductErrorBound : Prop :=
  ∀ (A B t prod sh : Int) (a b : Tag),
    t = min (max ((a.n + b.n : Int) + (a.f + b.f) + (if a.s || b.s then 1 else 0) - 64) 0) b.f →
    prod = A * ⌊(B : ℚ) / 2 ^ t⌋ → sh = b.f + b.e - t →
    mulApprox A a B b = (if 0 ≤ sh then ⌊(prod : ℚ) / 2 ^ sh⌋ else prod * 2 ^ (-sh).toNat) ∧
    |val (mulApprox A a B b) a - val A a * val B b| < |val A a| * 2 ^ (t - b.point) + 2 ^ (-a.point)

/-- R128: with both operands shifted right by `u = min(max(need, 0), b.F, bitlen(|B|) - 1)` bits, the fallback quotient
never divides by zero, and it is `(A2 * 2^P(b)) / B2` truncated toward zero; where `need <= 0` nothing is dropped. -/
def Obligations.FallbackQuotientIsTruncated : Prop :=
  ∀ (A B need u A2 B2 : Int) (a b : Tag) (q : ℚ), B ≠ 0 →
    need = (a.n : Int) + a.f + (if a.s || b.s then 1 else 0) + max ((b.f : Int) + b.e) 0 - 64 →
    u = min (min (max need 0) b.f) ((Nat.log 2 B.natAbs + 1 : Int) - 1) →
    A2 = ⌊(A : ℚ) / 2 ^ u⌋ → B2 = ⌊(B : ℚ) / 2 ^ u⌋ → q = (A2 : ℚ) * 2 ^ ((b.f : Int) + b.e) / B2 →
    B2 ≠ 0 ∧ divApprox A a B b = (if 0 ≤ q then ⌊q⌋ else ⌈q⌉) ∧ (need ≤ 0 → u = 0)

/-! ## Transfer, conversion and status (41_transfer.md) -/

/-- R140, R142, R149, R150: NOP, RDFMT, RDST and CLRST complete from every state. That RDST masks the reserved bits in
every state rests on R27, which says that they read 0 (DEDUCED, log entry 15). -/
def Obligations.StatelessCommandsComplete : Prop :=
  ∀ (s : State) (fs : FName) (m : BitVec 6),
    exec .nop s = .next (s.respond .ok 0#64) ∧
    exec (.rdfmt fs) s = .next (s.respond .ok ((s.getF fs).setWidth 64)) ∧
    exec .rdst s = .next (s.respond .ok ((s.status &&& 0x3F#32).setWidth 64)) ∧
    ∃ t : State, exec (.clrst m) s = .next (t.respond .ok 0#64) ∧ t = { s with status := t.status } ∧
      ∀ k : Nat, t.status.getLsbD k = (s.status.getLsbD k && !(decide (k < 6) && m.getLsbD k))

/-- R141, R26: SETFMT writes the format register from a legal format word with `data[63:32] = 0`, and ends ILLEGAL on
any other data. -/
def Obligations.SetfmtWritesLegalWords : Prop :=
  ∀ (s : State) (fs : FName),
    (∀ w : Word, s.cmdData = w.setWidth 64 → w.extractLsb' 27 5 = 0#5 →
      ((Tag.ofWord w).n + (Tag.ofWord w).f + (Tag.ofWord w).sBits ≤ (Tag.ofWord w).w.size) →
      1 ≤ (Tag.ofWord w).n + (Tag.ofWord w).f →
      exec (.setfmt fs) s = .next ((s.setF fs w).respond .ok 0#64)) ∧
    (¬ (s.cmdData.extractLsb' 32 32 = 0#32 ∧ legalWord (s.cmdData.extractLsb' 0 32) = true) →
      exec (.setfmt fs) s = .next (s.abort ill .illegal))

/-- R143: WRAP loads a raw stored integer that is in range, whole and untruncated, and an integer out of range
overflows under THROW and is wrapped under IGNORE. -/
def Obligations.WrapLoadsRawIntegers : Prop :=
  ∀ (s : State) (rd : VName) (fs : FName) (t : Tag) (k : Int),
    t = s.tagF fs → k = (if t.s then s.cmdData.toInt else (s.cmdData.toNat : Int)) →
    (inRange k t = true → exec (.wrap rd fs) s = .next ((s.setV rd k t).respond .ok (BitVec.ofInt 64 k))) ∧
    (inRange k t = false → t.op = .throw → exec (.wrap rd fs) s = .next (s.abort ovf .overflow)) ∧
    (inRange k t = false → t.op = .ignore → exec (.wrap rd fs) s =
      .next (((s.raiseFlags ovf).setV rd (wrapW t.w.size t.s k) t).respond .ok
        (BitVec.ofInt 64 (wrapW t.w.size t.s k))))

/-- R144: FROMINT loads `RHA(k * 2^P)`, the exact left shift for `P >= 0`, checked against the format: the FROMREAL of
the integer (R105). -/
def Obligations.FromintScalesIntegers : Prop :=
  ∀ (s : State) (rd : VName) (fs : FName) (t : Tag) (k r : Int),
    t = s.tagF fs → k = (if t.s then s.cmdData.toInt else (s.cmdData.toNat : Int)) →
    r = rha ((k : ℚ) * 2 ^ t.point) →
    (0 ≤ t.point → r = k * 2 ^ t.point.toNat) ∧ fromReal (k : ℝ) t = check r t ∧
    (inRange r t = true → exec (.fromint rd fs) s = .next ((s.setV rd r t).respond .ok (BitVec.ofInt 64 r))) ∧
    (inRange r t = false → t.op = .throw → exec (.fromint rd fs) s = .next (s.abort ovf .overflow)) ∧
    (inRange r t = false → t.op = .ignore → exec (.fromint rd fs) s =
      .next (((s.raiseFlags ovf).setV rd (wrapW t.w.size t.s r) t).respond .ok
        (BitVec.ofInt 64 (wrapW t.w.size t.s r))))

/-- R145, R146, R147: RDV, RDTAG and MOV of a valid register. R25: the places of a tag's fields in the word RDTAG
returns, and of a word's fields in the tag a reader recovers, which is the same tag where it is legal. -/
def Obligations.RegisterReadsComplete : Prop :=
  (∀ (s : State) (rd rs1 : VName) (v : Int) (t : Tag), s.getV rs1 = ⟨true, v, t⟩ →
    exec (.rdv rs1) s = .next (s.respond .ok (BitVec.ofInt 64 v)) ∧
    exec (.rdtag rs1) s = .next (s.respond .ok (t.toWord.setWidth 64)) ∧
    exec (.mov rd rs1) s = .next ((s.setV rd v t).respond .ok (BitVec.ofInt 64 v))) ∧
  (∀ t : Tag, t.legal = true →
    (t.toWord.extractLsb' 0 7).toNat = t.n ∧ (t.toWord.extractLsb' 7 7).toNat = t.f ∧
    (t.toWord.extractLsb' 14 8).toInt = t.e ∧ t.toWord.getLsbD 22 = t.s ∧
    8 * 2 ^ (t.toWord.extractLsb' 23 2).toNat = t.w.size ∧
    (t.toWord.getLsbD 25 = true ↔ t.op = .ignore) ∧ (t.toWord.getLsbD 26 = true ↔ t.up = .ignore) ∧
    t.toWord.extractLsb' 27 5 = 0#5 ∧ Tag.ofWord t.toWord = t ∧ legalWord t.toWord = true) ∧
  ∀ w : Word,
    (Tag.ofWord w).n = (w.extractLsb' 0 7).toNat ∧ (Tag.ofWord w).f = (w.extractLsb' 7 7).toNat ∧
    (Tag.ofWord w).e = (w.extractLsb' 14 8).toInt ∧ (Tag.ofWord w).s = w.getLsbD 22 ∧
    (Tag.ofWord w).w.size = 8 * 2 ^ (w.extractLsb' 23 2).toNat ∧
    ((Tag.ofWord w).op = .ignore ↔ w.getLsbD 25 = true) ∧ ((Tag.ofWord w).up = .ignore ↔ w.getLsbD 26 = true)

/-- R148: CVT stores the floor of the rescaled value under the destination format, and raises what R112 raises. -/
def Obligations.CvtConverts : Prop :=
  ∀ (s : State) (rd rs1 : VName) (fs : FName) (v : Int) (t d : Tag) (r : Int),
    s.getV rs1 = ⟨true, v, t⟩ → d = s.tagF fs → r = ⌊(v : ℚ) * 2 ^ (d.point - t.point)⌋ →
    (inRange r d = true → (v ≠ 0 → r ≠ 0) →
      exec (.cvt rd rs1 fs) s = .next ((s.setV rd r d).respond .ok (BitVec.ofInt 64 r))) ∧
    (v ≠ 0 → r = 0 → d.up = .throw → exec (.cvt rd rs1 fs) s = .next (s.abort unf .underflow)) ∧
    (v ≠ 0 → r = 0 → d.up = .ignore →
      exec (.cvt rd rs1 fs) s = .next (((s.raiseFlags unf).setV rd 0 d).respond .ok 0#64)) ∧
    (inRange r d = false → d.op = .throw → exec (.cvt rd rs1 fs) s = .next (s.abort ovf .overflow)) ∧
    (inRange r d = false → d.op = .ignore → exec (.cvt rd rs1 fs) s =
      .next (((s.raiseFlags ovf).setV rd (wrapW d.w.size d.s r) d).respond .ok
        (BitVec.ofInt 64 (wrapW d.w.size d.s r))))

/-! ## Arithmetic (42_arithmetic.md) -/

/-- R171, R172, R123: ADD and SUB whose sum is expandable complete with the exact result in the N+1 tag when the left
operand and the converted right operand are in the left format, SUB where the sum tag is signed or the difference
is not negative. -/
def Obligations.ExpandableSumsComplete : Prop :=
  ∀ (s : State) (rd rs1 rs2 : VName) (A B B2 : Int) (a b p : Tag),
    s.getV rs1 = ⟨true, A, a⟩ → s.getV rs2 = ⟨true, B, b⟩ → inRange A a = true →
    B2 = ⌊(B : ℚ) * 2 ^ (a.point - b.point)⌋ → inRange B2 a = true → (B ≠ 0 → B2 ≠ 0) →
    a.n + 1 + a.f + eitherSigned a b ≤ 64 → -128 ≤ a.e → a.e ≤ 127 →
    p = ⟨nativeW (a.n + 1 + a.f + eitherSigned a b), a.s || b.s, a.n + 1, a.f, a.e, a.op, a.up⟩ →
    exec (.add rd rs1 rs2) s = .next ((s.setV rd (A + B2) p).respond .ok (BitVec.ofInt 64 (A + B2))) ∧
    ((a.s || b.s) = true ∨ B2 ≤ A →
      exec (.sub rd rs1 rs2) s = .next ((s.setV rd (A - B2) p).respond .ok (BitVec.ofInt 64 (A - B2))))

/-- R171 to R179 on every path, with valid operands: the events of the command's pseudocode in its order give the
error that ends it, or the result with every STATUS bit set on the way under IGNORE; the compound forms convert the
binary result back to the left operand's tag. -/
def Obligations.ArithmeticFollowsItsPseudocode : Prop :=
  ∀ (s : State) (rd rs1 rs2 : VName) (A B : Int) (a b p : Tag) (i : Instr) (e : Ev Int),
    s.getV rs1 = ⟨true, A, a⟩ → s.getV rs2 = ⟨true, B, b⟩ →
    (let add := (normalize B b a).andThen fun B2 => check (A + B2) (sumTag a b).1
     let sub := (normalize B b a).andThen fun B2 => check (A - B2) (sumTag a b).1
     let mul := if (prodTag a b).2 then check (A * B) (prodTag a b).1 else mulFallback A a B b
     let div := if B = 0 then domainError else
       if (quotTag a b).2 then check ((shl A (b.n + b.f)).tdiv B) (quotTag a b).1 else divFallback A a B b
     (i = .add rd rs1 rs2 ∧ e = add ∧ p = (sumTag a b).1) ∨
     (i = .sub rd rs1 rs2 ∧ e = sub ∧ p = (sumTag a b).1) ∨
     (i = .mul rd rs1 rs2 ∧ e = mul ∧ p = (prodTag a b).1) ∨
     (i = .div rd rs1 rs2 ∧ e = div ∧ p = (quotTag a b).1) ∨
     (i = .neg rd rs1 ∧ e = check (if a.s then -A else largest a - A) a ∧ p = a) ∨
     (rd = rs1 ∧ i = .adda rd rs2 ∧ e = (add.andThen fun r => normalize r (sumTag a b).1 a) ∧ p = a) ∨
     (rd = rs1 ∧ i = .suba rd rs2 ∧ e = (sub.andThen fun r => normalize r (sumTag a b).1 a) ∧ p = a) ∨
     (rd = rs1 ∧ i = .mula rd rs2 ∧ e = (mul.andThen fun r => normalize r (prodTag a b).1 a) ∧ p = a) ∨
     (rd = rs1 ∧ i = .diva rd rs2 ∧ e = (div.andThen fun r => normalize r (quotTag a b).1 a) ∧ p = a)) →
    (∀ fl c, e = ⟨fl, .error c⟩ → exec i s = .next (s.abort fl c)) ∧
    (∀ fl r, e = ⟨fl, .ok r⟩ →
      exec i s = .next (((s.raiseFlags fl).setV rd r p).respond .ok (BitVec.ofInt 64 r)))

/-- R170, R171: same-format ADD is exactly commutative. -/
def Obligations.SameFormatAddCommutes : Prop :=
  ∀ (s : State) (rd rs1 rs2 : VName), (s.getV rs1).t = (s.getV rs2).t →
    inRange (s.getV rs1).v (s.getV rs1).t = true → inRange (s.getV rs2).v (s.getV rs2).t = true →
    exec (.add rd rs1 rs2) s = exec (.add rd rs2 rs1) s

/-- R173, R124, R127: MUL whose product is expandable completes with the exact product in the promoted tag for
in-range operands, but for the product of two most-negative signed values, which overflows. -/
def Obligations.ExpandableProductsComplete : Prop :=
  ∀ (s : State) (rd rs1 rs2 : VName) (A B : Int) (a b p : Tag),
    s.getV rs1 = ⟨true, A, a⟩ → s.getV rs2 = ⟨true, B, b⟩ → inRange A a = true → inRange B b = true →
    a.n + b.n + (a.f + b.f) + eitherSigned a b ≤ 64 → -128 ≤ a.e + b.e → a.e + b.e ≤ 127 →
    p = ⟨nativeW (a.n + b.n + (a.f + b.f) + eitherSigned a b), a.s || b.s, a.n + b.n, a.f + b.f, a.e + b.e,
      a.op, a.up⟩ →
    (¬ (a.s = true ∧ b.s = true ∧ A = least a ∧ B = least b) →
      exec (.mul rd rs1 rs2) s = .next ((s.setV rd (A * B) p).respond .ok (BitVec.ofInt 64 (A * B)))) ∧
    (a.s = true ∧ b.s = true ∧ A = least a ∧ B = least b → a.op = .throw →
      exec (.mul rd rs1 rs2) s = .next (s.abort ovf .overflow))

/-- R173, R126, R28: MUL that is not expandable completes in the left operand's tag, with STATUS.APX set, when the
product of A with B less t fraction bits is in range and not lost; and it raises UNDERFLOW or OVERFLOW with APX kept. -/
def Obligations.FallbackProductsComplete : Prop :=
  ∀ (s : State) (rd rs1 rs2 : VName) (A B : Int) (a b : Tag) (t prod sh r : Int),
    s.getV rs1 = ⟨true, A, a⟩ → s.getV rs2 = ⟨true, B, b⟩ →
    64 < a.n + b.n + (a.f + b.f) + eitherSigned a b ∨ a.e + b.e < -128 ∨ 127 < a.e + b.e →
    t = min (max ((a.n + b.n : Int) + (a.f + b.f) + (if a.s || b.s then 1 else 0) - 64) 0) b.f →
    prod = A * ⌊(B : ℚ) / 2 ^ t⌋ → sh = b.f + b.e - t →
    r = (if 0 ≤ sh then ⌊(prod : ℚ) / 2 ^ sh⌋ else prod * 2 ^ (-sh).toNat) →
    (inRange r a = true → (A ≠ 0 → B ≠ 0 → r ≠ 0) → exec (.mul rd rs1 rs2) s =
      .next (((s.raiseFlags apx).setV rd r a).respond .ok (BitVec.ofInt 64 r))) ∧
    (A ≠ 0 → B ≠ 0 → r = 0 → a.up = .throw →
      exec (.mul rd rs1 rs2) s = .next (s.abort (apx ||| unf) .underflow)) ∧
    (inRange r a = false → a.op = .throw →
      exec (.mul rd rs1 rs2) s = .next (s.abort (apx ||| ovf) .overflow))

/-- R174, R125, R129: DIV by zero is DOMAIN; DIV whose quotient is expandable completes with the quotient truncated
toward zero for in-range operands, but for `least(a) / -1`, which overflows. -/
def Obligations.ExpandableQuotientsComplete : Prop :=
  ∀ (s : State) (rd rs1 rs2 : VName) (A B : Int) (a b p : Tag),
    s.getV rs1 = ⟨true, A, a⟩ → s.getV rs2 = ⟨true, B, b⟩ →
    (B = 0 → exec (.div rd rs1 rs2) s = .next (s.abort dom .domain)) ∧
    (inRange A a = true → inRange B b = true → B ≠ 0 →
      a.n + b.f + (a.f + b.n) + eitherSigned a b ≤ 64 → -128 ≤ a.e - b.e → a.e - b.e ≤ 127 →
      p = ⟨nativeW (a.n + b.f + (a.f + b.n) + eitherSigned a b), a.s || b.s, a.n + b.f, a.f + b.n, a.e - b.e,
        a.op, a.up⟩ →
      (¬ (a.s = true ∧ b.s = true ∧ A = least a ∧ B = -1) → exec (.div rd rs1 rs2) s =
        .next ((s.setV rd ((A * 2 ^ (b.n + b.f)).tdiv B) p).respond .ok
          (BitVec.ofInt 64 ((A * 2 ^ (b.n + b.f)).tdiv B)))) ∧
      (a.s = true ∧ b.s = true ∧ A = least a ∧ B = -1 → a.op = .throw →
        exec (.div rd rs1 rs2) s = .next (s.abort ovf .overflow)))

/-- R174, R128, R28: DIV that is not expandable completes in the left operand's tag, with STATUS.APX set, when the
truncated quotient of the operands shifted by u is in range and not lost; and it raises UNDERFLOW or OVERFLOW with
APX kept. -/
def Obligations.FallbackQuotientsComplete : Prop :=
  ∀ (s : State) (rd rs1 rs2 : VName) (A B : Int) (a b : Tag) (need u A2 B2 r : Int) (q : ℚ),
    s.getV rs1 = ⟨true, A, a⟩ → s.getV rs2 = ⟨true, B, b⟩ → B ≠ 0 →
    64 < a.n + b.f + (a.f + b.n) + eitherSigned a b ∨ a.e - b.e < -128 ∨ 127 < a.e - b.e →
    need = (a.n : Int) + a.f + (if a.s || b.s then 1 else 0) + max ((b.f : Int) + b.e) 0 - 64 →
    u = min (min (max need 0) b.f) ((Nat.log 2 B.natAbs + 1 : Int) - 1) →
    A2 = ⌊(A : ℚ) / 2 ^ u⌋ → B2 = ⌊(B : ℚ) / 2 ^ u⌋ → q = (A2 : ℚ) * 2 ^ ((b.f : Int) + b.e) / B2 →
    r = (if 0 ≤ q then ⌊q⌋ else ⌈q⌉) →
    (inRange r a = true → (A ≠ 0 → r ≠ 0) → exec (.div rd rs1 rs2) s =
      .next (((s.raiseFlags apx).setV rd r a).respond .ok (BitVec.ofInt 64 r))) ∧
    (A ≠ 0 → r = 0 → a.up = .throw →
      exec (.div rd rs1 rs2) s = .next (s.abort (apx ||| unf) .underflow)) ∧
    (inRange r a = false → a.op = .throw →
      exec (.div rd rs1 rs2) s = .next (s.abort (apx ||| ovf) .overflow))

/-- R175: NEG of a signed value is its negative, and overflows only for `least(a)`; NEG of an unsigned value is
`largest(a) - A`, and an in-range one never overflows. -/
def Obligations.NegNegates : Prop :=
  ∀ (s : State) (rd rs1 : VName) (A : Int) (a : Tag), s.getV rs1 = ⟨true, A, a⟩ → inRange A a = true →
    (a.s = true → A ≠ least a → exec (.neg rd rs1) s =
      .next ((s.setV rd (-A) a).respond .ok (BitVec.ofInt 64 (-A)))) ∧
    (a.s = true → A = least a → a.op = .throw → exec (.neg rd rs1) s = .next (s.abort ovf .overflow)) ∧
    (a.s = true → A = least a → a.op = .ignore → a.n + a.f + 1 = a.w.size → exec (.neg rd rs1) s =
      .next (((s.raiseFlags ovf).setV rd (least a) a).respond .ok (BitVec.ofInt 64 (least a)))) ∧
    (a.s = false → exec (.neg rd rs1) s =
      .next ((s.setV rd (largest a - A) a).respond .ok (BitVec.ofInt 64 (largest a - A))))

/-- R176, R177: ADDA and SUBA complete in rd's own tag when the converted operand and the result are in its range,
whether or not the sum is expandable. -/
def Obligations.CompoundSumsComplete : Prop :=
  ∀ (s : State) (rd rs2 : VName) (A B B2 : Int) (a b : Tag),
    s.getV rd = ⟨true, A, a⟩ → s.getV rs2 = ⟨true, B, b⟩ →
    B2 = ⌊(B : ℚ) * 2 ^ (a.point - b.point)⌋ → inRange B2 a = true → (B ≠ 0 → B2 ≠ 0) →
    (inRange (A + B2) a = true →
      exec (.adda rd rs2) s = .next ((s.setV rd (A + B2) a).respond .ok (BitVec.ofInt 64 (A + B2)))) ∧
    (inRange (A - B2) a = true →
      exec (.suba rd rs2) s = .next ((s.setV rd (A - B2) a).respond .ok (BitVec.ofInt 64 (A - B2)))) ∧
    (inRange A a = true → inRange (A + B2) a = false → a.op = .throw →
      exec (.adda rd rs2) s = .next (s.abort ovf .overflow))

/-- R178: MULA whose product is expandable completes in rd's own tag with the floor of the product, when it is in range
and a nonzero product is not lost; a nonzero product that floors to 0 underflows. -/
def Obligations.CompoundProductsComplete : Prop :=
  ∀ (s : State) (rd rs2 : VName) (A B r : Int) (a b : Tag),
    s.getV rd = ⟨true, A, a⟩ → s.getV rs2 = ⟨true, B, b⟩ → inRange A a = true → inRange B b = true →
    (prodTag a b).2 = true → ¬ (a.s = true ∧ b.s = true ∧ A = least a ∧ B = least b) →
    r = ⌊(A * B : ℚ) * 2 ^ (-b.point)⌋ →
    (inRange r a = true → (A * B ≠ 0 → r ≠ 0) →
      exec (.mula rd rs2) s = .next ((s.setV rd r a).respond .ok (BitVec.ofInt 64 r))) ∧
    (A * B ≠ 0 → r = 0 → a.up = .throw → exec (.mula rd rs2) s = .next (s.abort unf .underflow)) ∧
    (inRange r a = false → a.op = .throw → exec (.mula rd rs2) s = .next (s.abort ovf .overflow))

/-- R179: DIVA by zero is DOMAIN; DIVA whose quotient is expandable completes in rd's own tag with the floor of the
truncated quotient, when it is in range and a nonzero quotient is not lost. -/
def Obligations.CompoundQuotientsComplete : Prop :=
  ∀ (s : State) (rd rs2 : VName) (A B q r : Int) (a b : Tag),
    s.getV rd = ⟨true, A, a⟩ → s.getV rs2 = ⟨true, B, b⟩ →
    (B = 0 → exec (.diva rd rs2) s = .next (s.abort dom .domain)) ∧
    (inRange A a = true → inRange B b = true → B ≠ 0 → (quotTag a b).2 = true →
      ¬ (a.s = true ∧ b.s = true ∧ A = least a ∧ B = -1) →
      q = (A * 2 ^ (b.n + b.f)).tdiv B → r = ⌊(q : ℚ) * 2 ^ (b.e - b.n)⌋ →
      (inRange r a = true → (q ≠ 0 → r ≠ 0) →
        exec (.diva rd rs2) s = .next ((s.setV rd r a).respond .ok (BitVec.ofInt 64 r))) ∧
      (q ≠ 0 → r = 0 → a.up = .throw → exec (.diva rd rs2) s = .next (s.abort unf .underflow)) ∧
      (inRange r a = false → a.op = .throw → exec (.diva rd rs2) s = .next (s.abort ovf .overflow)))

/-! ## Comparison (43_compare.md) -/

/-- R200 to R206: each comparison completes when the right operand converts, writes STATUS.CMP with its relation and
returns 1 or 0; an event under THROW aborts it before CMP is written. -/
def Obligations.ComparisonsComplete : Prop :=
  ∀ (s : State) (rs1 rs2 : VName) (A B : Int) (a b : Tag) (i : Instr) (c : Int → Bool),
    s.getV rs1 = ⟨true, A, a⟩ → s.getV rs2 = ⟨true, B, b⟩ →
    (i = .cmpEq rs1 rs2 ∧ c = fun x => decide (A = x)) ∨ (i = .cmpNe rs1 rs2 ∧ c = fun x => decide (A ≠ x)) ∨
    (i = .cmpLt rs1 rs2 ∧ c = fun x => decide (A < x)) ∨ (i = .cmpLe rs1 rs2 ∧ c = fun x => decide (A ≤ x)) ∨
    (i = .cmpGt rs1 rs2 ∧ c = fun x => decide (x < A)) ∨ (i = .cmpGe rs1 rs2 ∧ c = fun x => decide (x ≤ A)) →
    (∀ fl B2, normalize B b a = ⟨fl, .ok B2⟩ → ∃ t, exec i s = .next t ∧ t.rspCode = .ok ∧
      t.rspData = (if c B2 then 1#64 else 0#64) ∧ t.vregs = s.vregs ∧ t.fds = s.fds ∧
      t.status.getLsbD 5 = c B2 ∧
      t.status &&& ~~~0x20#32 = (s.status ||| fl) &&& ~~~0x20#32) ∧
    (∀ fl e, normalize B b a = ⟨fl, .error e⟩ → exec i s = .next (s.abort fl e))

/-- R207: for one operand order and one state, EQ is NOT NE, LT is NOT GE, GT is NOT LE, LE is LT OR EQ and GE is GT OR
EQ; and for in-range operands of one tag no conversion event is possible and the mirrored comparisons agree. -/
def Obligations.ComparisonIdentities : Prop :=
  ∀ (s eq ne lt le gt ge : State) (x y : VName),
    exec (.cmpEq x y) s = .next eq → exec (.cmpNe x y) s = .next ne → exec (.cmpLt x y) s = .next lt →
    exec (.cmpLe x y) s = .next le → exec (.cmpGt x y) s = .next gt → exec (.cmpGe x y) s = .next ge →
    (eq.rspCode = .ok →
      ne.rspCode = .ok ∧ lt.rspCode = .ok ∧ le.rspCode = .ok ∧ gt.rspCode = .ok ∧ ge.rspCode = .ok ∧
      (eq.rspData = 1#64 ↔ ¬ ne.rspData = 1#64) ∧ (lt.rspData = 1#64 ↔ ¬ ge.rspData = 1#64) ∧
      (gt.rspData = 1#64 ↔ ¬ le.rspData = 1#64) ∧
      (le.rspData = 1#64 ↔ lt.rspData = 1#64 ∨ eq.rspData = 1#64) ∧
      (ge.rspData = 1#64 ↔ gt.rspData = 1#64 ∨ eq.rspData = 1#64)) ∧
    ((s.getV x).valid = true → (s.getV y).valid = true → (s.getV x).t = (s.getV y).t →
      inRange (s.getV x).v (s.getV x).t = true → inRange (s.getV y).v (s.getV y).t = true →
      lt.rspCode = .ok ∧ lt.status &&& ~~~0x20#32 = s.status &&& ~~~0x20#32 ∧ exec (.cmpGt y x) s = .next lt)

/-! ## The CORDIC engines (44_cordic.md) -/

/-- R212, R224: the hyperbolic schedule runs each shift 1..F in order, the members of 4, 13, 40, 121, ... twice, and its
length is F plus the number of those that are at most F; the circular one is 0..F-1. -/
def Obligations.SchedulesAreTheListedShifts : Prop :=
  ∀ f : Nat,
    schedule .circular f = List.range f ∧
    (schedule .hyperbolic f).Pairwise (· ≤ ·) ∧
    (∀ k, (schedule .hyperbolic f).count k ≤ 2 ∧ (1 ≤ (schedule .hyperbolic f).count k ↔ 1 ≤ k ∧ k ≤ f) ∧
      ((schedule .hyperbolic f).count k = 2 ↔ k ≤ f ∧ ∃ j, k = repShift j)) ∧
    (f < 121 → (schedule .hyperbolic f).length = f + ([4, 13, 40].filter (· ≤ f)).length)

/-- R210, R246: where a CORDIC command may run, every table entry of its schedule is representable in the tag, so no
event comes from the table. -/
def Obligations.EngineAnglesAreRepresentable : Prop :=
  ∀ (c : Coord) (t : Tag) (k : Nat), t.legal = true → t.s = true → 1 ≤ t.f →
    firstAngle c t ≤ largest t → k ∈ schedule c t.f → 0 ≤ stepAngle c t k ∧ stepAngle c t k ≤ largest t

/-- R210: a CORDIC command ends ILLEGAL, with STATUS.ILL set and nothing else changed, unless its registers are
pairwise distinct and valid, their tags are equal, signed and with F >= 1, and entry 0 of its table is
representable. -/
def Obligations.EngineOperandsAreChecked : Prop :=
  ∀ (s : State) (rd rs1 rs2 : VName) (i : Instr) (c : Coord),
    (c = .circular ∧ (i = .crotc rd rs1 rs2 ∨ i = .cvecc rd rs1 rs2)) ∨
    (c = .hyperbolic ∧ (i = .croth rd rs1 rs2 ∨ i = .cvech rd rs1 rs2)) →
    ¬ (rd ≠ rs1 ∧ rd ≠ rs2 ∧ rs1 ≠ rs2 ∧
      (s.getV rd).valid = true ∧ (s.getV rs1).valid = true ∧ (s.getV rs2).valid = true ∧
      (s.getV rd).t = (s.getV rs1).t ∧ (s.getV rd).t = (s.getV rs2).t ∧ (s.getV rd).t.s = true ∧
      1 ≤ (s.getV rd).t.f ∧ firstAngle c (s.getV rd).t ≤ largest (s.getV rd).t) →
    exec i s = .next (s.abort ill .illegal)

/-- R217 to R221: the four engines complete on legal operands (R210): their steps in the order of the schedule, from the
lanes X, Y, Z, and the writeback of the three checked lanes; with `N + F + 1 = W` no check can fail. One step is
written by R213 to R216: the direction from the sign of Z in rotation and of Y in vectoring, and the three lanes. -/
def Obligations.EnginesComplete : Prop :=
  ∀ (s : State) (rd rs1 rs2 : VName) (i : Instr) (c : Coord) (m : Mode) (t : Tag) (l : Lanes)
    (d : Lanes → Int) (step : Lanes → Nat → Lanes),
    (i = .crotc rd rs1 rs2 ∧ c = .circular ∧ m = .rotation) ∨
    (i = .croth rd rs1 rs2 ∧ c = .hyperbolic ∧ m = .rotation) ∨
    (i = .cvecc rd rs1 rs2 ∧ c = .circular ∧ m = .vectoring) ∨
    (i = .cvech rd rs1 rs2 ∧ c = .hyperbolic ∧ m = .vectoring) →
    rd ≠ rs1 → rd ≠ rs2 → rs1 ≠ rs2 →
    s.getV rd = ⟨true, (s.getV rd).v, t⟩ → s.getV rs1 = ⟨true, (s.getV rs1).v, t⟩ →
    s.getV rs2 = ⟨true, (s.getV rs2).v, t⟩ → t.s = true → 1 ≤ t.f →
    lutRound (if c = .circular then .atan else .atanh) 0 t ≤ largest t →
    (d = fun p => if m = .rotation then (if 0 ≤ p.z then 1 else -1) else (if p.y < 0 then 1 else -1)) →
    (step = fun p k =>
      { x := wrapW t.w.size true
          (if c = .circular then p.x - d p * ⌊(p.y : ℚ) / 2 ^ k⌋ else p.x + d p * ⌊(p.y : ℚ) / 2 ^ k⌋)
        y := wrapW t.w.size true (p.y + d p * ⌊(p.x : ℚ) / 2 ^ k⌋)
        z := wrapW t.w.size true
          (if c = .circular then p.z - d p * lutRound .atan k t else p.z - d p * lutRound .atanh (k - 1) t) }) →
    l = (schedule c t.f).foldl step ⟨(s.getV rd).v, (s.getV rs1).v, (s.getV rs2).v⟩ →
    (t.n + t.f + 1 = t.w.size ∨ (inRange l.x t = true ∧ inRange l.y t = true ∧ inRange l.z t = true) →
      exec i s = .next ((((s.setV rd l.x t).setV rs1 l.y t).setV rs2 l.z t).respond .ok (BitVec.ofInt 64 l.x))) ∧
    (inRange l.x t = false ∨ inRange l.y t = false ∨ inRange l.z t = false → t.op = .throw →
      exec i s = .next (s.abort ovf .overflow)) ∧
    (inRange l.x t = false ∨ inRange l.y t = false ∨ inRange l.z t = false → t.op = .ignore →
      exec i s = .next (((((s.raiseFlags ovf).setV rd l.x t).setV rs1 l.y t).setV rs2 l.z t).respond .ok
        (BitVec.ofInt 64 l.x)))

/-! ## The tables (45_lut.md) -/

/-- R241, R242: every table entry is the exact real value of its kind, scaled by `2^P(t)` and rounded half away from
zero: the FROMREAL of that real, event and value alike (R105). -/
def Obligations.TableEntriesAreRoundedReals : Prop :=
  ∀ (kind : LutKind) (i : Nat) (t : Tag), t.legal = true →
    i < (if kind = .kcirc ∨ kind = .khyp then 1 else t.f) →
    lutRound kind i t = rhaReal (lutReal kind i t.f * 2 ^ t.point) ∧
    lutEntry kind i t = fromReal (lutReal kind i t.f) t

/-- R78, R243, R244: LUTRD loads the entry of its kind, numbered 0 ATAN, 1 ATANH, 2 POW2, 3 IPOW2, 4 KCIRC, 5 KHYP,
below the table's length, F for kinds 0 to 3 and 1 for kinds 4 and 5; out of range it overflows under THROW and is
wrapped under IGNORE; any other kind or index is ILLEGAL. -/
def Obligations.LutrdReadsTheTables : Prop :=
  ∀ (s : State) (rd : VName) (fs : FName) (k : BitVec 3) (n : BitVec 12) (t : Tag) (len : Nat), t = s.tagF fs →
    len = (if k.toNat ≤ 3 then t.f else 1) →
    (∀ kind, (k.toNat, kind) ∈ [(0, LutKind.atan), (1, .atanh), (2, .pow2), (3, .ipow2), (4, .kcirc), (5, .khyp)] →
      n.toNat < len →
      (inRange (lutRound kind n.toNat t) t = true → exec (.lutrd rd fs k n) s =
        .next ((s.setV rd (lutRound kind n.toNat t) t).respond .ok
          (BitVec.ofInt 64 (lutRound kind n.toNat t)))) ∧
      (inRange (lutRound kind n.toNat t) t = false → t.op = .throw →
        exec (.lutrd rd fs k n) s = .next (s.abort ovf .overflow)) ∧
      (inRange (lutRound kind n.toNat t) t = false → t.op = .ignore → exec (.lutrd rd fs k n) s =
        .next (((s.raiseFlags ovf).setV rd (wrapW t.w.size t.s (lutRound kind n.toNat t)) t).respond .ok
          (BitVec.ofInt 64 (wrapW t.w.size t.s (lutRound kind n.toNat t)))))) ∧
    (5 < k.toNat ∨ len ≤ n.toNat → exec (.lutrd rd fs k n) s = .next (s.abort ill .illegal))

/-- R93: what the pseudo-instructions expand to. CLRALL clears STATUS; SETQ loads `Q<n,f>` wherever that format is
legal. LDQ is the WRAP of `RHA(x * 2^P)` where that is in range; every WRAP it stands for does what `FROMREAL(x)` gives,
value and event alike, so that the WRAP raises an overflow itself. The model's choices: the operand where the stored
integer does not fit 64 bits, no command where no operand would do (log entry 12), and no command for a SETQ that no
native width holds (log entry 18). -/
def Obligations.PseudoInstructionsExpand : Prop :=
  ∀ (fd : FFile) (s : State) (fS : FName) (n f : Nat) (vD : VName) (x : ℝ) (t : Tag),
    (s.status &&& ~~~0x3F#32 = 0#32 → ∃ c u, Pseudo.clrall.expand fd = some c ∧
      (s.accept c).perform = .next u ∧ u.rspCode = .ok ∧ u.status = 0#32) ∧
    (1 ≤ n + f → n + f + 1 ≤ 64 → ∃ c u, (Pseudo.setq fS n f).expand fd = some c ∧
      (s.accept c).perform = .next u ∧ u.rspCode = .ok ∧ u.tagF fS = qTag n f) ∧
    (64 < n + f + 1 → (Pseudo.setq fS n f).expand fd = none) ∧
    (t = Tag.ofWord (fd.get fS) → s.tagF fS = t → t.legal = true →
      (inRange (fromRealV x t) t = true →
        (Pseudo.ldq vD fS x).expand fd = some ⟨encode (.wrap vD fS), BitVec.ofInt 64 (fromRealV x t)⟩) ∧
      (inRange (fromRealV x t) t = false → t.op = .throw → t.n + t.f + t.sBits < 64 →
        ∃ c, (Pseudo.ldq vD fS x).expand fd = some c ∧
          (s.accept c).perform = .next ((s.accept c).abort ovf .overflow)) ∧
      (∀ c, (Pseudo.ldq vD fS x).expand fd = some c → c.cmd = encode (.wrap vD fS) ∧
        (∀ fl r, fromReal x t = ⟨fl, .ok r⟩ → (s.accept c).perform =
          .next ((((s.accept c).raiseFlags fl).setV vD r t).respond .ok (BitVec.ofInt 64 r))) ∧
        (∀ fl e, fromReal x t = ⟨fl, .error e⟩ → (s.accept c).perform = .next ((s.accept c).abort fl e))) ∧
      ((Pseudo.ldq vD fS x).expand fd = none →
        ∀ d : Data, check (if t.s then d.toInt else (d.toNat : Int)) t ≠ fromReal x t))
end

