-- ==== Sys2Proof/Laws/Decode.lean ====
section
/-! SUPPORT. The fields of a word, and what the decoder does with them. -/
namespace Sys2Proof

@[simp] theorem VName.ofBits_bits (r : VName) : VName.ofBits r.bits = r := by cases r <;> rfl

@[simp] theorem FName.ofBits_bits (r : FName) : FName.ofBits r.bits = r := by cases r <;> rfl

@[simp] theorem VName.bits_ofBits (b : BitVec 3) : (VName.ofBits b).bits = b := by
  revert b; decide

@[simp] theorem FName.bits_ofBits (b : BitVec 2) : (FName.ofBits b).bits = b := by
  revert b; decide

/-- The fields of the word built from fields are those fields (R71). -/
@[simp] theorem Fields.ofWord_toWord (f : Fields) : Fields.ofWord f.toWord = f := by
  obtain ⟨opc, rd, rs1, rs2, fs, sub, imm⟩ := f
  simp only [Fields.ofWord, Fields.toWord, Fields.mk.injEq]
  refine ⟨?_, ?_, ?_, ?_, ?_, ?_, ?_⟩ <;>
  · apply BitVec.eq_of_getLsbD_eq
    intro i hi
    simp only [BitVec.getLsbD_extractLsb', BitVec.getLsbD_append]
    interval_cases i <;> simp

/-- The word built from the fields of a word is the word: the seven fields cover it (R71). -/
@[simp] theorem Fields.toWord_ofWord (w : Word) : (Fields.ofWord w).toWord = w := by
  simp only [Fields.ofWord, Fields.toWord]
  apply BitVec.eq_of_getLsbD_eq
  intro i hi
  simp only [BitVec.getLsbD_extractLsb', BitVec.getLsbD_append]
  interval_cases i <;> simp

theorem Fields.ofWord_inj {w w' : Word} : Fields.ofWord w = Fields.ofWord w' ↔ w = w' :=
  ⟨fun h => by rw [← Fields.toWord_ofWord w, h, Fields.toWord_ofWord], fun h => h ▸ rfl⟩

/-- A row covers a word exactly when each of the seven fields agrees with the row's under its mask. -/
theorem Row.covers_iff (r : Row) (w : Word) : r.covers w = true ↔
    (Fields.ofWord w).opc &&& (Fields.ofWord r.mask).opc = (Fields.ofWord r.pat).opc ∧
    (Fields.ofWord w).rd &&& (Fields.ofWord r.mask).rd = (Fields.ofWord r.pat).rd ∧
    (Fields.ofWord w).rs1 &&& (Fields.ofWord r.mask).rs1 = (Fields.ofWord r.pat).rs1 ∧
    (Fields.ofWord w).rs2 &&& (Fields.ofWord r.mask).rs2 = (Fields.ofWord r.pat).rs2 ∧
    (Fields.ofWord w).fs &&& (Fields.ofWord r.mask).fs = (Fields.ofWord r.pat).fs ∧
    (Fields.ofWord w).sub &&& (Fields.ofWord r.mask).sub = (Fields.ofWord r.pat).sub ∧
    (Fields.ofWord w).imm &&& (Fields.ofWord r.mask).imm = (Fields.ofWord r.pat).imm := by
  rw [Row.covers, beq_iff_eq, ← Fields.ofWord_inj]
  simp only [Fields.ofWord, BitVec.extractLsb'_and, Fields.mk.injEq]

@[simp] theorem Opcode.ofBits_bits (o : Opcode) : Opcode.ofBits o.bits = some o := by cases o <;> rfl

/-- The opcode found for a value has that value (R76). -/
theorem Opcode.bits_of_ofBits {b : BitVec 6} {o : Opcode} (h : Opcode.ofBits b = some o) : o.bits = b := by
  simpa using List.find?_some h

end Sys2Proof
end

