-- ==== Sys2Proof/Laws/State.lean ====
section
/-! SUPPORT. One lemma for each field and each update of the state, true by `rfl`, so that no proof unfolds a
record update; and what reading a register gives after a write. -/
namespace Sys2Proof.Machine

variable (s : State)

@[simp] theorem State.setV_vregs (i : VName) (v : Int) (t : Tag) : (s.setV i v t).vregs = s.vregs.set i ⟨true, v, t⟩ := rfl
@[simp] theorem State.setV_fds (i : VName) (v : Int) (t : Tag) : (s.setV i v t).fds = s.fds := rfl
@[simp] theorem State.setV_status (i : VName) (v : Int) (t : Tag) : (s.setV i v t).status = s.status := rfl
@[simp] theorem State.setV_index (i : VName) (v : Int) (t : Tag) : (s.setV i v t).index = s.index := rfl
@[simp] theorem State.setV_busy (i : VName) (v : Int) (t : Tag) : (s.setV i v t).busy = s.busy := rfl
@[simp] theorem State.setV_cyclesLeft (i : VName) (v : Int) (t : Tag) : (s.setV i v t).cyclesLeft = s.cyclesLeft := rfl
@[simp] theorem State.setV_cmd (i : VName) (v : Int) (t : Tag) : (s.setV i v t).cmd = s.cmd := rfl
@[simp] theorem State.setV_cmdData (i : VName) (v : Int) (t : Tag) : (s.setV i v t).cmdData = s.cmdData := rfl
@[simp] theorem State.setV_rspValid (i : VName) (v : Int) (t : Tag) : (s.setV i v t).rspValid = s.rspValid := rfl
@[simp] theorem State.setV_rspCode (i : VName) (v : Int) (t : Tag) : (s.setV i v t).rspCode = s.rspCode := rfl
@[simp] theorem State.setV_rspData (i : VName) (v : Int) (t : Tag) : (s.setV i v t).rspData = s.rspData := rfl
@[simp] theorem State.setV_host (i : VName) (v : Int) (t : Tag) : (s.setV i v t).host = s.host := rfl

@[simp] theorem State.setF_vregs (i : FName) (x : Word) : (s.setF i x).vregs = s.vregs := rfl
@[simp] theorem State.setF_fds (i : FName) (x : Word) : (s.setF i x).fds = s.fds.set i x := rfl
@[simp] theorem State.setF_status (i : FName) (x : Word) : (s.setF i x).status = s.status := rfl
@[simp] theorem State.setF_index (i : FName) (x : Word) : (s.setF i x).index = s.index := rfl
@[simp] theorem State.setF_busy (i : FName) (x : Word) : (s.setF i x).busy = s.busy := rfl
@[simp] theorem State.setF_cyclesLeft (i : FName) (x : Word) : (s.setF i x).cyclesLeft = s.cyclesLeft := rfl
@[simp] theorem State.setF_cmd (i : FName) (x : Word) : (s.setF i x).cmd = s.cmd := rfl
@[simp] theorem State.setF_cmdData (i : FName) (x : Word) : (s.setF i x).cmdData = s.cmdData := rfl
@[simp] theorem State.setF_rspValid (i : FName) (x : Word) : (s.setF i x).rspValid = s.rspValid := rfl
@[simp] theorem State.setF_rspCode (i : FName) (x : Word) : (s.setF i x).rspCode = s.rspCode := rfl
@[simp] theorem State.setF_rspData (i : FName) (x : Word) : (s.setF i x).rspData = s.rspData := rfl
@[simp] theorem State.setF_host (i : FName) (x : Word) : (s.setF i x).host = s.host := rfl

@[simp] theorem State.raiseFlags_vregs (x : Word) : (s.raiseFlags x).vregs = s.vregs := rfl
@[simp] theorem State.raiseFlags_fds (x : Word) : (s.raiseFlags x).fds = s.fds := rfl
@[simp] theorem State.raiseFlags_status (x : Word) : (s.raiseFlags x).status = s.status ||| x := rfl
@[simp] theorem State.raiseFlags_index (x : Word) : (s.raiseFlags x).index = s.index := rfl
@[simp] theorem State.raiseFlags_busy (x : Word) : (s.raiseFlags x).busy = s.busy := rfl
@[simp] theorem State.raiseFlags_cyclesLeft (x : Word) : (s.raiseFlags x).cyclesLeft = s.cyclesLeft := rfl
@[simp] theorem State.raiseFlags_cmd (x : Word) : (s.raiseFlags x).cmd = s.cmd := rfl
@[simp] theorem State.raiseFlags_cmdData (x : Word) : (s.raiseFlags x).cmdData = s.cmdData := rfl
@[simp] theorem State.raiseFlags_rspValid (x : Word) : (s.raiseFlags x).rspValid = s.rspValid := rfl
@[simp] theorem State.raiseFlags_rspCode (x : Word) : (s.raiseFlags x).rspCode = s.rspCode := rfl
@[simp] theorem State.raiseFlags_rspData (x : Word) : (s.raiseFlags x).rspData = s.rspData := rfl
@[simp] theorem State.raiseFlags_host (x : Word) : (s.raiseFlags x).host = s.host := rfl

@[simp] theorem State.setStatus_vregs (x : Word) : (s.setStatus x).vregs = s.vregs := rfl
@[simp] theorem State.setStatus_fds (x : Word) : (s.setStatus x).fds = s.fds := rfl
@[simp] theorem State.setStatus_status (x : Word) : (s.setStatus x).status = x := rfl
@[simp] theorem State.setStatus_index (x : Word) : (s.setStatus x).index = s.index := rfl
@[simp] theorem State.setStatus_busy (x : Word) : (s.setStatus x).busy = s.busy := rfl
@[simp] theorem State.setStatus_cyclesLeft (x : Word) : (s.setStatus x).cyclesLeft = s.cyclesLeft := rfl
@[simp] theorem State.setStatus_cmd (x : Word) : (s.setStatus x).cmd = s.cmd := rfl
@[simp] theorem State.setStatus_cmdData (x : Word) : (s.setStatus x).cmdData = s.cmdData := rfl
@[simp] theorem State.setStatus_rspValid (x : Word) : (s.setStatus x).rspValid = s.rspValid := rfl
@[simp] theorem State.setStatus_rspCode (x : Word) : (s.setStatus x).rspCode = s.rspCode := rfl
@[simp] theorem State.setStatus_rspData (x : Word) : (s.setStatus x).rspData = s.rspData := rfl
@[simp] theorem State.setStatus_host (x : Word) : (s.setStatus x).host = s.host := rfl

@[simp] theorem State.setHost_vregs (h : List HostMove) : (s.setHost h).vregs = s.vregs := rfl
@[simp] theorem State.setHost_fds (h : List HostMove) : (s.setHost h).fds = s.fds := rfl
@[simp] theorem State.setHost_status (h : List HostMove) : (s.setHost h).status = s.status := rfl
@[simp] theorem State.setHost_index (h : List HostMove) : (s.setHost h).index = s.index := rfl
@[simp] theorem State.setHost_busy (h : List HostMove) : (s.setHost h).busy = s.busy := rfl
@[simp] theorem State.setHost_cyclesLeft (h : List HostMove) : (s.setHost h).cyclesLeft = s.cyclesLeft := rfl
@[simp] theorem State.setHost_cmd (h : List HostMove) : (s.setHost h).cmd = s.cmd := rfl
@[simp] theorem State.setHost_cmdData (h : List HostMove) : (s.setHost h).cmdData = s.cmdData := rfl
@[simp] theorem State.setHost_rspValid (h : List HostMove) : (s.setHost h).rspValid = s.rspValid := rfl
@[simp] theorem State.setHost_rspCode (h : List HostMove) : (s.setHost h).rspCode = s.rspCode := rfl
@[simp] theorem State.setHost_rspData (h : List HostMove) : (s.setHost h).rspData = s.rspData := rfl
@[simp] theorem State.setHost_host (h : List HostMove) : (s.setHost h).host = h := rfl

@[simp] theorem State.respond_vregs (c : Code) (d : Data) : (s.respond c d).vregs = s.vregs := rfl
@[simp] theorem State.respond_fds (c : Code) (d : Data) : (s.respond c d).fds = s.fds := rfl
@[simp] theorem State.respond_status (c : Code) (d : Data) : (s.respond c d).status = s.status := rfl
@[simp] theorem State.respond_index (c : Code) (d : Data) : (s.respond c d).index = s.index + 1 := rfl
@[simp] theorem State.respond_busy (c : Code) (d : Data) : (s.respond c d).busy = false := rfl
@[simp] theorem State.respond_cyclesLeft (c : Code) (d : Data) : (s.respond c d).cyclesLeft = 0 := rfl
@[simp] theorem State.respond_cmd (c : Code) (d : Data) : (s.respond c d).cmd = s.cmd := rfl
@[simp] theorem State.respond_cmdData (c : Code) (d : Data) : (s.respond c d).cmdData = s.cmdData := rfl
@[simp] theorem State.respond_rspValid (c : Code) (d : Data) : (s.respond c d).rspValid = true := rfl
@[simp] theorem State.respond_rspCode (c : Code) (d : Data) : (s.respond c d).rspCode = c := rfl
@[simp] theorem State.respond_rspData (c : Code) (d : Data) : (s.respond c d).rspData = d := rfl
@[simp] theorem State.respond_host (c : Code) (d : Data) : (s.respond c d).host = s.host := rfl

@[simp] theorem State.abort_vregs (x : Word) (c : Code) : (s.abort x c).vregs = s.vregs := rfl
@[simp] theorem State.abort_fds (x : Word) (c : Code) : (s.abort x c).fds = s.fds := rfl
@[simp] theorem State.abort_status (x : Word) (c : Code) : (s.abort x c).status = s.status ||| x := rfl
@[simp] theorem State.abort_index (x : Word) (c : Code) : (s.abort x c).index = s.index + 1 := rfl
@[simp] theorem State.abort_busy (x : Word) (c : Code) : (s.abort x c).busy = false := rfl
@[simp] theorem State.abort_cyclesLeft (x : Word) (c : Code) : (s.abort x c).cyclesLeft = 0 := rfl
@[simp] theorem State.abort_cmd (x : Word) (c : Code) : (s.abort x c).cmd = s.cmd := rfl
@[simp] theorem State.abort_cmdData (x : Word) (c : Code) : (s.abort x c).cmdData = s.cmdData := rfl
@[simp] theorem State.abort_rspValid (x : Word) (c : Code) : (s.abort x c).rspValid = true := rfl
@[simp] theorem State.abort_rspCode (x : Word) (c : Code) : (s.abort x c).rspCode = c := rfl
@[simp] theorem State.abort_rspData (x : Word) (c : Code) : (s.abort x c).rspData = 0#64 := rfl
@[simp] theorem State.abort_host (x : Word) (c : Code) : (s.abort x c).host = s.host := rfl

@[simp] theorem State.accept_vregs (c : Command) : (s.accept c).vregs = s.vregs := rfl
@[simp] theorem State.accept_fds (c : Command) : (s.accept c).fds = s.fds := rfl
@[simp] theorem State.accept_status (c : Command) : (s.accept c).status = s.status := rfl
@[simp] theorem State.accept_index (c : Command) : (s.accept c).index = s.index := rfl
@[simp] theorem State.accept_busy (c : Command) : (s.accept c).busy = true := rfl
@[simp] theorem State.accept_cyclesLeft (c : Command) : (s.accept c).cyclesLeft = s.latency c.cmd := rfl
@[simp] theorem State.accept_cmd (c : Command) : (s.accept c).cmd = c.cmd := rfl
@[simp] theorem State.accept_cmdData (c : Command) : (s.accept c).cmdData = c.data := rfl
@[simp] theorem State.accept_rspValid (c : Command) : (s.accept c).rspValid = false := rfl
@[simp] theorem State.accept_rspCode (c : Command) : (s.accept c).rspCode = s.rspCode := rfl
@[simp] theorem State.accept_rspData (c : Command) : (s.accept c).rspData = s.rspData := rfl
@[simp] theorem State.accept_host (c : Command) : (s.accept c).host = s.host := rfl

@[simp] theorem State.idle_vregs : (s.idle).vregs = s.vregs := rfl
@[simp] theorem State.idle_fds : (s.idle).fds = s.fds := rfl
@[simp] theorem State.idle_status : (s.idle).status = s.status := rfl
@[simp] theorem State.idle_index : (s.idle).index = s.index := rfl
@[simp] theorem State.idle_busy : (s.idle).busy = s.busy := rfl
@[simp] theorem State.idle_cyclesLeft : (s.idle).cyclesLeft = s.cyclesLeft := rfl
@[simp] theorem State.idle_cmd : (s.idle).cmd = s.cmd := rfl
@[simp] theorem State.idle_cmdData : (s.idle).cmdData = s.cmdData := rfl
@[simp] theorem State.idle_rspValid : (s.idle).rspValid = false := rfl
@[simp] theorem State.idle_rspCode : (s.idle).rspCode = s.rspCode := rfl
@[simp] theorem State.idle_rspData : (s.idle).rspData = s.rspData := rfl
@[simp] theorem State.idle_host : (s.idle).host = s.host := rfl

@[simp] theorem State.setCmp_vregs (c : Bool) : (s.setCmp c).vregs = s.vregs := rfl
@[simp] theorem State.setCmp_fds (c : Bool) : (s.setCmp c).fds = s.fds := rfl
@[simp] theorem State.setCmp_status (c : Bool) : (s.setCmp c).status = (s.status &&& ~~~cmpBit) ||| (if c then cmpBit else 0#32) := rfl
@[simp] theorem State.setCmp_index (c : Bool) : (s.setCmp c).index = s.index := rfl
@[simp] theorem State.setCmp_busy (c : Bool) : (s.setCmp c).busy = s.busy := rfl
@[simp] theorem State.setCmp_cyclesLeft (c : Bool) : (s.setCmp c).cyclesLeft = s.cyclesLeft := rfl
@[simp] theorem State.setCmp_cmd (c : Bool) : (s.setCmp c).cmd = s.cmd := rfl
@[simp] theorem State.setCmp_cmdData (c : Bool) : (s.setCmp c).cmdData = s.cmdData := rfl
@[simp] theorem State.setCmp_rspValid (c : Bool) : (s.setCmp c).rspValid = s.rspValid := rfl
@[simp] theorem State.setCmp_rspCode (c : Bool) : (s.setCmp c).rspCode = s.rspCode := rfl
@[simp] theorem State.setCmp_rspData (c : Bool) : (s.setCmp c).rspData = s.rspData := rfl
@[simp] theorem State.setCmp_host (c : Bool) : (s.setCmp c).host = s.host := rfl

@[simp] theorem State.clearStatus_vregs (m : BitVec 6) : (s.clearStatus m).vregs = s.vregs := rfl
@[simp] theorem State.clearStatus_fds (m : BitVec 6) : (s.clearStatus m).fds = s.fds := rfl
@[simp] theorem State.clearStatus_status (m : BitVec 6) : (s.clearStatus m).status = s.status &&& ~~~(m.setWidth 32) := rfl
@[simp] theorem State.clearStatus_index (m : BitVec 6) : (s.clearStatus m).index = s.index := rfl
@[simp] theorem State.clearStatus_busy (m : BitVec 6) : (s.clearStatus m).busy = s.busy := rfl
@[simp] theorem State.clearStatus_cyclesLeft (m : BitVec 6) : (s.clearStatus m).cyclesLeft = s.cyclesLeft := rfl
@[simp] theorem State.clearStatus_cmd (m : BitVec 6) : (s.clearStatus m).cmd = s.cmd := rfl
@[simp] theorem State.clearStatus_cmdData (m : BitVec 6) : (s.clearStatus m).cmdData = s.cmdData := rfl
@[simp] theorem State.clearStatus_rspValid (m : BitVec 6) : (s.clearStatus m).rspValid = s.rspValid := rfl
@[simp] theorem State.clearStatus_rspCode (m : BitVec 6) : (s.clearStatus m).rspCode = s.rspCode := rfl
@[simp] theorem State.clearStatus_rspData (m : BitVec 6) : (s.clearStatus m).rspData = s.rspData := rfl
@[simp] theorem State.clearStatus_host (m : BitVec 6) : (s.clearStatus m).host = s.host := rfl

@[simp] theorem State.setLanes_vregs (rd rs1 rs2 : VName) (t : Tag) (l : Lanes) : (s.setLanes rd rs1 rs2 t l).vregs = ((s.vregs.set rd ⟨true, l.x, t⟩).set rs1 ⟨true, l.y, t⟩).set rs2 ⟨true, l.z, t⟩ := rfl
@[simp] theorem State.setLanes_fds (rd rs1 rs2 : VName) (t : Tag) (l : Lanes) : (s.setLanes rd rs1 rs2 t l).fds = s.fds := rfl
@[simp] theorem State.setLanes_status (rd rs1 rs2 : VName) (t : Tag) (l : Lanes) : (s.setLanes rd rs1 rs2 t l).status = s.status := rfl
@[simp] theorem State.setLanes_index (rd rs1 rs2 : VName) (t : Tag) (l : Lanes) : (s.setLanes rd rs1 rs2 t l).index = s.index := rfl
@[simp] theorem State.setLanes_busy (rd rs1 rs2 : VName) (t : Tag) (l : Lanes) : (s.setLanes rd rs1 rs2 t l).busy = s.busy := rfl
@[simp] theorem State.setLanes_cyclesLeft (rd rs1 rs2 : VName) (t : Tag) (l : Lanes) : (s.setLanes rd rs1 rs2 t l).cyclesLeft = s.cyclesLeft := rfl
@[simp] theorem State.setLanes_cmd (rd rs1 rs2 : VName) (t : Tag) (l : Lanes) : (s.setLanes rd rs1 rs2 t l).cmd = s.cmd := rfl
@[simp] theorem State.setLanes_cmdData (rd rs1 rs2 : VName) (t : Tag) (l : Lanes) : (s.setLanes rd rs1 rs2 t l).cmdData = s.cmdData := rfl
@[simp] theorem State.setLanes_rspValid (rd rs1 rs2 : VName) (t : Tag) (l : Lanes) : (s.setLanes rd rs1 rs2 t l).rspValid = s.rspValid := rfl
@[simp] theorem State.setLanes_rspCode (rd rs1 rs2 : VName) (t : Tag) (l : Lanes) : (s.setLanes rd rs1 rs2 t l).rspCode = s.rspCode := rfl
@[simp] theorem State.setLanes_rspData (rd rs1 rs2 : VName) (t : Tag) (l : Lanes) : (s.setLanes rd rs1 rs2 t l).rspData = s.rspData := rfl
@[simp] theorem State.setLanes_host (rd rs1 rs2 : VName) (t : Tag) (l : Lanes) : (s.setLanes rd rs1 rs2 t l).host = s.host := rfl

/-- A register reads as it was just written. -/
@[simp] theorem VFile.get_set_same (r : VFile) (i : VName) (x : VReg) : (r.set i x).get i = x := by
  cases i <;> rfl

/-- Writing one register leaves every other alone. -/
theorem VFile.get_set_of_ne (r : VFile) {i j : VName} (x : VReg) (h : j ≠ i) : (r.set i x).get j = r.get j := by
  cases i <;> cases j <;> first | rfl | exact absurd rfl h

/-- Two register files that read alike everywhere are one. -/
theorem VFile.ext_get {r r' : VFile} (h : ∀ i, r.get i = r'.get i) : r = r' := by
  obtain ⟨a0, a1, a2, a3, a4, a5, a6, a7⟩ := r
  obtain ⟨b0, b1, b2, b3, b4, b5, b6, b7⟩ := r'
  have h0 : a0 = b0 := h .v0
  have h1 : a1 = b1 := h .v1
  have h2 : a2 = b2 := h .v2
  have h3 : a3 = b3 := h .v3
  have h4 : a4 = b4 := h .v4
  have h5 : a5 = b5 := h .v5
  have h6 : a6 = b6 := h .v6
  have h7 : a7 = b7 := h .v7
  rw [h0, h1, h2, h3, h4, h5, h6, h7]

/-- A format register reads as it was just written. -/
@[simp] theorem FFile.get_set_same (r : FFile) (i : FName) (x : Word) : (r.set i x).get i = x := by
  cases i <;> rfl

/-- Writing one format register leaves every other alone. -/
theorem FFile.get_set_of_ne (r : FFile) {i j : FName} (x : Word) (h : j ≠ i) : (r.set i x).get j = r.get j := by
  cases i <;> cases j <;> first | rfl | exact absurd rfl h

@[simp] theorem State.getV_setV_same (i : VName) (v : Int) (t : Tag) : (s.setV i v t).getV i = ⟨true, v, t⟩ := by
  simp [State.getV]

theorem State.getV_setV_of_ne {i j : VName} (v : Int) (t : Tag) (h : j ≠ i) : (s.setV i v t).getV j = s.getV j := by
  simp [State.getV, VFile.get_set_of_ne _ _ h]

@[simp] theorem State.getF_setF_same (i : FName) (x : Word) : (s.setF i x).getF i = x := by
  simp [State.getF]

theorem State.getF_setF_of_ne {i j : FName} (x : Word) (h : j ≠ i) : (s.setF i x).getF j = s.getF j := by
  simp [State.getF, FFile.get_set_of_ne _ _ h]

@[simp] theorem State.getV_raiseFlags (i : VName) (x : Word) : (s.raiseFlags x).getV i = s.getV i := rfl
@[simp] theorem State.getF_raiseFlags (j : FName) (x : Word) : (s.raiseFlags x).getF j = s.getF j := rfl
@[simp] theorem State.getV_setStatus (i : VName) (x : Word) : (s.setStatus x).getV i = s.getV i := rfl
@[simp] theorem State.getF_setStatus (j : FName) (x : Word) : (s.setStatus x).getF j = s.getF j := rfl
@[simp] theorem State.getV_setHost (i : VName) (h : List HostMove) : (s.setHost h).getV i = s.getV i := rfl
@[simp] theorem State.getF_setHost (j : FName) (h : List HostMove) : (s.setHost h).getF j = s.getF j := rfl
@[simp] theorem State.getV_respond (i : VName) (c : Code) (d : Data) : (s.respond c d).getV i = s.getV i := rfl
@[simp] theorem State.getF_respond (j : FName) (c : Code) (d : Data) : (s.respond c d).getF j = s.getF j := rfl
@[simp] theorem State.getV_abort (i : VName) (x : Word) (c : Code) : (s.abort x c).getV i = s.getV i := rfl
@[simp] theorem State.getF_abort (j : FName) (x : Word) (c : Code) : (s.abort x c).getF j = s.getF j := rfl
@[simp] theorem State.getV_accept (i : VName) (c : Command) : (s.accept c).getV i = s.getV i := rfl
@[simp] theorem State.getF_accept (j : FName) (c : Command) : (s.accept c).getF j = s.getF j := rfl
@[simp] theorem State.getV_idle (i : VName) : (s.idle).getV i = s.getV i := rfl
@[simp] theorem State.getF_idle (j : FName) : (s.idle).getF j = s.getF j := rfl
@[simp] theorem State.getV_setCmp (i : VName) (c : Bool) : (s.setCmp c).getV i = s.getV i := rfl
@[simp] theorem State.getF_setCmp (j : FName) (c : Bool) : (s.setCmp c).getF j = s.getF j := rfl
@[simp] theorem State.getV_clearStatus (i : VName) (m : BitVec 6) : (s.clearStatus m).getV i = s.getV i := rfl
@[simp] theorem State.getF_clearStatus (j : FName) (m : BitVec 6) : (s.clearStatus m).getF j = s.getF j := rfl
@[simp] theorem State.getV_setF (i : VName) (j : FName) (x : Word) : (s.setF j x).getV i = s.getV i := rfl
@[simp] theorem State.getF_setV (j : FName) (i : VName) (v : Int) (t : Tag) : (s.setV i v t).getF j = s.getF j := rfl
@[simp] theorem State.getF_setLanes (j : FName) (rd rs1 rs2 : VName) (t : Tag) (l : Lanes) :
    (s.setLanes rd rs1 rs2 t l).getF j = s.getF j := rfl
@[simp] theorem State.raiseFlags_zero : s.raiseFlags 0#32 = s := by simp [State.raiseFlags]

@[simp] theorem State.abort_eq (x : Word) (c : Code) : (s.raiseFlags x).respond c 0#64 = s.abort x c := rfl

end Sys2Proof.Machine
end

