-- ==== Sys2Proof/Laws/Ops.lean ====
section
/-! SUPPORT. What the shared operations can do: events, the ways a command ends, and the operand reads. -/
namespace Sys2Proof.Machine

variable {α β : Type}

@[simp] theorem Ev.andThen_val (a : α) (k : α → Ev β) : (Ev.val a).andThen k = k a := by
  simp [Ev.andThen, Ev.val]

@[simp] theorem Ev.andThen_raise (x : Word) (c : Code) (k : α → Ev β) :
    (Ev.raise x c : Ev α).andThen k = Ev.raise x c := rfl

@[simp] theorem Ev.andThen_ok (x : Word) (a : α) (k : α → Ev β) :
    (⟨x, .ok a⟩ : Ev α).andThen k = ⟨x ||| (k a).flags, (k a).out⟩ := rfl

@[simp] theorem Ev.andThen_error (x : Word) (c : Code) (k : α → Ev β) :
    (⟨x, .error c⟩ : Ev α).andThen k = ⟨x, .error c⟩ := rfl

/-- A sequence of computations that answers a value has answered one at each stage. -/
theorem Ev.andThen_out_ok {m : Ev α} {k : α → Ev β} {b : β} (h : (m.andThen k).out = .ok b) :
    ∃ a, m.out = .ok a ∧ (k a).out = .ok b ∧ (m.andThen k).flags = m.flags ||| (k a).flags := by
  unfold Ev.andThen at h ⊢
  split at h
  · next a ha => exact ⟨a, ha, by simpa using h, by simp⟩
  · cases h

/-- A sequence of computations that raises has raised at its first stage or after it. -/
theorem Ev.andThen_out_error {m : Ev α} {k : α → Ev β} {c : Code} (h : (m.andThen k).out = .error c) :
    (m.out = .error c ∧ (m.andThen k).flags = m.flags) ∨
    ∃ a, m.out = .ok a ∧ (k a).out = .error c ∧ (m.andThen k).flags = m.flags ||| (k a).flags := by
  unfold Ev.andThen at h ⊢
  split at h
  · next a ha => exact .inr ⟨a, ha, by simpa using h, by simp⟩
  · next c' hc => cases h; exact .inl ⟨hc, by simp⟩

/-- A command that came to a value makes its writes and responds OK. -/
theorem State.finish_ok (s : State) {e : Ev α} {a : α} (write : State → α → State) (rsp : α → Data)
    (h : e.out = .ok a) :
    s.finish e write rsp = .next ((write (s.raiseFlags e.flags) a).respond .ok (rsp a)) := by
  simp [State.finish, h]

/-- A command that raised is aborted. -/
theorem State.finish_error (s : State) {e : Ev α} {c : Code} (write : State → α → State) (rsp : α → Data)
    (h : e.out = .error c) : s.finish e write rsp = .next (s.abort e.flags c) := by
  simp [State.finish, h]

/-- Everything the end of a command can do. -/
theorem State.finish_cases {s t : State} {e : Ev α} {write : State → α → State} {rsp : α → Data}
    (h : s.finish e write rsp = .next t) :
    (∃ a, e.out = .ok a ∧ t = (write (s.raiseFlags e.flags) a).respond .ok (rsp a)) ∨
    (∃ c, e.out = .error c ∧ t = s.abort e.flags c) := by
  unfold State.finish at h
  split at h
  · next a ha => exact .inl ⟨a, ha, by simpa using h.symm⟩
  · next c hc => exact .inr ⟨c, hc, by simpa using h.symm⟩

/-- A valid register reads as its value and tag. -/
theorem State.readV_valid {s : State} {i : VName} {v : Int} {t : Tag} (h : s.getV i = ⟨true, v, t⟩) :
    s.readV i = Ev.val (v, t) := by simp [State.readV, h]

/-- An invalid register cannot be read. -/
theorem State.readV_invalid {s : State} {i : VName} (h : (s.getV i).valid = false) : s.readV i = illegal := by
  simp [State.readV, h]

/-- Two valid registers read as their values and tags. -/
theorem State.read2_valid {s : State} {i j : VName} {A B : Int} {a b : Tag} (hi : s.getV i = ⟨true, A, a⟩)
    (hj : s.getV j = ⟨true, B, b⟩) : s.read2 i j = Ev.val ((A, a), (B, b)) := by
  simp [State.read2, State.readV_valid hi, State.readV_valid hj]

/-- A value in range passes the check with no event. -/
theorem check_of_inRange {r : Int} {t : Tag} (h : inRange r t = true) : check r t = Ev.val r := by
  simp [check, h]

/-- A value out of range overflows under THROW. -/
theorem check_throw {r : Int} {t : Tag} (h : inRange r t = false) (ht : t.op = .throw) :
    check r t = Ev.raise ovf .overflow := by simp [check, h, ht]

/-- A value out of range is wrapped under IGNORE. -/
theorem check_ignore {r : Int} {t : Tag} (h : inRange r t = false) (ht : t.op = .ignore) :
    check r t = ⟨ovf, .ok (wrapW t.w.size t.s r)⟩ := by simp [check, h, ht]

/-- Everything a check can do. -/
theorem check_cases (r : Int) (t : Tag) :
    (inRange r t = true ∧ check r t = Ev.val r) ∨
    (inRange r t = false ∧ t.op = .throw ∧ check r t = Ev.raise ovf .overflow) ∨
    (inRange r t = false ∧ t.op = .ignore ∧ check r t = ⟨ovf, .ok (wrapW t.w.size t.s r)⟩) := by
  cases h : inRange r t
  · cases ht : t.op
    · exact .inr (.inl ⟨rfl, rfl, check_throw h ht⟩)
    · exact .inr (.inr ⟨rfl, rfl, check_ignore h ht⟩)
  · exact .inl ⟨rfl, check_of_inRange h⟩

/-- Everything a conditional underflow can do. -/
theorem underflowIf_cases (c : Bool) (t : Tag) :
    (c = false ∧ underflowIf c t = Ev.val ()) ∨
    (c = true ∧ t.up = .throw ∧ underflowIf c t = Ev.raise unf .underflow) ∨
    (c = true ∧ t.up = .ignore ∧ underflowIf c t = Ev.note unf) := by
  cases c
  · exact .inl ⟨rfl, rfl⟩
  · cases ht : t.up
    · exact .inr (.inl ⟨rfl, rfl, by simp [underflowIf, underflow, ht]⟩)
    · exact .inr (.inr ⟨rfl, rfl, by simp [underflowIf, underflow, ht]⟩)

/-- A conversion that loses nothing and stays in range has no event. -/
theorem normalize_exact {v : Int} {a d : Tag} (hv : vanishes v a d = false)
    (hr : inRange (rescale v a d) d = true) : normalize v a d = Ev.val (rescale v a d) := by
  simp [normalize, underflowIf, hv, check_of_inRange hr]

/-- Converting an in-range value to its own tag returns it with no event (R112, R207). -/
theorem normalize_same {v : Int} {a : Tag} (h : inRange v a = true) : normalize v a a = Ev.val v := by
  have e : rescale v a a = v := by simp [rescale, shl]
  rw [normalize_exact (by simp [vanishes]) (by rwa [e]), e]

/-- Everything a conversion can do. -/
theorem normalize_cases (v : Int) (a d : Tag) :
    (vanishes v a d = false ∧ normalize v a d = check (rescale v a d) d) ∨
    (vanishes v a d = true ∧ d.up = .throw ∧ normalize v a d = Ev.raise unf .underflow) ∨
    (vanishes v a d = true ∧ d.up = .ignore ∧ normalize v a d = (Ev.note unf).andThen fun _ => check (rescale v a d) d) := by
  unfold normalize
  rcases underflowIf_cases (vanishes v a d) d with ⟨h, e⟩ | ⟨h, u, e⟩ | ⟨h, u, e⟩
  · exact .inl ⟨h, by rw [e]; simp⟩
  · exact .inr (.inl ⟨h, u, by rw [e]; rfl⟩)
  · exact .inr (.inr ⟨h, u, by rw [e]⟩)

end Sys2Proof.Machine
end

