-- ==== Sys2Proof/Laws/Events.lean ====
section
/-! SUPPORT. Which STATUS bits and which response codes the events of a computation can have, for each shared
computation once (10_state.md R27; 60_exceptions.md R260 to R264). -/
namespace Sys2Proof.Machine

/-- The bits of `a` are bits of `x`. -/
def BitsIn (a x : Word) : Prop := a &&& ~~~x = 0#32

theorem bitsIn_iff {a x : Word} : BitsIn a x ↔ ∀ k, k < 32 → a.getLsbD k = true → x.getLsbD k = true := by
  constructor
  · intro h k hk ha
    have := congrArg (fun w : Word => w.getLsbD k) h
    simp [hk, ha] at this
    exact this
  · intro h
    apply BitVec.eq_of_getLsbD_eq
    intro k hk
    have := h k hk
    cases ha : a.getLsbD k <;> simp_all

theorem BitsIn.zero (x : Word) : BitsIn 0#32 x := by simp [BitsIn]

theorem BitsIn.refl (x : Word) : BitsIn x x := by simp [BitsIn]

theorem BitsIn.or {a b x : Word} (ha : BitsIn a x) (hb : BitsIn b x) : BitsIn (a ||| b) x := by
  rw [bitsIn_iff] at *
  intro k hk h
  rw [BitVec.getLsbD_or, Bool.or_eq_true] at h
  exact h.elim (ha k hk) (hb k hk)

theorem BitsIn.or_left {a b x : Word} (h : BitsIn x a) : BitsIn x (a ||| b) := by
  rw [bitsIn_iff] at *
  intro k hk hx
  simp [h k hk hx]

theorem BitsIn.or_right {a b x : Word} (h : BitsIn x b) : BitsIn x (a ||| b) := by
  rw [bitsIn_iff] at *
  intro k hk hx
  simp [h k hk hx]

theorem BitsIn.trans {a b c : Word} (h : BitsIn a b) (h' : BitsIn b c) : BitsIn a c := by
  rw [bitsIn_iff] at *
  exact fun k hk ha => h' k hk (h k hk ha)

/-- Bits set within `x` leave the bits outside `x` as they were. -/
theorem or_outside {a f x : Word} (h : BitsIn f x) : (a ||| f) &&& ~~~x = a &&& ~~~x := by
  rw [bitsIn_iff] at h
  apply BitVec.eq_of_getLsbD_eq
  intro k hk
  have := h k hk
  simp only [BitVec.getLsbD_and, BitVec.getLsbD_or, BitVec.getLsbD_not, hk, decide_true, Bool.true_and]
  cases hf : f.getLsbD k <;> simp_all

/-- A computation sets only bits of `x`, and raises only codes of `cs`, each with its own bit set. -/
def Ev.Within {α : Type} (m : Ev α) (x : Word) (cs : List Code) : Prop :=
  BitsIn m.flags x ∧ ∀ c, m.out = .error c → c ∈ cs ∧ c ≠ .ok ∧ BitsIn c.statusBit m.flags

variable {α β : Type}

theorem Ev.within_val (a : α) (x : Word) (cs : List Code) : (Ev.val a).Within x cs :=
  ⟨BitsIn.zero x, fun c h => by cases h⟩

theorem Ev.within_note {f x : Word} (cs : List Code) (h : BitsIn f x) : (Ev.note f).Within x cs :=
  ⟨h, fun c h => by cases h⟩

theorem Ev.Within.andThen {m : Ev α} {k : α → Ev β} {x : Word} {cs : List Code} (hm : m.Within x cs)
    (hk : ∀ a, (k a).Within x cs) : (m.andThen k).Within x cs := by
  unfold Ev.andThen
  split
  · next a ha =>
    exact ⟨hm.1.or (hk a).1, fun c h => ⟨((hk a).2 c h).1, ((hk a).2 c h).2.1, ((hk a).2 c h).2.2.or_right⟩⟩
  · next c' hc => exact ⟨hm.1, fun c h => by cases h; exact hm.2 c' hc⟩

theorem Ev.Within.mono {m : Ev α} {x y : Word} {cs ds : List Code} (h : m.Within x cs) (hx : BitsIn x y)
    (hc : ∀ c ∈ cs, c ∈ ds) : m.Within y ds :=
  ⟨h.1.trans hx, fun c hm => ⟨hc c (h.2 c hm).1, (h.2 c hm).2⟩⟩

theorem within_illegal {x : Word} {cs : List Code} (hx : BitsIn ill x) (hc : Code.illegal ∈ cs) :
    (illegal : Ev α).Within x cs :=
  ⟨hx, fun c h => by cases h; exact ⟨hc, by decide, BitsIn.refl _⟩⟩

theorem within_domainError {x : Word} {cs : List Code} (hx : BitsIn dom x) (hc : Code.domain ∈ cs) :
    (domainError : Ev α).Within x cs :=
  ⟨hx, fun c h => by cases h; exact ⟨hc, by decide, BitsIn.refl _⟩⟩

theorem within_check (r : Int) (t : Tag) {x : Word} {cs : List Code} (hx : BitsIn ovf x)
    (hc : Code.overflow ∈ cs) : (check r t).Within x cs := by
  rcases check_cases r t with ⟨-, h⟩ | ⟨-, -, h⟩ | ⟨-, -, h⟩ <;> rw [h]
  · exact Ev.within_val _ _ _
  · exact ⟨hx, fun c h => by cases h; exact ⟨hc, by decide, BitsIn.refl _⟩⟩
  · exact ⟨hx, fun c h => by cases h⟩

theorem within_underflowIf (c : Bool) (t : Tag) {x : Word} {cs : List Code} (hx : BitsIn unf x)
    (hc : Code.underflow ∈ cs) : (underflowIf c t).Within x cs := by
  rcases underflowIf_cases c t with ⟨-, h⟩ | ⟨-, -, h⟩ | ⟨-, -, h⟩ <;> rw [h]
  · exact Ev.within_val _ _ _
  · exact ⟨hx, fun c h => by cases h; exact ⟨hc, by decide, BitsIn.refl _⟩⟩
  · exact Ev.within_note _ hx

theorem within_readV (s : State) (i : VName) {x : Word} {cs : List Code} (hx : BitsIn ill x)
    (hc : Code.illegal ∈ cs) : (s.readV i).Within x cs := by
  unfold State.readV
  split
  · exact Ev.within_val _ _ _
  · exact within_illegal hx hc

theorem within_read2 (s : State) (i j : VName) {x : Word} {cs : List Code} (hx : BitsIn ill x)
    (hc : Code.illegal ∈ cs) : (s.read2 i j).Within x cs :=
  (within_readV s i hx hc).andThen fun _ => (within_readV s j hx hc).andThen fun _ => Ev.within_val _ _ _

theorem within_normalize (v : Int) (a d : Tag) {x : Word} {cs : List Code} (hu : BitsIn unf x)
    (ho : BitsIn ovf x) (hcu : Code.underflow ∈ cs) (hco : Code.overflow ∈ cs) : (normalize v a d).Within x cs :=
  (within_underflowIf _ _ hu hcu).andThen fun _ => within_check _ _ ho hco

theorem within_sumValue (op : Int → Int → Int) (p q : Int × Tag) {x : Word} {cs : List Code} (hu : BitsIn unf x)
    (ho : BitsIn ovf x) (hcu : Code.underflow ∈ cs) (hco : Code.overflow ∈ cs) : (sumValue op p q).Within x cs :=
  (within_normalize _ _ _ hu ho hcu hco).andThen fun _ => (within_check _ _ ho hco).andThen fun _ =>
    Ev.within_val _ _ _

theorem within_mulValue (p q : Int × Tag) {x : Word} {cs : List Code} (hu : BitsIn unf x)
    (ho : BitsIn ovf x) (ha : BitsIn apx x) (hcu : Code.underflow ∈ cs) (hco : Code.overflow ∈ cs) :
    (mulValue p q).Within x cs := by
  refine Ev.Within.andThen ?_ fun _ => Ev.within_val _ _ _
  split
  · exact within_check _ _ ho hco
  · exact (Ev.within_note _ ha).andThen fun _ => (within_underflowIf _ _ hu hcu).andThen fun _ =>
      within_check _ _ ho hco

theorem within_divValue (p q : Int × Tag) {x : Word} {cs : List Code} (hu : BitsIn unf x)
    (ho : BitsIn ovf x) (ha : BitsIn apx x) (hd : BitsIn dom x) (hcu : Code.underflow ∈ cs)
    (hco : Code.overflow ∈ cs) (hcd : Code.domain ∈ cs) : (divValue p q).Within x cs := by
  unfold divValue
  split
  · exact within_domainError hd hcd
  · refine Ev.Within.andThen ?_ fun _ => Ev.within_val _ _ _
    split
    · exact within_check _ _ ho hco
    · exact (Ev.within_note _ ha).andThen fun _ => (within_underflowIf _ _ hu hcu).andThen fun _ =>
        within_check _ _ ho hco

theorem within_inPlace {m : Ev (Int × Tag)} (a : Tag) {x : Word} {cs : List Code} (hm : m.Within x cs)
    (hu : BitsIn unf x) (ho : BitsIn ovf x) (hcu : Code.underflow ∈ cs) (hco : Code.overflow ∈ cs) :
    (inPlace m a).Within x cs :=
  hm.andThen fun _ => (within_normalize _ _ _ hu ho hcu hco).andThen fun _ => Ev.within_val _ _ _

theorem within_compareValue (f : Int → Int → Bool) (p q : Int × Tag) {x : Word} {cs : List Code}
    (hu : BitsIn unf x) (ho : BitsIn ovf x) (hcu : Code.underflow ∈ cs) (hco : Code.overflow ∈ cs) :
    (compareValue f p q).Within x cs :=
  (within_normalize _ _ _ hu ho hcu hco).andThen fun _ => Ev.within_val _ _ _

theorem within_cordicLanes (c : Coord) (m : Mode) (rd rs1 rs2 : VName) (s : State) {x : Word} {cs : List Code}
    (hi : BitsIn ill x) (ho : BitsIn ovf x) (hci : Code.illegal ∈ cs) (hco : Code.overflow ∈ cs) :
    (cordicLanes c m rd rs1 rs2 s).Within x cs := by
  unfold cordicLanes
  split
  · exact (within_check _ _ ho hco).andThen fun _ => (within_check _ _ ho hco).andThen fun _ =>
      (within_check _ _ ho hco).andThen fun _ => Ev.within_val _ _ _
  · exact within_illegal hi hci

theorem within_lutrdValue (k : BitVec 3) (n : BitVec 12) (t : Tag) {x : Word} {cs : List Code}
    (hi : BitsIn ill x) (ho : BitsIn ovf x) (hci : Code.illegal ∈ cs) (hco : Code.overflow ∈ cs) :
    (lutrdValue k n t).Within x cs := by
  unfold lutrdValue
  split
  · exact within_illegal hi hci
  · split
    · exact (within_check _ _ ho hco).andThen fun _ => Ev.within_val _ _ _
    · exact within_illegal hi hci

theorem within_formatOperand (d : Data) {x : Word} {cs : List Code} (hi : BitsIn ill x)
    (hci : Code.illegal ∈ cs) : (formatOperand d).Within x cs := by
  unfold formatOperand
  split
  · exact Ev.within_val _ _ _
  · exact within_illegal hi hci

end Sys2Proof.Machine
end

