-- ==== Sys2Proof/Laws/Exec.lean ====
section
/-! SUPPORT. Everything an instruction can do, said once: it is aborted, or it responds OK after the writes of its
kind. Each whole-machine statement is a short case analysis over it. -/
namespace Sys2Proof.Machine

/-- The ways a command of some kind ends: `x` the STATUS bits and `cs` the codes of its events, `W` the writes it may
make when it completes with STATUS bits `fl` set. -/
def Ends (s t : State) (x : Word) (cs : List Code) (W : State → Prop) : Prop :=
  (∃ fl c, BitsIn fl x ∧ c ∈ cs ∧ c ≠ .ok ∧ BitsIn c.statusBit fl ∧ t = s.abort fl c) ∨
  (∃ fl u d, BitsIn fl x ∧ W u ∧ t = (u.raiseFlags fl).respond .ok d)

/-- A command that ends through `finish` ends as its computation allows; `write` commutes with setting STATUS bits. -/
theorem ends_finish {α : Type} {s t : State} {e : Ev α} {x : Word} {cs : List Code}
    {write : State → α → State} {rsp : α → Data} {W : State → Prop} (he : e.Within x cs)
    (hw : ∀ fl a, write (s.raiseFlags fl) a = (write s a).raiseFlags fl)
    (hW : ∀ a, e.out = .ok a → W (write s a)) (h : s.finish e write rsp = .next t) : Ends s t x cs W := by
  rcases State.finish_cases h with ⟨a, ha, rfl⟩ | ⟨c, hc, rfl⟩
  · exact .inr ⟨e.flags, write s a, rsp a, he.1, hW a ha, by rw [hw]⟩
  · exact .inl ⟨e.flags, c, he.1, (he.2 c hc).1, (he.2 c hc).2.1, (he.2 c hc).2.2, rfl⟩

/-- A command that writes one value register. -/
theorem ends_finishV {s t : State} {rd : VName} {e : Ev (Int × Tag)} {x : Word} {cs : List Code}
    (he : e.Within x cs) (h : s.finishV rd e = .next t) :
    Ends s t x cs fun u => ∃ v g, e.out = .ok (v, g) ∧ u = s.setV rd v g :=
  ends_finish he (fun _ _ => rfl) (fun a ha => ⟨a.1, a.2, ha, rfl⟩) h

/-- A command that writes no register. -/
theorem ends_finishR {s t : State} {e : Ev Data} {x : Word} {cs : List Code}
    (he : e.Within x cs) (h : s.finishR e = .next t) : Ends s t x cs fun u => u = s :=
  ends_finish he (fun _ _ => rfl) (fun _ _ => rfl) h

/-- A CORDIC command. -/
theorem ends_cordic {s t : State} {c : Coord} {m : Mode} {rd rs1 rs2 : VName} {x : Word} {cs : List Code}
    (he : (cordicLanes c m rd rs1 rs2 s).Within x cs) (h : s.cordic c m rd rs1 rs2 = .next t) :
    Ends s t x cs fun u => ∃ l, (cordicLanes c m rd rs1 rs2 s).out = .ok l ∧
      u = s.setLanes rd rs1 rs2 (s.getV rd).t l :=
  ends_finish he (fun _ _ => rfl) (fun a ha => ⟨a, ha, rfl⟩) h

/-- What a command leaves behind when it completes with OK: its frame, every valid register still valid, and its
sticky bits still set unless it is CLRST. -/
def Kept (i : Instr) (s u : State) : Prop :=
  Frame i s u ∧ (∀ r, (s.getV r).valid = true → (u.getV r).valid = true) ∧
  ((∀ m, i ≠ .clrst m) → BitsIn (s.status &&& stickyMask) u.status)

/-- The two ends of an instruction: an abort by a listed code with its bit set, or OK after a kept state. -/
def Answers (i : Instr) (s t : State) : Prop :=
  (∃ fl c, BitsIn fl (i.statusBits &&& stickyMask) ∧ c ∈ i.codes ∧ c ≠ .ok ∧ BitsIn c.statusBit fl ∧
    t = s.abort fl c) ∨
  (∃ u d, Kept i s u ∧ Code.ok ∈ i.codes ∧ t = u.respond .ok d)

theorem bitsIn_status_or (a fl : Word) : BitsIn (a &&& stickyMask) (a ||| fl) := by
  rw [bitsIn_iff]
  intro k hk h
  rw [BitVec.getLsbD_and, Bool.and_eq_true] at h
  simp [h.1]

theorem bitsIn_and_left {a x y : Word} (h : BitsIn a (x &&& y)) : BitsIn a x := by
  rw [bitsIn_iff] at *
  intro k hk ha
  have := h k hk ha
  rw [BitVec.getLsbD_and, Bool.and_eq_true] at this
  exact this.1

/-- Writing destination registers under bits the rule names keeps the frame. -/
theorem kept_of_writes {i : Instr} {s u : State} {fl : Word} (hfl : BitsIn fl (i.statusBits &&& stickyMask))
    (hv : ∀ r, r ∉ i.dests → u.getV r = s.getV r) (hvalid : ∀ r, (s.getV r).valid = true → (u.getV r).valid = true)
    (hf : ∀ j, j ∉ i.formatDests → u.getF j = s.getF j) (hs : u.status = s.status) (hc : u.cmd = s.cmd)
    (hd : u.cmdData = s.cmdData) (hh : u.host = s.host) : Kept i s (u.raiseFlags fl) :=
  ⟨⟨hv, hf, by simp [hs, or_outside (bitsIn_and_left hfl)], hc, hd, hh⟩, hvalid,
    fun _ => by simp [hs, bitsIn_status_or]⟩

theorem setV_valid (s : State) (i r : VName) (v : Int) (g : Tag) (h : (s.getV r).valid = true) :
    ((s.setV i v g).getV r).valid = true := by
  by_cases e : r = i
  · subst e; simp
  · rw [State.getV_setV_of_ne _ _ _ e]; exact h

/-- A command that writes one value register. -/
theorem answers_finishV {i : Instr} {s t : State} {rd : VName} {e : Ev (Int × Tag)}
    (he : e.Within (i.statusBits &&& stickyMask) i.codes) (hd : rd ∈ i.dests) (hok : Code.ok ∈ i.codes)
    (h : s.finishV rd e = .next t) : Answers i s t := by
  rcases ends_finishV he h with ⟨fl, c, h1, h2, h3, h4, h5⟩ | ⟨fl, u, d, hfl, ⟨v, g, -, rfl⟩, rfl⟩
  · exact .inl ⟨fl, c, h1, h2, h3, h4, h5⟩
  · refine .inr ⟨_, d, kept_of_writes hfl (fun r hr => ?_) (fun r => setV_valid s rd r v g) (fun j _ => rfl) rfl rfl rfl rfl, hok, rfl⟩
    exact State.getV_setV_of_ne _ _ _ (fun hrd => hr (by rw [hrd]; exact hd))

/-- A command that writes no register. -/
theorem answers_finishR {i : Instr} {s t : State} {e : Ev Data}
    (he : e.Within (i.statusBits &&& stickyMask) i.codes) (hok : Code.ok ∈ i.codes)
    (h : s.finishR e = .next t) : Answers i s t := by
  rcases ends_finishR he h with ⟨fl, c, h1, h2, h3, h4, h5⟩ | ⟨fl, u, d, hfl, rfl, rfl⟩
  · exact .inl ⟨fl, c, h1, h2, h3, h4, h5⟩
  · exact .inr ⟨_, d, kept_of_writes hfl (fun _ _ => rfl) (fun _ h => h) (fun _ _ => rfl) rfl rfl rfl rfl, hok, rfl⟩

/-- A CORDIC command. -/
theorem answers_cordic {i : Instr} {s t : State} {c : Coord} {m : Mode} {rd rs1 rs2 : VName}
    (he : (cordicLanes c m rd rs1 rs2 s).Within (i.statusBits &&& stickyMask) i.codes)
    (hd : rd ∈ i.dests ∧ rs1 ∈ i.dests ∧ rs2 ∈ i.dests) (hok : Code.ok ∈ i.codes)
    (h : s.cordic c m rd rs1 rs2 = .next t) : Answers i s t := by
  rcases ends_cordic he h with ⟨fl, c, h1, h2, h3, h4, h5⟩ | ⟨fl, u, d, hfl, ⟨l, -, rfl⟩, rfl⟩
  · exact .inl ⟨fl, c, h1, h2, h3, h4, h5⟩
  · refine .inr ⟨(s.setLanes rd rs1 rs2 (s.getV rd).t l).raiseFlags fl, d,
      kept_of_writes hfl (fun r hr => ?_) (fun r hr => ?_) (fun j _ => rfl) rfl rfl rfl rfl, hok, rfl⟩
    · unfold State.setLanes
      rw [State.getV_setV_of_ne _ _ _ (fun e => hr (by rw [e]; exact hd.2.2)),
        State.getV_setV_of_ne _ _ _ (fun e => hr (by rw [e]; exact hd.2.1)), State.getV_setV_of_ne _ _ _ (fun e => hr (by rw [e]; exact hd.1))]
    · exact setV_valid _ _ _ _ _ (setV_valid _ _ _ _ _ (setV_valid _ _ _ _ _ hr))

theorem setCmp_outside (a fl x : Word) (b : Bool) (hfl : BitsIn fl x) (hc : BitsIn cmpBit x) :
    (((a ||| fl) &&& ~~~cmpBit) ||| (if b then cmpBit else 0#32)) &&& ~~~x = a &&& ~~~x := by
  rw [bitsIn_iff] at hfl hc
  apply BitVec.eq_of_getLsbD_eq
  intro k hk
  have h1 := hfl k hk
  have h2 := hc k hk
  simp only [BitVec.getLsbD_and, BitVec.getLsbD_or, BitVec.getLsbD_not, hk, decide_true, Bool.true_and]
  cases hf : fl.getLsbD k <;> cases hcc : cmpBit.getLsbD k <;> cases b <;> simp_all

theorem setCmp_sticky (a fl : Word) (b : Bool) :
    BitsIn (a &&& stickyMask) (((a ||| fl) &&& ~~~cmpBit) ||| (if b then cmpBit else 0#32)) := by
  rw [bitsIn_iff]
  intro k hk h
  simp only [BitVec.getLsbD_and, BitVec.getLsbD_or, BitVec.getLsbD_not, hk, decide_true, Bool.true_and,
    Bool.and_eq_true, Bool.or_eq_true] at h ⊢
  left
  refine ⟨.inl h.1, ?_⟩
  have : ∀ k, k < 32 → stickyMask.getLsbD k = true → (!cmpBit.getLsbD k) = true := by decide
  exact this k hk h.2

/-- A comparison. -/
theorem answers_finishC {i : Instr} {s t : State} {e : Ev Bool}
    (he : e.Within (i.statusBits &&& stickyMask) i.codes) (hc : BitsIn cmpBit i.statusBits) (hok : Code.ok ∈ i.codes)
    (h : s.finishC e = .next t) : Answers i s t := by
  rcases State.finish_cases h with ⟨a, ha, rfl⟩ | ⟨c, hc', rfl⟩
  · exact .inr ⟨(s.raiseFlags e.flags).setCmp a, _, ⟨⟨fun _ _ => rfl, fun _ _ => rfl, setCmp_outside _ _ _ _ (bitsIn_and_left he.1) hc, rfl, rfl, rfl⟩,
      fun _ h => h, fun _ => setCmp_sticky _ _ _⟩, hok, rfl⟩
  · exact .inl ⟨e.flags, c, he.1, (he.2 c hc').1, (he.2 c hc').2.1, (he.2 c hc').2.2, rfl⟩

/-- SETFMT. -/
theorem answers_setfmt {s t : State} {fs : FName} (h : execSetfmt fs s = .next t) : Answers (.setfmt fs) s t := by
  have he : (formatOperand s.cmdData).Within ((Instr.setfmt fs).statusBits &&& stickyMask) (Instr.setfmt fs).codes :=
    within_formatOperand _ (by simp [BitsIn, Instr.statusBits, stickyMask, ill]) (by simp [Instr.codes])
  rcases State.finish_cases h with ⟨a, ha, rfl⟩ | ⟨c, hc', rfl⟩
  · refine .inr ⟨_, _, kept_of_writes (u := s.setF fs a) he.1 (fun _ _ => rfl) (fun _ h => h) (fun j hj => ?_) rfl rfl rfl rfl, (by simp [Instr.codes]), rfl⟩
    exact State.getF_setF_of_ne _ _ (fun e => hj (by simp [e, Instr.formatDests]))
  · exact .inl ⟨_, c, he.1, (he.2 c hc').1, (he.2 c hc').2.1, (he.2 c hc').2.2, rfl⟩

/-- CLRST. -/
theorem answers_clrst {s t : State} {m : BitVec 6} (h : execClrst m s = .next t) : Answers (.clrst m) s t := by
  rcases State.finish_cases h with ⟨a, ha, rfl⟩ | ⟨c, hc', rfl⟩
  · cases ha
    refine .inr ⟨(s.raiseFlags (Ev.val m).flags).clearStatus m, _,
      ⟨⟨fun _ _ => rfl, fun _ _ => rfl, ?_, rfl, rfl, rfl⟩, fun _ h => h, fun hm => absurd rfl (hm m)⟩, (by simp [Instr.codes]), rfl⟩
    apply BitVec.eq_of_getLsbD_eq
    intro k hk
    simp only [State.clearStatus_status, State.raiseFlags_status, Ev.val, Instr.statusBits, BitVec.getLsbD_and,
      BitVec.getLsbD_or, BitVec.getLsbD_not, hk, decide_true, Bool.true_and]
    cases s.status.getLsbD k <;> cases (m.setWidth 32).getLsbD k <;> simp
  · cases hc'

/-- Everything an instruction can do: it is aborted with a listed code, or it responds OK with its frame kept. -/
theorem exec_answers {i : Instr} {s t : State} (h : exec i s = .next t) : Answers i s t := by
  cases i <;> simp only [exec] at h
  case setfmt => exact answers_setfmt h
  case clrst => exact answers_clrst h
  case nop | rdfmt | rdst => exact answers_finishR (Ev.within_val _ _ _) (by simp [Instr.codes]) h
  case wrap | fromint =>
    refine answers_finishV ((within_check _ _ ?_ ?_).andThen fun _ => Ev.within_val _ _ _) ?_ ?_ h
      <;> first | (simp only [BitsIn, Instr.statusBits]; decide) | simp [Instr.codes, Instr.dests]
  case rdv | rdtag =>
    refine answers_finishR ((within_readV _ _ ?_ ?_).andThen fun _ => Ev.within_val _ _ _) ?_ h
      <;> first | (simp only [BitsIn, Instr.statusBits]; decide) | simp [Instr.codes]
  case mov =>
    refine answers_finishV (within_readV _ _ ?_ ?_) ?_ ?_ h
      <;> first | (simp only [BitsIn, Instr.statusBits]; decide) | simp [Instr.codes, Instr.dests]
  case cvt =>
    refine answers_finishV ((within_readV _ _ ?_ ?_).andThen fun _ => (within_normalize _ _ _ ?_ ?_ ?_ ?_).andThen
      fun _ => Ev.within_val _ _ _) ?_ ?_ h
      <;> first | (simp only [BitsIn, Instr.statusBits]; decide) | simp [Instr.codes, Instr.dests]
  case add | sub =>
    refine answers_finishV ((within_read2 _ _ _ ?_ ?_).andThen fun _ => within_sumValue _ _ _ ?_ ?_ ?_ ?_) ?_ ?_ h
      <;> first | (simp only [BitsIn, Instr.statusBits]; decide) | simp [Instr.codes, Instr.dests]
  case mul =>
    refine answers_finishV ((within_read2 _ _ _ ?_ ?_).andThen fun _ => within_mulValue _ _ ?_ ?_ ?_ ?_ ?_) ?_ ?_ h
      <;> first | (simp only [BitsIn, Instr.statusBits]; decide) | simp [Instr.codes, Instr.dests]
  case div =>
    refine answers_finishV ((within_read2 _ _ _ ?_ ?_).andThen fun _ =>
      within_divValue _ _ ?_ ?_ ?_ ?_ ?_ ?_ ?_) ?_ ?_ h
      <;> first | (simp only [BitsIn, Instr.statusBits]; decide) | simp [Instr.codes, Instr.dests]
  case neg =>
    refine answers_finishV ((within_readV _ _ ?_ ?_).andThen fun _ => (within_check _ _ ?_ ?_).andThen fun _ =>
      Ev.within_val _ _ _) ?_ ?_ h
      <;> first | (simp only [BitsIn, Instr.statusBits]; decide) | simp [Instr.codes, Instr.dests]
  case adda | suba =>
    refine answers_finishV ((within_read2 _ _ _ ?_ ?_).andThen fun _ =>
      within_inPlace _ (within_sumValue _ _ _ ?_ ?_ ?_ ?_) ?_ ?_ ?_ ?_) ?_ ?_ h
      <;> first | (simp only [BitsIn, Instr.statusBits]; decide) | simp [Instr.codes, Instr.dests]
  case mula =>
    refine answers_finishV ((within_read2 _ _ _ ?_ ?_).andThen fun _ =>
      within_inPlace _ (within_mulValue _ _ ?_ ?_ ?_ ?_ ?_) ?_ ?_ ?_ ?_) ?_ ?_ h
      <;> first | (simp only [BitsIn, Instr.statusBits]; decide) | simp [Instr.codes, Instr.dests]
  case diva =>
    refine answers_finishV ((within_read2 _ _ _ ?_ ?_).andThen fun _ =>
      within_inPlace _ (within_divValue _ _ ?_ ?_ ?_ ?_ ?_ ?_ ?_) ?_ ?_ ?_ ?_) ?_ ?_ h
      <;> first | (simp only [BitsIn, Instr.statusBits]; decide) | simp [Instr.codes, Instr.dests]
  case lutrd =>
    refine answers_finishV (within_lutrdValue _ _ _ ?_ ?_ ?_ ?_) ?_ ?_ h
      <;> first | (simp only [BitsIn, Instr.statusBits]; decide) | simp [Instr.codes, Instr.dests]
  case crotc | croth | cvecc | cvech =>
    refine answers_cordic (within_cordicLanes _ _ _ _ _ _ ?_ ?_ ?_ ?_) ?_ ?_ h
      <;> first | (simp only [BitsIn, Instr.statusBits]; decide) | simp [Instr.codes, Instr.dests]
  case cmpEq | cmpNe | cmpLt | cmpLe | cmpGt | cmpGe =>
    refine answers_finishC ((within_read2 _ _ _ ?_ ?_).andThen fun _ => within_compareValue _ _ _ ?_ ?_ ?_ ?_) ?_ ?_ h
      <;> first | (simp only [BitsIn, Instr.statusBits]; decide) | simp [Instr.codes]

end Sys2Proof.Machine
end

