-- ==== Sys2Proof/Laws/Numeric.lean ====
section
/-! SUPPORT. Ranges, widths and promotions: what a check or a conversion lets through under a legal tag is a legal
stored value, and a promotion of a legal tag is legal (10_state.md R22, R26; 40_numeric_primitives.md R103, R111,
R112, R120 to R125). The primitives in the rules' own terms (R6, R104, R105, R126, R128), and what WRAP reads
(30_encoding.md R93; 41_transfer.md R143). -/
namespace Sys2Proof.Machine

/-- R101 -/
theorem inRange_iff {v : Int} {t : Tag} : inRange v t = true ↔ least t ≤ v ∧ v ≤ largest t := by
  simp [inRange]

/-- R101 -/
theorem inRange_eq_false_iff {v : Int} {t : Tag} : inRange v t = false ↔ v < least t ∨ largest t < v := by
  rw [← Bool.not_eq_true, inRange_iff]; omega

theorem Width.one_le_size (w : Width) : 1 ≤ w.size := by cases w <;> simp [Width.size]

/-- `wrap_W` lands in the W-bit range (R103). -/
theorem fitsWidth_wrapW (v : Int) (t : Tag) : fitsWidth (wrapW t.w.size t.s v) t = true := by
  have hw := Width.one_le_size t.w
  obtain ⟨k, hk⟩ : ∃ k, t.w.size = k + 1 := ⟨t.w.size - 1, by omega⟩
  have e : (2 : Int) ^ (k + 1) = 2 * 2 ^ k := by rw [pow_succ]; ring
  have p : (0 : Int) < 2 ^ k := by positivity
  unfold fitsWidth wrapW
  rw [hk, Nat.add_sub_cancel, e]
  have h0 := Int.emod_nonneg v (show (2 * 2 ^ k : Int) ≠ 0 by omega)
  have h1 := Int.emod_lt_of_pos v (show (0 : Int) < 2 * 2 ^ k by omega)
  cases t.s
  · simp only [Bool.false_and, Bool.false_eq_true, if_false, Bool.and_eq_true, decide_eq_true_eq]
    constructor <;> omega
  · simp only [Bool.true_and, if_true, decide_eq_true_eq, Bool.and_eq_true]
    split <;> constructor <;> omega

/-- A legal tag's range lies in its storage width (R26, R101). -/
theorem fitsWidth_of_inRange {v : Int} {t : Tag} (ht : t.legal = true) (h : inRange v t = true) :
    fitsWidth v t = true := by
  obtain ⟨⟨⟨h1, -⟩, -⟩, -⟩ : ((t.n + t.f + t.sBits ≤ t.w.size ∧ _) ∧ _) ∧ _ := by
    simpa only [Tag.legal, Bool.and_eq_true, decide_eq_true_eq] using ht
  unfold Tag.sBits at h1
  rw [inRange_iff] at h
  unfold least largest at h
  unfold fitsWidth
  cases hs : t.s
  · simp only [hs, Bool.false_eq_true, if_false] at h h1
    have := pow_le_pow_right₀ (show (1 : Int) ≤ 2 by norm_num) (show t.n + t.f ≤ t.w.size by omega)
    simp only [Bool.false_eq_true, if_false, Bool.and_eq_true, decide_eq_true_eq]
    constructor <;> omega
  · simp only [hs, if_true] at h h1
    have := pow_le_pow_right₀ (show (1 : Int) ≤ 2 by norm_num) (show t.n + t.f ≤ t.w.size - 1 by omega)
    simp only [if_true, Bool.and_eq_true, decide_eq_true_eq]
    constructor <;> omega

/-- What a check lets through under a legal tag is a legal stored value (R22, R111). -/
theorem ok_of_check {r v : Int} {t : Tag} (ht : t.legal = true) (h : (check r t).out = .ok v) :
    (⟨true, v, t⟩ : VReg).Ok := by
  intro _
  rcases check_cases r t with ⟨hr, e⟩ | ⟨hr, ho, e⟩ | ⟨hr, ho, e⟩ <;> rw [e] at h <;> cases h
  · exact ⟨ht, fitsWidth_of_inRange ht hr, fun _ => hr⟩
  · exact ⟨ht, fitsWidth_wrapW _ _, fun h => by rw [ho] at h; cases h⟩

/-- The native width chosen for at most 64 bits holds them (R120). -/
theorem le_size_nativeW {b : Nat} (h : b ≤ 64) : b ≤ (nativeW b).size := by
  unfold nativeW; split
  · simpa [Width.size]
  · split
    · simpa [Width.size]
    · split <;> simpa [Width.size]

/-- A promotion to a candidate with a bit of precision is legal (R121). -/
theorem promote_legal {c : Candidate} {a : Tag} (ha : a.legal = true) (hc : 1 ≤ c.n + c.f) :
    (promote c a).1.legal = true := by
  unfold promote
  split
  · next h =>
    simp only [Candidate.expandable, Bool.and_eq_true, decide_eq_true_eq] at h
    have := le_size_nativeW (b := c.req) h.1.1
    simp only [Tag.legal, Bool.and_eq_true, decide_eq_true_eq]
    exact ⟨⟨⟨this, hc⟩, h.1.2⟩, h.2⟩
  · exact ha

/-- A legal tag has a bit of precision (R26). -/
theorem one_le_of_legal {a : Tag} (h : a.legal = true) : 1 ≤ a.n + a.f := by
  simp only [Tag.legal, Bool.and_eq_true, decide_eq_true_eq] at h; exact h.1.1.2

/-- R123 -/
theorem sumTag_legal {a b : Tag} (ha : a.legal = true) : (sumTag a b).1.legal = true :=
  promote_legal ha (by show 1 ≤ a.n + 1 + a.f; omega)

/-- R124 -/
theorem prodTag_legal {a b : Tag} (ha : a.legal = true) : (prodTag a b).1.legal = true :=
  promote_legal ha (by have := one_le_of_legal ha; show 1 ≤ a.n + b.n + (a.f + b.f); omega)

/-- R125 -/
theorem quotTag_legal {a b : Tag} (ha : a.legal = true) : (quotTag a b).1.legal = true :=
  promote_legal ha (by have := one_le_of_legal ha; show 1 ≤ a.n + b.f + (a.f + b.n); omega)

/-- What a conversion lets through under a legal tag is a legal stored value (R22, R112). -/
theorem ok_of_normalize {r v : Int} {a d : Tag} (ht : d.legal = true) (h : (normalize r a d).out = .ok v) :
    (⟨true, v, d⟩ : VReg).Ok := by
  obtain ⟨_, -, h, -⟩ := Ev.andThen_out_ok h
  exact ok_of_check ht h

/-- A promotion that is not expandable keeps the left operand's tag (R121). -/
theorem promote_fst_of_false {c : Candidate} {a : Tag} (h : (promote c a).2 = false) : (promote c a).1 = a := by
  unfold promote at h ⊢; split <;> simp_all

/-! `asr`, the dropped bits and RHA in the rules' own terms. -/

/-- `asr(v, k)` is the floor of the quotient (R6). -/
theorem asr_eq_floor (v : Int) (k : Nat) : asr v k = ⌊(v : ℚ) / 2 ^ k⌋ := by
  have := Rat.floor_intCast_div_natCast v (2 ^ k)
  push_cast at this
  rw [this]; rfl

/-- The bits `MulFallback` drops, in R126's words. -/
theorem mulDrop_cast (a b : Tag) : (mulDrop a b : Int) =
    min (max ((a.n + b.n : Int) + (a.f + b.f) + (if a.s || b.s then 1 else 0) - 64) 0) b.f := by
  unfold mulDrop eitherSigned Config.wmax
  split <;> push_cast <;> omega

/-- The bits `DivFallback` drops, in R128's words: `bitlen(|B|) - 1` is `floor(log2 |B|)`. -/
theorem divDrop_cast (a b : Tag) (B : Int) : (divDrop a B b : Int) =
    min (min (max ((a.n : Int) + a.f + (if a.s || b.s then 1 else 0) + max b.point 0 - 64) 0) b.f) (Nat.log 2 B.natAbs) := by
  unfold divDrop eitherSigned Config.wmax
  rw [Nat.log2_eq_log_two]
  split <;> push_cast <;> omega

/-- RHA of a nonnegative real from its bounds (R104). -/
theorem rhaReal_eq {x : ℝ} {n : Int} (h0 : 0 ≤ x) (h1 : (n : ℝ) ≤ x + 1 / 2) (h2 : x + 1 / 2 < n + 1) :
    rhaReal x = n := by
  rw [rhaReal, if_pos h0, Int.floor_eq_iff]; exact ⟨h1, h2⟩

/-- RHA of a rational is RHA of the same real (R104). -/
theorem rhaReal_ratCast (q : ℚ) : rhaReal (q : ℝ) = rha q := by
  unfold rhaReal rha
  have e (p : ℚ) : ⌊(p : ℝ) + 1 / 2⌋ = (p + 1 / 2).floor := by
    have h := Rat.floor_cast (α := ℝ) (p + 1 / 2)
    push_cast at h; exact h
  have e' := e (-q)
  push_cast at e'
  rw [e, e']
  simp only [Rat.cast_nonneg]

/-- The stored integer of a rational (R105). -/
theorem fromRealV_ratCast (q : ℚ) (t : Tag) : fromRealV (q : ℝ) t = rha (q * 2 ^ t.point) := by
  rw [fromRealV, ← rhaReal_ratCast]; push_cast; rfl

/-- FROMREAL of a rational is the function that can be evaluated (R105). -/
theorem fromReal_ratCast (q : ℚ) (t : Tag) : fromReal (q : ℝ) t = fromRational q t := by
  rw [fromReal, fromRealV_ratCast, fromRational]

/-! The checks of two integers that WRAP cannot tell apart. -/

/-- `wrap_W` sees the residue alone (R103). -/
theorem wrapW_congr {a b : Int} (w : Nat) (sg : Bool) (h : a % 2 ^ w = b % 2 ^ w) : wrapW w sg a = wrapW w sg b := by
  unfold wrapW; rw [h]

/-- Two integers out of range with one residue are checked alike (R111). -/
theorem check_congr {a b : Int} {t : Tag} (ha : inRange a t = false) (hb : inRange b t = false)
    (h : a % 2 ^ t.w.size = b % 2 ^ t.w.size) : check a t = check b t := by
  rcases check_cases a t with ⟨h1, e1⟩ | ⟨_, ho, e1⟩ | ⟨_, ho, e1⟩
  · rw [ha] at h1; cases h1
  · rcases check_cases b t with ⟨h2, e2⟩ | ⟨_, ho', e2⟩ | ⟨_, ho', e2⟩
    · rw [hb] at h2; cases h2
    · rw [e1, e2]
    · rw [ho] at ho'; cases ho'
  · rcases check_cases b t with ⟨h2, e2⟩ | ⟨_, ho', e2⟩ | ⟨_, ho', e2⟩
    · rw [hb] at h2; cases h2
    · rw [ho] at ho'; cases ho'
    · rw [e1, e2, wrapW_congr _ _ h]

/-- The integer WRAP reads from a data operand has its residue (R143). -/
theorem dataInt_mod (t : Tag) (d : Data) : dataInt t d % 2 ^ 64 = d.toNat := by
  unfold dataInt
  have h := d.isLt
  split
  · rw [BitVec.toInt_eq_toNat_cond]; split <;> omega
  · omega

/-- The integer WRAP reads from the word of r has r's residue (R143). -/
theorem dataInt_ofInt (t : Tag) (r : Int) : dataInt t (dataOfInt r) % 2 ^ 64 = r % 2 ^ 64 := by
  rw [dataInt_mod, dataOfInt, BitVec.toNat_ofInt]
  norm_num
  omega

/-- The 64-bit range of the integer WRAP reads (R143). -/
theorem dataInt_range (t : Tag) (d : Data) : (t.s = true → -2 ^ 63 ≤ dataInt t d ∧ dataInt t d < 2 ^ 63) ∧
    (t.s = false → 0 ≤ dataInt t d ∧ dataInt t d < 2 ^ 64) := by
  have h := d.isLt
  have := d.toInt_lt; have := d.le_toInt
  unfold dataInt
  constructor <;> intro hs <;> simp only [hs, if_true, Bool.false_eq_true, if_false]
  · constructor <;> simpa using ‹_›
  · constructor <;> [skip; exact_mod_cast h]
    positivity

/-- The operand LDQ takes is checked as its stored integer is (R93). -/
theorem check_ldqOperand {r : Int} {t : Tag} {d : Data} (h : ldqOperand r t = some d) :
    check (dataInt t d) t = check r t :=
  of_decide_eq_true (List.find?_some (p := fun d => decide (check (dataInt t d) t = check r t)) h)

end Sys2Proof.Machine
end

