-- ==== Sys2Proof/Laws/PerInstr.lean ====
section
/-! SUPPORT. Per-instruction law TableRow: the command word of every instruction, at every value of its operands,
is covered by the row of spec/opcode_table.json that bears its mnemonic (30_encoding.md R79, R83). -/
namespace Sys2Proof.Laws.TableRow

/-- The word of an instruction is covered by the row of its mnemonic. -/
def Statement (i : Instr) : Prop := ∃ r ∈ opcodeRows, r.mnemonic = i.mnemonic ∧ r.covers (encode i) = true

/-- The statement from the place of the row and the seven fields of the word. -/
theorem of_fields (i : Instr) (n : Nat) (r : Row) (hr : opcodeRows[n]? = some r) (hm : r.mnemonic = i.mnemonic)
    (h : i.fields.opc &&& (Fields.ofWord r.mask).opc = (Fields.ofWord r.pat).opc ∧
      i.fields.rd &&& (Fields.ofWord r.mask).rd = (Fields.ofWord r.pat).rd ∧
      i.fields.rs1 &&& (Fields.ofWord r.mask).rs1 = (Fields.ofWord r.pat).rs1 ∧
      i.fields.rs2 &&& (Fields.ofWord r.mask).rs2 = (Fields.ofWord r.pat).rs2 ∧
      i.fields.fs &&& (Fields.ofWord r.mask).fs = (Fields.ofWord r.pat).fs ∧
      i.fields.sub &&& (Fields.ofWord r.mask).sub = (Fields.ofWord r.pat).sub ∧
      i.fields.imm &&& (Fields.ofWord r.mask).imm = (Fields.ofWord r.pat).imm) : Statement i :=
  ⟨r, List.mem_of_getElem? hr, hm, (Row.covers_iff r _).2 (by simpa [encode] using h)⟩

theorem nop : Statement (.nop) :=
  of_fields _ 0 _ rfl rfl (by decide)
theorem setfmt (fs : FName) : Statement (.setfmt fs) :=
  of_fields _ 1 _ rfl rfl (by cases fs <;> decide)
theorem rdfmt (fs : FName) : Statement (.rdfmt fs) :=
  of_fields _ 2 _ rfl rfl (by cases fs <;> decide)
theorem wrap (rd : VName) (fs : FName) : Statement (.wrap rd fs) :=
  of_fields _ 3 _ rfl rfl (by cases rd <;> cases fs <;> decide)
theorem fromint (rd : VName) (fs : FName) : Statement (.fromint rd fs) :=
  of_fields _ 4 _ rfl rfl (by cases rd <;> cases fs <;> decide)
theorem rdv (rs1 : VName) : Statement (.rdv rs1) :=
  of_fields _ 5 _ rfl rfl (by cases rs1 <;> decide)
theorem rdtag (rs1 : VName) : Statement (.rdtag rs1) :=
  of_fields _ 6 _ rfl rfl (by cases rs1 <;> decide)
theorem mov (rd : VName) (rs1 : VName) : Statement (.mov rd rs1) :=
  of_fields _ 7 _ rfl rfl (by cases rd <;> cases rs1 <;> decide)
theorem cvt (rd : VName) (rs1 : VName) (fs : FName) : Statement (.cvt rd rs1 fs) :=
  of_fields _ 8 _ rfl rfl (by cases rd <;> cases rs1 <;> cases fs <;> decide)
theorem add (rd : VName) (rs1 : VName) (rs2 : VName) : Statement (.add rd rs1 rs2) :=
  of_fields _ 9 _ rfl rfl (by cases rd <;> cases rs1 <;> cases rs2 <;> decide)
theorem sub (rd : VName) (rs1 : VName) (rs2 : VName) : Statement (.sub rd rs1 rs2) :=
  of_fields _ 10 _ rfl rfl (by cases rd <;> cases rs1 <;> cases rs2 <;> decide)
theorem mul (rd : VName) (rs1 : VName) (rs2 : VName) : Statement (.mul rd rs1 rs2) :=
  of_fields _ 11 _ rfl rfl (by cases rd <;> cases rs1 <;> cases rs2 <;> decide)
theorem div (rd : VName) (rs1 : VName) (rs2 : VName) : Statement (.div rd rs1 rs2) :=
  of_fields _ 12 _ rfl rfl (by cases rd <;> cases rs1 <;> cases rs2 <;> decide)
theorem neg (rd : VName) (rs1 : VName) : Statement (.neg rd rs1) :=
  of_fields _ 13 _ rfl rfl (by cases rd <;> cases rs1 <;> decide)
theorem adda (rd : VName) (rs2 : VName) : Statement (.adda rd rs2) :=
  of_fields _ 14 _ rfl rfl (by cases rd <;> cases rs2 <;> decide)
theorem suba (rd : VName) (rs2 : VName) : Statement (.suba rd rs2) :=
  of_fields _ 15 _ rfl rfl (by cases rd <;> cases rs2 <;> decide)
theorem mula (rd : VName) (rs2 : VName) : Statement (.mula rd rs2) :=
  of_fields _ 16 _ rfl rfl (by cases rd <;> cases rs2 <;> decide)
theorem diva (rd : VName) (rs2 : VName) : Statement (.diva rd rs2) :=
  of_fields _ 17 _ rfl rfl (by cases rd <;> cases rs2 <;> decide)
theorem cmpEq (rs1 : VName) (rs2 : VName) : Statement (.cmpEq rs1 rs2) :=
  of_fields _ 18 _ rfl rfl (by cases rs1 <;> cases rs2 <;> decide)
theorem cmpNe (rs1 : VName) (rs2 : VName) : Statement (.cmpNe rs1 rs2) :=
  of_fields _ 19 _ rfl rfl (by cases rs1 <;> cases rs2 <;> decide)
theorem cmpLt (rs1 : VName) (rs2 : VName) : Statement (.cmpLt rs1 rs2) :=
  of_fields _ 20 _ rfl rfl (by cases rs1 <;> cases rs2 <;> decide)
theorem cmpLe (rs1 : VName) (rs2 : VName) : Statement (.cmpLe rs1 rs2) :=
  of_fields _ 21 _ rfl rfl (by cases rs1 <;> cases rs2 <;> decide)
theorem cmpGt (rs1 : VName) (rs2 : VName) : Statement (.cmpGt rs1 rs2) :=
  of_fields _ 22 _ rfl rfl (by cases rs1 <;> cases rs2 <;> decide)
theorem cmpGe (rs1 : VName) (rs2 : VName) : Statement (.cmpGe rs1 rs2) :=
  of_fields _ 23 _ rfl rfl (by cases rs1 <;> cases rs2 <;> decide)
theorem crotc (rd : VName) (rs1 : VName) (rs2 : VName) : Statement (.crotc rd rs1 rs2) :=
  of_fields _ 24 _ rfl rfl (by cases rd <;> cases rs1 <;> cases rs2 <;> decide)
theorem croth (rd : VName) (rs1 : VName) (rs2 : VName) : Statement (.croth rd rs1 rs2) :=
  of_fields _ 25 _ rfl rfl (by cases rd <;> cases rs1 <;> cases rs2 <;> decide)
theorem cvecc (rd : VName) (rs1 : VName) (rs2 : VName) : Statement (.cvecc rd rs1 rs2) :=
  of_fields _ 26 _ rfl rfl (by cases rd <;> cases rs1 <;> cases rs2 <;> decide)
theorem cvech (rd : VName) (rs1 : VName) (rs2 : VName) : Statement (.cvech rd rs1 rs2) :=
  of_fields _ 27 _ rfl rfl (by cases rd <;> cases rs1 <;> cases rs2 <;> decide)
theorem lutrd (rd : VName) (fs : FName) (kind : BitVec 3) (imm : BitVec 12) : Statement (.lutrd rd fs kind imm) :=
  of_fields _ 28 _ rfl rfl (by simp [Instr.fields, mkFields, Opcode.bits, Fields.ofWord])
theorem rdst : Statement (.rdst) :=
  of_fields _ 29 _ rfl rfl (by decide)
theorem clrst (mask : BitVec 6) : Statement (.clrst mask) :=
  of_fields _ 30 _ rfl rfl (by revert mask; decide)

end Sys2Proof.Laws.TableRow
end

