-- ==== Sys2Proof/Laws/Rom.lean ====
section
/-! SUPPORT. The LUT ROM against the exact reals it stands for: every ROM word the tables can reach is the floor of
`LUT_REAL` times `2^192` (45_lut.md R241, R242). The series of the arctangent and of its hyperbolic twin, repeated
square roots and the squares of the scale factors bound each real from both sides in rational numbers. -/
namespace Sys2Proof.Machine

set_option Elab.async false

/-- `sum_(k<n) (-1)^k x^(2k+1)/(2k+1)` at `x = 1/m`, in rational numbers. -/
def atanSum (m : Nat) : Nat → ℚ
  | 0 => 0
  | n + 1 => atanSum m n + mkRat ((-1) ^ n) (m ^ (2 * n + 1) * (2 * n + 1))

/-- `sum_(k<n) x^(2k+1)/(2k+1)` at `x = 1/m`, in rational numbers. -/
def atanhSum (m : Nat) : Nat → ℚ
  | 0 => 0
  | n + 1 => atanhSum m n + mkRat 1 (m ^ (2 * n + 1) * (2 * n + 1))

open Finset Filter Topology in
theorem cast_atanSum (m n : Nat) : ((atanSum m n : ℚ) : ℝ) =
    ∑ k ∈ range n, (-1) ^ k * (((1 : ℝ) / m) ^ (2 * k + 1) / (2 * k + 1)) := by
  induction n with
  | zero => simp [atanSum]
  | succ n ih =>
    rw [sum_range_succ, ← ih, atanSum]
    push_cast [Rat.mkRat_eq_div]
    rw [one_div_pow]
    field_simp

open Finset Filter Topology in
/-- The partial sums of the arctangent series bound it from below and from above. -/
theorem atanSum_bounds (m n : Nat) (hm : 2 ≤ m) :
    ((atanSum m (2 * n) : ℚ) : ℝ) ≤ Real.arctan (1 / m) ∧ Real.arctan (1 / m) ≤ ((atanSum m (2 * n + 1) : ℚ) : ℝ) := by
  have hm' : (2 : ℝ) ≤ m := by exact_mod_cast hm
  have h0 : (0 : ℝ) < 1 / m := by positivity
  have h1 : (1 : ℝ) / m < 1 := by rw [div_lt_one (by linarith)]; linarith
  have hs := (Real.hasSum_arctan (x := 1 / m) (by rw [Real.norm_eq_abs, abs_of_pos h0]; exact h1)).tendsto_sum_nat
  have ha : Antitone fun k : ℕ => ((1 : ℝ) / m) ^ (2 * k + 1) / (2 * k + 1) := by
    refine antitone_nat_of_succ_le fun k => ?_
    apply div_le_div₀ (by positivity)
    · exact pow_le_pow_of_le_one h0.le h1.le (by omega)
    · positivity
    · push_cast; linarith
  have e : (fun n => ∑ i ∈ range n, (-1 : ℝ) ^ i * (1 / (m : ℝ)) ^ (2 * i + 1) / (2 * (i : ℝ) + 1)) =
      fun n => ∑ i ∈ range n, (-1) ^ i * (((1 : ℝ) / m) ^ (2 * i + 1) / (2 * i + 1)) := by
    funext n; exact sum_congr rfl fun _ _ => by ring
  push_cast at hs
  rw [e] at hs
  rw [cast_atanSum, cast_atanSum]
  exact ⟨ha.alternating_series_le_tendsto hs n, ha.tendsto_le_alternating_series hs n⟩

theorem cast_atanhSum (m n : Nat) : ((atanhSum m n : ℚ) : ℝ) =
    ∑ k ∈ Finset.range n, ((1 : ℝ) / m) ^ (2 * k + 1) / (2 * k + 1) := by
  induction n with
  | zero => simp [atanhSum]
  | succ n ih =>
    rw [Finset.sum_range_succ, ← ih, atanhSum]
    push_cast [Rat.mkRat_eq_div]
    rw [one_div_pow]
    field_simp

open Finset Filter Topology in
/-- The partial sums of the inverse hyperbolic tangent's series bound it from below; a geometric tail bounds it from above. -/
theorem atanhSum_bounds (m n : Nat) (hm : 2 ≤ m) :
    ((atanhSum m n : ℚ) : ℝ) ≤ Real.artanh (1 / m) ∧
    Real.artanh (1 / m) ≤ ((atanhSum m n + mkRat 2 (m ^ (2 * n + 1)) : ℚ) : ℝ) := by
  have hm' : (2 : ℝ) ≤ m := by exact_mod_cast hm
  have h0 : (0 : ℝ) < 1 / m := by positivity
  have hh : (1 : ℝ) / m ≤ 1 / 2 := one_div_le_one_div_of_le (by norm_num) hm'
  have h1 : (1 : ℝ) / m < 1 := by linarith
  have hs := Real.hasSum_log_sub_log_of_abs_lt_one (x := 1 / m) (by rw [abs_of_pos h0]; exact h1)
  have hs2 : HasSum (fun k : ℕ => ((1 : ℝ) / m) ^ (2 * k + 1) / (2 * k + 1)) (Real.artanh (1 / m)) := by
    rw [Real.artanh_eq_half_log ⟨by linarith, by linarith⟩, Real.log_div (by linarith) (by linarith)]
    have := hs.mul_left (1 / 2)
    have e : (fun k : ℕ => ((1 : ℝ) / m) ^ (2 * k + 1) / (2 * k + 1)) =
        fun k : ℕ => 1 / 2 * (2 * (1 / (2 * (k : ℝ) + 1)) * (1 / m) ^ (2 * k + 1)) := by
      funext k; ring
    rw [e]; exact this
  rw [cast_atanhSum]
  refine ⟨sum_le_hasSum _ (fun k _ => by positivity) hs2, ?_⟩
  push_cast [Rat.mkRat_eq_div]
  rw [cast_atanhSum]
  have ht := (hasSum_nat_add_iff' n).2 hs2
  have hg : HasSum (fun k : ℕ => ((1 : ℝ) / m) ^ (2 * n + 1) * (1 / 2) ^ k) (((1 : ℝ) / m) ^ (2 * n + 1) * 2) :=
    hasSum_geometric_two.mul_left _
  have := hasSum_le (fun k => ?_) ht hg
  · have e : (1 : ℝ) / (m : ℝ) ^ (2 * n + 1) = (1 / m) ^ (2 * n + 1) := by rw [div_pow, one_pow]
    have e2 : (2 : ℝ) / (m : ℝ) ^ (2 * n + 1) = (1 / m) ^ (2 * n + 1) * 2 := by rw [← e]; ring
    rw [e2]; linarith
  · have p1 : ((1 : ℝ) / m) ^ (2 * (k + n) + 1) = (1 / m) ^ (2 * n + 1) * ((1 / m) ^ 2) ^ k := by
      rw [← pow_mul, ← pow_add]; congr 1; ring
    have p2 : (((1 : ℝ) / m) ^ 2) ^ k ≤ (1 / 2) ^ k := by
      apply pow_le_pow_left₀ (by positivity)
      nlinarith
    calc ((1 : ℝ) / m) ^ (2 * (k + n) + 1) / (2 * ((k + n : ℕ) : ℝ) + 1)
        ≤ ((1 : ℝ) / m) ^ (2 * (k + n) + 1) := by
          apply div_le_self (by positivity); push_cast; linarith [show (0:ℝ) ≤ k from by positivity, show (0:ℝ) ≤ n from by positivity]
      _ ≤ _ := by rw [p1]; exact mul_le_mul_of_nonneg_left p2 (by positivity)

/-- A ROM word is the floor of `lo..hi` times `2^192`. -/
def floorOk (w : Nat) (lo hi : ℚ) : Bool := decide ((w : ℚ) ≤ lo * 2 ^ 192) && decide (hi * 2 ^ 192 < w + 1)


/-- The integer square root, bit by bit from `2^b`. -/
def isqrt (n : Nat) : Nat → Nat → Nat
  | 0, r => r
  | b + 1, r => isqrt n b (if (r + 2 ^ b) ^ 2 ≤ n then r + 2 ^ b else r)

/-- The bit-by-bit root is the floor of the square root. -/
theorem isqrt_spec (n b r : Nat) (h : r ^ 2 ≤ n) (h' : n < (r + 2 ^ b) ^ 2) :
    isqrt n b r ^ 2 ≤ n ∧ n < (isqrt n b r + 1) ^ 2 := by
  induction b generalizing r with
  | zero => simpa [isqrt] using ⟨h, h'⟩
  | succ b ih =>
    rw [isqrt]
    split
    · next hc => exact ih _ hc (by rw [show r + 2 ^ b + 2 ^ b = r + 2 ^ (b + 1) by rw [pow_succ]; ring]; exact h')
    · next hc => exact ih _ h (by omega)

/-- Lower bounds of the repeated square roots of `a`, times `2^256`. -/
def rootLo (a : Nat) : Nat → Nat
  | 0 => a
  | i + 1 => isqrt (rootLo a i * 2 ^ 256) 258 0

/-- Upper bounds of the repeated square roots of `a`, times `2^256`. -/
def rootHi (a : Nat) : Nat → Nat
  | 0 => a
  | i + 1 => isqrt (rootHi a i * 2 ^ 256) 258 0 + 1

/-- One rooting step keeps the bounds below `2^257` and on their side of the root. -/
theorem root_spec (a i : Nat) (ha : a ≤ 2 ^ 257) : rootHi a i ≤ 2 ^ 257 ∧ rootLo a i ≤ 2 ^ 257 ∧
    rootLo a (i + 1) ^ 2 ≤ rootLo a i * 2 ^ 256 ∧ rootHi a i * 2 ^ 256 ≤ rootHi a (i + 1) ^ 2 := by
  have lt (x : Nat) (hx : x ≤ 2 ^ 257) : x * 2 ^ 256 < (0 + 2 ^ 258) ^ 2 := by
    rw [zero_add]
    calc x * 2 ^ 256 ≤ 2 ^ 257 * 2 ^ 256 := Nat.mul_le_mul_right _ hx
      _ < (2 ^ 258) ^ 2 := by decide +kernel
  have sm (x : Nat) (hx : x ≤ 2 ^ 257) : isqrt (x * 2 ^ 256) 258 0 + 1 ≤ 2 ^ 257 := by
    by_contra hc
    have := (isqrt_spec (x * 2 ^ 256) 258 0 (by positivity) (lt x hx)).1
    have h1 : (2 ^ 257) ^ 2 ≤ isqrt (x * 2 ^ 256) 258 0 ^ 2 := Nat.pow_le_pow_left (by omega) 2
    have h2 := Nat.mul_le_mul_right (2 ^ 256) hx
    have h3 : (2 ^ 257 * 2 ^ 256 : Nat) < (2 ^ 257) ^ 2 := by decide +kernel
    omega
  have b : ∀ i, rootHi a i ≤ 2 ^ 257 ∧ rootLo a i ≤ 2 ^ 257 := by
    intro i
    induction i with
    | zero => exact ⟨ha, ha⟩
    | succ i ih => exact ⟨sm _ ih.1, (Nat.le_succ _).trans (sm _ ih.2)⟩
  refine ⟨(b i).1, (b i).2, ?_, ?_⟩
  · exact (isqrt_spec _ 258 0 (by positivity) (lt _ (b i).2)).1
  · exact (isqrt_spec _ 258 0 (by positivity) (lt _ (b i).1)).2.le


/-- Repeated square roots of a real between its bounds. -/
theorem root_bounds (a : Nat) (ha : a ≤ 2 ^ 257) (y : ℕ → ℝ) (h0 : y 0 * 2 ^ 256 = a) (hp : ∀ i, 0 ≤ y i)
    (hs : ∀ i, y (i + 1) ^ 2 = y i) (i : Nat) :
    (rootLo a i : ℝ) ≤ y i * 2 ^ 256 ∧ y i * 2 ^ 256 ≤ rootHi a i := by
  induction i with
  | zero => exact ⟨h0.ge, h0.le⟩
  | succ i ih =>
    obtain ⟨-, -, h1, h2⟩ := root_spec a i ha
    have e : (y (i + 1) * 2 ^ 256) ^ 2 = y i * 2 ^ 256 * 2 ^ 256 := by rw [mul_pow, hs]; ring
    have h1' : (rootLo a (i + 1) : ℝ) ^ 2 ≤ rootLo a i * 2 ^ 256 := by exact_mod_cast h1
    have h2' : (rootHi a i : ℝ) * 2 ^ 256 ≤ (rootHi a (i + 1) : ℝ) ^ 2 := by exact_mod_cast h2
    have hp' : 0 ≤ y (i + 1) * 2 ^ 256 := mul_nonneg (hp _) (by positivity)
    constructor
    · refine le_of_pow_le_pow_left₀ two_ne_zero hp' ?_
      rw [e]; exact h1'.trans (mul_le_mul_of_nonneg_right ih.1 (by positivity))
    · refine le_of_pow_le_pow_left₀ two_ne_zero (Nat.cast_nonneg _) ?_
      rw [e]; exact (mul_le_mul_of_nonneg_right ih.2 (by positivity)).trans h2'

/-- The product of `num k / 4^k` over a schedule, in rational numbers. -/
def gainProd (num : Nat → Int) : List Nat → ℚ
  | [] => 1
  | k :: ks => mkRat (num k) (4 ^ k) * gainProd num ks

/-- A number is the floor of a real times `2^192`. -/
def IsFloor (w : Nat) (y : ℝ) : Prop := (w : ℝ) ≤ y * 2 ^ 192 ∧ y * 2 ^ 192 < w + 1

/-- A word between checked rational bounds is the floor. -/
theorem isFloor_of_bounds {w : Nat} {y : ℝ} {lo hi : ℚ} (h : floorOk w lo hi = true) (h1 : (lo : ℝ) ≤ y)
    (h2 : y ≤ (hi : ℝ)) : IsFloor w y := by
  simp only [floorOk, Bool.and_eq_true, decide_eq_true_eq] at h
  have a : ((w : ℚ) : ℝ) ≤ ((lo * 2 ^ 192 : ℚ) : ℝ) := by exact_mod_cast h.1
  have b : ((hi * 2 ^ 192 : ℚ) : ℝ) < ((w + 1 : ℚ) : ℝ) := by exact_mod_cast h.2
  push_cast at a b
  have p : (0 : ℝ) < 2 ^ 192 := by positivity
  exact ⟨a.trans (mul_le_mul_of_nonneg_right h1 p.le), (mul_le_mul_of_nonneg_right h2 p.le).trans_lt b⟩

/-- A word between checked root bounds is the floor. -/
theorem isFloor_of_roots {w lo hi : Nat} {y : ℝ} (h : w * 2 ^ 64 ≤ lo ∧ hi < (w + 1) * 2 ^ 64)
    (h1 : (lo : ℝ) ≤ y * 2 ^ 256) (h2 : y * 2 ^ 256 ≤ hi) : IsFloor w y := by
  have a : (w : ℝ) * 2 ^ 64 ≤ lo := by exact_mod_cast h.1
  have b : (hi : ℝ) < (w + 1) * 2 ^ 64 := by exact_mod_cast h.2
  have p : (0 : ℝ) < 2 ^ 64 := by positivity
  constructor
  · refine le_of_mul_le_mul_right ?_ p
    rw [mul_assoc, ← pow_add]
    exact a.trans h1
  · refine lt_of_mul_lt_mul_right ?_ p.le
    rw [mul_assoc, ← pow_add]
    exact h2.trans_lt b

/-- A scale factor from its square. -/
theorem isFloor_of_sq {w : Nat} {y : ℝ} {g : ℚ} (hy : 0 ≤ y) (hg : 0 < g) (e : y ^ 2 * (g : ℝ) = 1)
    (h : (w : ℚ) ^ 2 * g ≤ 2 ^ 384 ∧ 2 ^ 384 < ((w : ℚ) + 1) ^ 2 * g) : IsFloor w y := by
  have a : (w : ℝ) ^ 2 * g ≤ 2 ^ 384 := by exact_mod_cast h.1
  have b : (2 : ℝ) ^ 384 < ((w : ℝ) + 1) ^ 2 * g := by exact_mod_cast h.2
  have hg' : (0 : ℝ) < g := by exact_mod_cast hg
  have e2 : (y * 2 ^ 192) ^ 2 * g = 2 ^ 384 := by
    rw [mul_pow, mul_right_comm, e, one_mul, ← pow_mul]
  have p : 0 ≤ y * 2 ^ 192 := by positivity
  constructor
  · refine le_of_pow_le_pow_left₀ two_ne_zero p ?_
    exact le_of_mul_le_mul_right (a.trans e2.ge) hg'
  · refine lt_of_pow_lt_pow_left₀ 2 (by positivity) ?_
    exact lt_of_mul_lt_mul_right (e2.le.trans_lt b) hg'.le

/-! The ROM lists against the bounds. -/

/-- Entry 0 of the arctangents, by Machin's formula. -/
theorem atanRom_zero_ok : floorOk (atanRom.getD 0 0) (4 * atanSum 5 50 - atanSum 239 17)
    (4 * atanSum 5 51 - atanSum 239 16) = true := by decide +kernel

/-- Entries 1 to 63 of the arctangents. -/
theorem atanRom_ok : (List.range 63).all (fun j => floorOk (atanRom.getD (j + 1) 0)
    (atanSum (2 ^ (j + 1)) (2 * (52 / (j + 1) + 2))) (atanSum (2 ^ (j + 1)) (2 * (52 / (j + 1) + 2) + 1))) = true := by
  decide +kernel

/-- The inverse hyperbolic tangents of `2^-1` to `2^-64`. -/
theorem atanhRom_ok : (List.range 64).all (fun j => floorOk (atanhRom.getD j 0)
    (atanhSum (2 ^ (j + 1)) (104 / (j + 1) + 4)) (atanhSum (2 ^ (j + 1)) (104 / (j + 1) + 4) +
      mkRat 2 ((2 ^ (j + 1)) ^ (2 * (104 / (j + 1) + 4) + 1)))) = true := by decide +kernel

/-- The powers `2^(2^-j)`. -/
theorem pow2Rom_ok : (List.range 64).all (fun j => decide (pow2Rom.getD j 0 * 2 ^ 64 ≤ rootLo (2 ^ 257) j ∧
    rootHi (2 ^ 257) j < (pow2Rom.getD j 0 + 1) * 2 ^ 64)) = true := by decide +kernel

/-- The powers `2^(-2^-j)`. -/
theorem ipow2Rom_ok : (List.range 64).all (fun j => decide (ipow2Rom.getD j 0 * 2 ^ 64 ≤ rootLo (2 ^ 255) j ∧
    rootHi (2 ^ 255) j < (ipow2Rom.getD j 0 + 1) * 2 ^ 64)) = true := by decide +kernel

/-- The circular scale factors, one for each F. -/
theorem kcircRom_ok : (List.range 65).all (fun f => decide (
    (kcircRom.getD f 0 : ℚ) ^ 2 * gainProd (fun k => 4 ^ k + 1) (List.range f) ≤ 2 ^ 384 ∧
    2 ^ 384 < ((kcircRom.getD f 0 : ℚ) + 1) ^ 2 * gainProd (fun k => 4 ^ k + 1) (List.range f))) = true := by
  decide +kernel

/-- The hyperbolic scale factors, one for each F. -/
theorem khypRom_ok : (List.range 65).all (fun f => decide (
    (khypRom.getD f 0 : ℚ) ^ 2 * gainProd (fun k => 4 ^ k - 1) (hyperbolicSchedule f) ≤ 2 ^ 384 ∧
    2 ^ 384 < ((khypRom.getD f 0 : ℚ) + 1) ^ 2 * gainProd (fun k => 4 ^ k - 1) (hyperbolicSchedule f))) = true := by
  decide +kernel

theorem all_range {n : Nat} {p : Nat → Bool} (h : (List.range n).all p = true) {j : Nat} (hj : j < n) : p j = true :=
  List.all_eq_true.1 h j (List.mem_range.2 hj)

/-! The six kinds. -/

theorem isFloor_atan {i : Nat} (hi : i < 64) : IsFloor (atanRom.getD i 0) (Real.arctan ((1 / 2) ^ i)) := by
  match i, hi with
  | 0, _ =>
    have a := atanSum_bounds 5 25 (by norm_num)
    have b := atanSum_bounds 239 8 (by norm_num)
    have m := Real.four_mul_arctan_inv_5_sub_arctan_inv_239
    rw [pow_zero, Real.arctan_one, ← m]
    push_cast [← one_div] at a b ⊢
    refine isFloor_of_bounds atanRom_zero_ok ?_ ?_ <;> push_cast <;> linarith [a.1, a.2, b.1, b.2]
  | j + 1, hi =>
    have b := atanSum_bounds (2 ^ (j + 1)) (52 / (j + 1) + 2) (Nat.le_self_pow (by omega) 2)
    have e : (1 : ℝ) / ((2 ^ (j + 1) : ℕ) : ℝ) = (1 / 2) ^ (j + 1) := by push_cast; rw [one_div_pow]
    rw [e] at b
    exact isFloor_of_bounds (all_range atanRom_ok (by omega)) b.1 b.2

theorem isFloor_atanh {i : Nat} (hi : i < 64) :
    IsFloor (atanhRom.getD i 0) (Real.artanh ((1 / 2) ^ (i + 1))) := by
  have b := atanhSum_bounds (2 ^ (i + 1)) (104 / (i + 1) + 4) (Nat.le_self_pow (by omega) 2)
  have e : (1 : ℝ) / ((2 ^ (i + 1) : ℕ) : ℝ) = (1 / 2) ^ (i + 1) := by push_cast; rw [one_div_pow]
  rw [e] at b
  exact isFloor_of_bounds (all_range atanhRom_ok hi) b.1 b.2

theorem half_pow_succ (i : ℕ) : (1 / 2 : ℝ) ^ (i + 1) * 2 = (1 / 2) ^ i := by rw [pow_succ]; ring

theorem isFloor_pow2 {i : Nat} (hi : i < 64) : IsFloor (pow2Rom.getD i 0) ((2 : ℝ) ^ ((1 / 2 : ℝ) ^ i)) := by
  have b := root_bounds (2 ^ 257) le_rfl (fun i => (2 : ℝ) ^ ((1 / 2 : ℝ) ^ i))
    (by rw [pow_zero, Real.rpow_one, Nat.cast_pow, Nat.cast_ofNat, ← pow_succ']) (fun i => by positivity)
    (fun i => by rw [← Real.rpow_natCast, ← Real.rpow_mul (by norm_num)]; congr 1; exact_mod_cast half_pow_succ i) i
  exact isFloor_of_roots (of_decide_eq_true (all_range pow2Rom_ok hi)) b.1 b.2

theorem isFloor_ipow2 {i : Nat} (hi : i < 64) : IsFloor (ipow2Rom.getD i 0) ((2 : ℝ) ^ (-(1 / 2 : ℝ) ^ i)) := by
  have b := root_bounds (2 ^ 255) (by decide +kernel) (fun i => (2 : ℝ) ^ (-(1 / 2 : ℝ) ^ i))
    (by norm_num [Real.rpow_neg_one]) (fun i => by positivity)
    (fun i => by
      rw [← Real.rpow_natCast, ← Real.rpow_mul (by norm_num)]
      congr 1
      push_cast
      rw [neg_mul, half_pow_succ]) i
  exact isFloor_of_roots (of_decide_eq_true (all_range ipow2Rom_ok hi)) b.1 b.2

/-- The square of a product of inverse square roots. -/
theorem sq_prod_mul_gain (num : Nat → Int) (l : List Nat) (hp : ∀ k ∈ l, 0 < num k) :
    0 < gainProd num l ∧ 0 ≤ (l.map fun k => (((num k : ℝ) / 4 ^ k)) ^ (-(1 / 2 : ℝ))).prod ∧
    ((l.map fun k => (((num k : ℝ) / 4 ^ k)) ^ (-(1 / 2 : ℝ))).prod) ^ 2 * (gainProd num l : ℝ) = 1 := by
  induction l with
  | nil => simp [gainProd]
  | cons k ks ih =>
    obtain ⟨h1, h2, h3⟩ := ih fun j hj => hp j (by simp [hj])
    have hk : (0 : ℝ) < (num k : ℝ) / 4 ^ k := div_pos (by exact_mod_cast hp k (by simp)) (by positivity)
    have e : ((mkRat (num k) (4 ^ k) : ℚ) : ℝ) = (num k : ℝ) / 4 ^ k := by push_cast [Rat.mkRat_eq_div]; rfl
    have hq : (0 : ℚ) < mkRat (num k) (4 ^ k) := by
      have : (0 : ℝ) < ((mkRat (num k) (4 ^ k) : ℚ) : ℝ) := by rw [e]; exact hk
      exact_mod_cast this
    have s : (((num k : ℝ) / 4 ^ k) ^ (-(1 / 2 : ℝ))) ^ 2 * ((num k : ℝ) / 4 ^ k) = 1 := by
      rw [← Real.rpow_natCast, ← Real.rpow_mul hk.le]
      rw [show -(1 / 2 : ℝ) * ((2 : ℕ) : ℝ) = -1 by norm_num, Real.rpow_neg_one, inv_mul_cancel₀ hk.ne']
    refine ⟨mul_pos hq h1, ?_, ?_⟩
    · rw [List.map_cons, List.prod_cons]; exact mul_nonneg (Real.rpow_nonneg hk.le _) h2
    · rw [List.map_cons, List.prod_cons, gainProd]
      push_cast
      rw [e, mul_pow]
      linear_combination (((ks.map fun k => (((num k : ℝ) / 4 ^ k)) ^ (-(1 / 2 : ℝ))).prod) ^ 2 * (gainProd num ks : ℝ)) * s + h3

theorem isFloor_kcirc {f : Nat} (hf : f < 65) :
    IsFloor (kcircRom.getD f 0) (∏ k ∈ Finset.range f, (1 + (1 / 4 : ℝ) ^ k) ^ (-(1 / 2 : ℝ))) := by
  obtain ⟨h1, h2, h3⟩ := sq_prod_mul_gain (fun k => 4 ^ k + 1) (List.range f) (fun k _ => by positivity)
  have e : (∏ k ∈ Finset.range f, (1 + (1 / 4 : ℝ) ^ k) ^ (-(1 / 2 : ℝ))) =
      ((List.range f).map fun k => ((((4 ^ k + 1 : Int)) : ℝ) / 4 ^ k) ^ (-(1 / 2 : ℝ))).prod := by
    rw [← List.toFinset_range, List.prod_toFinset _ List.nodup_range]
    congr 2
    funext k
    congr 1
    push_cast
    rw [one_div_pow]
    field_simp
  rw [e]
  exact isFloor_of_sq h2 h1 h3 (by simpa using all_range kcircRom_ok hf)

theorem isFloor_khyp {f : Nat} (hf : f < 65) :
    IsFloor (khypRom.getD f 0) ((hyperbolicSchedule f).map fun k => (1 - (1 / 4 : ℝ) ^ k) ^ (-(1 / 2 : ℝ))).prod := by
  have pos : ∀ f, ∀ k ∈ hyperbolicSchedule f, 1 ≤ k := by
    intro f
    induction f with
    | zero => intro k hk; cases hk
    | succ f ih =>
      intro k hk
      rw [hyperbolicSchedule, List.mem_append] at hk
      rcases hk with hk | hk
      · exact ih k hk
      · split at hk <;> simp at hk <;> omega
  obtain ⟨h1, h2, h3⟩ := sq_prod_mul_gain (fun k => 4 ^ k - 1) (hyperbolicSchedule f) (fun k hk => by
    have : (4 : Int) ^ 1 ≤ 4 ^ k := pow_le_pow_right₀ (by norm_num) (pos f k hk)
    omega)
  have e : (fun k : ℕ => (1 - (1 / 4 : ℝ) ^ k) ^ (-(1 / 2 : ℝ))) =
      fun k => ((((4 ^ k - 1 : Int)) : ℝ) / 4 ^ k) ^ (-(1 / 2 : ℝ)) := by
    funext k
    congr 1
    push_cast
    rw [one_div_pow]
    field_simp
  rw [e]
  exact isFloor_of_sq h2 h1 h3 (by simpa using all_range khypRom_ok hf)

/-- Every ROM word the tables can reach is the floor of its exact real value times `2^192` (R241, R242). -/
theorem isFloor_romWord (kind : LutKind) {i f : Nat} (hf : f ≤ 64) (hi : i < lutLen kind f) :
    IsFloor (romWord kind i f) (lutReal kind i f) := by
  cases kind <;> simp only [lutLen] at hi
  · exact isFloor_atan (by omega)
  · exact isFloor_atanh (by omega)
  · exact isFloor_pow2 (by omega)
  · exact isFloor_ipow2 (by omega)
  · exact isFloor_kcirc (by omega)
  · exact isFloor_khyp (by omega)

end Sys2Proof.Machine
end

