-- ==== Sys2Proof/Tests/Slice0.lean ====
section
/-! SUPPORT. The model's own tests: words and results from spec/95_test_vectors.md and the rules it cites, and for
each statement with hypotheses a concrete case that meets them. -/
namespace Sys2Proof.Tests

set_option Elab.async false

open Sys2Proof.Machine

/-! ## Helpers -/

/-- The reset state with some value registers loaded, each `(name, stored integer, format word)`. -/
def fresh (l : List (VName × Int × Word)) : State :=
  l.foldl (fun s x => s.setV x.1 x.2.1 (Tag.ofWord x.2.2)) State.reset

/-- One step in which the host issues a command. -/
def issue (s : State) (w : Word) (d : Data) : Host.Outcome State Fault Refusal :=
  step { s with host := [.issue ⟨w, d⟩] }

/-- What a test looks at: the response, STATUS and one value register. -/
def result (o : Host.Outcome State Fault Refusal) (r : VName) : Option (Code × Int × Word × VReg) :=
  match o with
  | .next t => some (t.rspCode, t.rspData.toInt, t.status, t.getV r)
  | .fault _ => none
  | .refused _ => none

/-- A valid register: a stored integer and the tag of a format word. -/
def reg (v : Int) (w : Word) : VReg := ⟨true, v, Tag.ofWord w⟩

/-- Q<15,16>, the reset format -/
def q15_16 : Word := 0x0140080F#32
/-- Q<15,16>, OP = IGNORE -/
def q15_16i : Word := 0x0340080F#32
/-- Q<7,8> -/
def q7_8 : Word := 0x00C00407#32
/-- Q<0,7> -/
def q0_7 : Word := 0x00400380#32
/-- U<4,4> -/
def u4_4 : Word := 0x00000204#32
/-- Q<3,4> -/
def q3_4 : Word := 0x00400203#32
/-- Q<2,4> -/
def q2_4 : Word := 0x00400202#32
/-- Q<2,4>, OP = IGNORE -/
def q2_4i : Word := 0x02400202#32
/-- Q<8,0>, E = -1 -/
def q8m1 : Word := 0x00FFC008#32
/-- Q<31,32> -/
def q31_32 : Word := 0x01C0101F#32
/-- Q<20,20> -/
def q20_20 : Word := 0x01C00A14#32
/-- Q<10,20> -/
def q10_20 : Word := 0x01400A0A#32
/-- Q<0,63> -/
def q0_63 : Word := 0x01C01F80#32
/-- Q<15,16>, UP = IGNORE -/
def q15_16u : Word := 0x0540080F#32

/-! ## Well-formedness and the configuration -/

/-- R79: SUB = 5 is the last defined kind, and the check refuses 6 and 7. -/
theorem test_wellFormed_refuses_lutrd_sub :
    (Instr.lutrd .v0 .f0 5#3 0#12).wellFormed = true ∧ (Instr.lutrd .v0 .f0 6#3 0#12).wellFormed = false ∧
    (Instr.lutrd .v0 .f0 7#3 0#12).wellFormed = false := by decide

/-- R4: eight value registers and four format registers have names. -/
theorem test_register_counts : VName.all.length = Config.nreg ∧ FName.all.length = Config.nfd := by decide

/-- R83: the rows are disjoint: two rows fix some common bit to different values. -/
theorem test_rows_are_disjoint :
    opcodeRows.Pairwise fun a b => a.pat &&& b.mask ≠ b.pat &&& a.mask := by decide +kernel

/-! ## Decoding, word by word (R71, R76): OPC, RD, RS1, RS2, FS, SUB, IMM -/

theorem test_decode_nop :
    decode (0b000000#6 ++ 0b000#3 ++ 0b000#3 ++ 0b000#3 ++ 0b00#2 ++ 0b000#3 ++ 0b000000000000#12 : Word) = .ok (.nop) := by decide

theorem test_decode_setfmt :
    decode (0b000001#6 ++ 0b000#3 ++ 0b000#3 ++ 0b000#3 ++ 0b01#2 ++ 0b000#3 ++ 0b000000000000#12 : Word) = .ok (.setfmt .f1) := by decide

theorem test_decode_rdfmt :
    decode (0b000010#6 ++ 0b000#3 ++ 0b000#3 ++ 0b000#3 ++ 0b10#2 ++ 0b000#3 ++ 0b000000000000#12 : Word) = .ok (.rdfmt .f2) := by decide

theorem test_decode_wrap :
    decode (0b000011#6 ++ 0b001#3 ++ 0b000#3 ++ 0b000#3 ++ 0b10#2 ++ 0b000#3 ++ 0b000000000000#12 : Word) = .ok (.wrap .v1 .f2) := by decide

theorem test_decode_fromint :
    decode (0b000100#6 ++ 0b110#3 ++ 0b000#3 ++ 0b000#3 ++ 0b11#2 ++ 0b000#3 ++ 0b000000000000#12 : Word) = .ok (.fromint .v6 .f3) := by decide

theorem test_decode_rdv :
    decode (0b000101#6 ++ 0b000#3 ++ 0b011#3 ++ 0b000#3 ++ 0b00#2 ++ 0b000#3 ++ 0b000000000000#12 : Word) = .ok (.rdv .v3) := by decide

theorem test_decode_rdtag :
    decode (0b000110#6 ++ 0b000#3 ++ 0b101#3 ++ 0b000#3 ++ 0b00#2 ++ 0b000#3 ++ 0b000000000000#12 : Word) = .ok (.rdtag .v5) := by decide

theorem test_decode_mov :
    decode (0b000111#6 ++ 0b001#3 ++ 0b011#3 ++ 0b000#3 ++ 0b00#2 ++ 0b000#3 ++ 0b000000000000#12 : Word) = .ok (.mov .v1 .v3) := by decide

theorem test_decode_cvt :
    decode (0b001000#6 ++ 0b100#3 ++ 0b001#3 ++ 0b000#3 ++ 0b10#2 ++ 0b000#3 ++ 0b000000000000#12 : Word) = .ok (.cvt .v4 .v1 .f2) := by decide

theorem test_decode_add :
    decode (0b010000#6 ++ 0b010#3 ++ 0b111#3 ++ 0b001#3 ++ 0b00#2 ++ 0b000#3 ++ 0b000000000000#12 : Word) = .ok (.add .v2 .v7 .v1) := by decide

theorem test_decode_sub :
    decode (0b010001#6 ++ 0b010#3 ++ 0b100#3 ++ 0b001#3 ++ 0b00#2 ++ 0b000#3 ++ 0b000000000000#12 : Word) = .ok (.sub .v2 .v4 .v1) := by decide

theorem test_decode_mul :
    decode (0b010010#6 ++ 0b011#3 ++ 0b101#3 ++ 0b110#3 ++ 0b00#2 ++ 0b000#3 ++ 0b000000000000#12 : Word) = .ok (.mul .v3 .v5 .v6) := by decide

theorem test_decode_div :
    decode (0b010011#6 ++ 0b001#3 ++ 0b010#3 ++ 0b100#3 ++ 0b00#2 ++ 0b000#3 ++ 0b000000000000#12 : Word) = .ok (.div .v1 .v2 .v4) := by decide

theorem test_decode_neg :
    decode (0b010100#6 ++ 0b001#3 ++ 0b110#3 ++ 0b000#3 ++ 0b00#2 ++ 0b000#3 ++ 0b000000000000#12 : Word) = .ok (.neg .v1 .v6) := by decide

theorem test_decode_adda :
    decode (0b011000#6 ++ 0b100#3 ++ 0b000#3 ++ 0b101#3 ++ 0b00#2 ++ 0b000#3 ++ 0b000000000000#12 : Word) = .ok (.adda .v4 .v5) := by decide

theorem test_decode_suba :
    decode (0b011001#6 ++ 0b001#3 ++ 0b000#3 ++ 0b010#3 ++ 0b00#2 ++ 0b000#3 ++ 0b000000000000#12 : Word) = .ok (.suba .v1 .v2) := by decide

theorem test_decode_mula :
    decode (0b011010#6 ++ 0b110#3 ++ 0b000#3 ++ 0b011#3 ++ 0b00#2 ++ 0b000#3 ++ 0b000000000000#12 : Word) = .ok (.mula .v6 .v3) := by decide

theorem test_decode_diva :
    decode (0b011011#6 ++ 0b111#3 ++ 0b000#3 ++ 0b100#3 ++ 0b00#2 ++ 0b000#3 ++ 0b000000000000#12 : Word) = .ok (.diva .v7 .v4) := by decide

theorem test_decode_cmpEq :
    decode (0b100000#6 ++ 0b000#3 ++ 0b010#3 ++ 0b011#3 ++ 0b00#2 ++ 0b000#3 ++ 0b000000000000#12 : Word) = .ok (.cmpEq .v2 .v3) := by decide

theorem test_decode_cmpNe :
    decode (0b100000#6 ++ 0b000#3 ++ 0b001#3 ++ 0b011#3 ++ 0b00#2 ++ 0b001#3 ++ 0b000000000000#12 : Word) = .ok (.cmpNe .v1 .v3) := by decide

theorem test_decode_cmpLt :
    decode (0b100000#6 ++ 0b000#3 ++ 0b010#3 ++ 0b101#3 ++ 0b00#2 ++ 0b010#3 ++ 0b000000000000#12 : Word) = .ok (.cmpLt .v2 .v5) := by decide

theorem test_decode_cmpLe :
    decode (0b100000#6 ++ 0b000#3 ++ 0b100#3 ++ 0b011#3 ++ 0b00#2 ++ 0b011#3 ++ 0b000000000000#12 : Word) = .ok (.cmpLe .v4 .v3) := by decide

theorem test_decode_cmpGt :
    decode (0b100000#6 ++ 0b000#3 ++ 0b110#3 ++ 0b001#3 ++ 0b00#2 ++ 0b100#3 ++ 0b000000000000#12 : Word) = .ok (.cmpGt .v6 .v1) := by decide

theorem test_decode_cmpGe :
    decode (0b100000#6 ++ 0b000#3 ++ 0b111#3 ++ 0b010#3 ++ 0b00#2 ++ 0b101#3 ++ 0b000000000000#12 : Word) = .ok (.cmpGe .v7 .v2) := by decide

theorem test_decode_crotc :
    decode (0b101000#6 ++ 0b001#3 ++ 0b010#3 ++ 0b011#3 ++ 0b00#2 ++ 0b000#3 ++ 0b000000000000#12 : Word) = .ok (.crotc .v1 .v2 .v3) := by decide

theorem test_decode_croth :
    decode (0b101001#6 ++ 0b011#3 ++ 0b001#3 ++ 0b010#3 ++ 0b00#2 ++ 0b000#3 ++ 0b000000000000#12 : Word) = .ok (.croth .v3 .v1 .v2) := by decide

theorem test_decode_cvecc :
    decode (0b101010#6 ++ 0b000#3 ++ 0b001#3 ++ 0b010#3 ++ 0b00#2 ++ 0b000#3 ++ 0b000000000000#12 : Word) = .ok (.cvecc .v0 .v1 .v2) := by decide

theorem test_decode_cvech :
    decode (0b101011#6 ++ 0b101#3 ++ 0b110#3 ++ 0b111#3 ++ 0b00#2 ++ 0b000#3 ++ 0b000000000000#12 : Word) = .ok (.cvech .v5 .v6 .v7) := by decide

theorem test_decode_lutrd :
    decode (0b110000#6 ++ 0b011#3 ++ 0b000#3 ++ 0b000#3 ++ 0b10#2 ++ 0b101#3 ++ 0b100000000001#12 : Word) = .ok (.lutrd .v3 .f2 5#3 0x801#12) := by decide

theorem test_decode_rdst :
    decode (0b111000#6 ++ 0b000#3 ++ 0b000#3 ++ 0b000#3 ++ 0b00#2 ++ 0b000#3 ++ 0b000000000000#12 : Word) = .ok (.rdst) := by decide

theorem test_decode_clrst :
    decode (0b111001#6 ++ 0b000#3 ++ 0b000#3 ++ 0b000#3 ++ 0b00#2 ++ 0b000#3 ++ 0b000000101010#12 : Word) = .ok (.clrst 0x2A#6) := by decide

/-- The encoder writes the listed words (95_test_vectors.md L2.2, L2.4, L2.5). -/
theorem test_encode_words : encode (.add .v2 .v0 .v1) = 0x41020000#32 ∧ encode (.diva .v0 .v1) = 0x6C020000#32 ∧
    encode (.cvech .v0 .v1 .v2) = 0xAC140000#32 ∧ encode (.lutrd .v3 .f1 0#3 0#12) = 0xC1808000#32 := by decide

/-- 95_test_vectors.md DC1 to DC10: each word is rejected, by name. -/
theorem test_decode_rejects :
    decode 0x00000001#32 = .error .unusedField ∧ decode 0x24000000#32 = .error .undefinedOpcode ∧
    decode 0xFC000000#32 = .error .undefinedOpcode ∧ decode 0x04000001#32 = .error .unusedField ∧
    decode 0x40000001#32 = .error .unusedField ∧ decode 0x60100000#32 = .error .unusedField ∧
    decode 0xE0000001#32 = .error .unusedField ∧ decode 0xE4000040#32 = .error .clrstMask ∧
    decode 0x14800000#32 = .error .unusedField ∧ decode 0x80026000#32 = .error .cmpCondition := by decide

/-- The table's numbering: the command word is bits 31:0; and such a word runs as the
first instruction after reset. -/
theorem test_withFetchWord : decodeTableWord 32 0x41020000 = some (.add .v2 .v0 .v1) ∧
    result (step (State.reset.withFetchWord 32 0xC0000000)) .v0 =
      some (.ok, 51472, 0#32, reg 51472 q15_16) := by decide +kernel

/-! ## One step of each instruction (95_test_vectors.md L1, L2) -/

/-- T1 -/
theorem test_nop : result (issue (State.reset) 0x00000000#32 0#64) .v0 =
    some (.ok, 0, 0x00#32, VReg.reset) := by decide +kernel

/-- T2 and T3 -/
theorem test_setfmt : (match issue State.reset 0x04008000#32 0x00C00407#64 with
      | .next t => some (t.rspCode, t.getF .f1, t.getF .f0, t.status) | _ => none) =
      some (.ok, q7_8, q15_16, 0#32) ∧
    (match issue State.reset 0x04008000#32 0x00400408#64 with
      | .next t => some (t.rspCode, t.getF .f1, t.getF .f0, t.status) | _ => none) =
      some (.illegal, q15_16, q15_16, 0x08#32) := by decide +kernel

/-- T5 -/
theorem test_setfmt_high_data : result (issue (State.reset) 0x04008000#32 0x000000010140080F#64) .v0 =
    some (.illegal, 0, 0x08#32, VReg.reset) := by decide +kernel

/-- T6 -/
theorem test_rdfmt : result (issue (State.reset) 0x08010000#32 0#64) .v0 =
    some (.ok, 0x0140080F, 0x00#32, VReg.reset) := by decide +kernel

/-- T7 -/
theorem test_wrap : result (issue (State.reset) 0x0C000000#32 0xFFFFFFFFFFFFFFFF#64) .v0 =
    some (.ok, -1, 0x00#32, reg (-1) q15_16) := by decide +kernel

/-- T10 -/
theorem test_wrap_overflow : result (issue (State.reset.setF .f0 q0_7) 0x0C000000#32 128#64) .v0 =
    some (.overflow, 0, 0x01#32, VReg.reset) := by decide +kernel

/-- T13 -/
theorem test_fromint : result (issue (State.reset.setF .f1 q8m1) 0x10008000#32 0xFFFFFFFFFFFFFFFB#64) .v0 =
    some (.ok, -3, 0x00#32, reg (-3) q8m1) := by decide +kernel

/-- L1.9 -/
theorem test_fromint_overflow : result (issue (State.reset) 0x10000000#32 32768#64) .v0 =
    some (.overflow, 0, 0x01#32, VReg.reset) := by decide +kernel

/-- T14 -/
theorem test_rdv : result (issue (fresh [(.v3, 98304, q15_16)]) 0x14300000#32 0#64) .v3 =
    some (.ok, 98304, 0x00#32, reg 98304 q15_16) := by decide +kernel

/-- T15 -/
theorem test_rdv_invalid : result (issue (State.reset) 0x14300000#32 0#64) .v3 =
    some (.illegal, 0, 0x08#32, VReg.reset) := by decide +kernel

/-- T16 -/
theorem test_rdtag : result (issue (fresh [(.v3, 98304, q15_16)]) 0x18300000#32 0#64) .v3 =
    some (.ok, 0x0140080F, 0x00#32, reg 98304 q15_16) := by decide +kernel

/-- T17 -/
theorem test_mov : result (issue (fresh [(.v3, 98304, q15_16)]) 0x1CB00000#32 0#64) .v1 =
    some (.ok, 98304, 0x00#32, reg 98304 q15_16) := by decide +kernel

/-- T21 -/
theorem test_cvt : result (issue ((fresh [(.v0, -1, q15_16)]).setF .f1 q7_8) 0x20808000#32 0#64) .v1 =
    some (.ok, -1, 0x00#32, reg (-1) q7_8) := by decide +kernel

/-- T20 -/
theorem test_cvt_underflow : result (issue ((fresh [(.v0, 1, q15_16)]).setF .f1 q7_8) 0x20808000#32 0#64) .v1 =
    some (.underflow, 0, 0x02#32, VReg.reset) := by decide +kernel

/-- AR4 -/
theorem test_add : result (issue (fresh [(.v0, 98304, q15_16), (.v1, 384, q7_8)]) 0x41020000#32 0#64) .v2 =
    some (.ok, 196608, 0x00#32, reg 196608 0x01C00810#32) := by decide +kernel

/-- AR3 -/
theorem test_add_fallback_overflow : result (issue (fresh [(.v0, 9223372036854775807, q0_63), (.v1, 1, q0_63)]) 0x41020000#32 0#64) .v2 =
    some (.overflow, 0, 0x01#32, VReg.reset) := by decide +kernel

/-- AR6 -/
theorem test_sub : result (issue (fresh [(.v0, 98304, q15_16), (.v1, -16384, q15_16)]) 0x45020000#32 0#64) .v2 =
    some (.ok, 114688, 0x00#32, reg 114688 0x01C00810#32) := by decide +kernel

/-- AR7 -/
theorem test_sub_overflow : result (issue (fresh [(.v0, 16, u4_4), (.v1, 32, u4_4)]) 0x45020000#32 0#64) .v2 =
    some (.overflow, 0, 0x01#32, VReg.reset) := by decide +kernel

/-- AR10 -/
theorem test_mul : result (issue (fresh [(.v0, -128, q0_7), (.v1, 127, q0_7)]) 0x49020000#32 0#64) .v2 =
    some (.ok, -16256, 0x00#32, reg (-16256) 0x00C00700#32) := by decide +kernel

/-- AR11 -/
theorem test_mul_fallback : result (issue (fresh [(.v0, 1363149, q20_20), (.v1, 1782579, q10_20)]) 0x49020000#32 0#64) .v2 =
    some (.ok, 2317286, 0x10#32, reg 2317286 q20_20) := by decide +kernel

/-- AR14 -/
theorem test_div : result (issue (fresh [(.v0, -65536, q15_16), (.v1, 196608, q15_16)]) 0x4D020000#32 0#64) .v2 =
    some (.ok, -715827882, 0x00#32, reg (-715827882) 0x01C00F9F#32) := by decide +kernel

/-- AR17 -/
theorem test_div_fallback : result (issue (fresh [(.v0, 6442450944, q31_32), (.v1, 5368709120, q31_32)]) 0x4D020000#32 0#64) .v2 =
    some (.ok, 4294967296, 0x10#32, reg 4294967296 q31_32) := by decide +kernel

/-- AR21 -/
theorem test_neg : result (issue (fresh [(.v0, 16, u4_4)]) 0x50800000#32 0#64) .v1 =
    some (.ok, 239, 0x00#32, reg 239 u4_4) := by decide +kernel

/-- AR19 -/
theorem test_neg_overflow : result (issue (fresh [(.v0, -128, q0_7)]) 0x50800000#32 0#64) .v1 =
    some (.overflow, 0, 0x01#32, VReg.reset) := by decide +kernel

/-- AR23 -/
theorem test_adda : result (issue (fresh [(.v0, 98304, q15_16)]) 0x60000000#32 0#64) .v0 =
    some (.ok, 196608, 0x00#32, reg 196608 q15_16) := by decide +kernel

/-- AR25 -/
theorem test_adda_wraps : result (issue (fresh [(.v0, 2147483647, q15_16i), (.v1, 1, q15_16i)]) 0x60020000#32 0#64) .v0 =
    some (.ok, -2147483648, 0x01#32, reg (-2147483648) q15_16i) := by decide +kernel

/-- AR26 -/
theorem test_suba : result (issue (fresh [(.v0, 98304, q15_16), (.v1, -16384, q15_16)]) 0x64020000#32 0#64) .v0 =
    some (.ok, 114688, 0x00#32, reg 114688 q15_16) := by decide +kernel

/-- AR27 -/
theorem test_mula : result (issue (fresh [(.v0, 98304, q15_16), (.v1, -16384, q15_16)]) 0x68020000#32 0#64) .v0 =
    some (.ok, -24576, 0x00#32, reg (-24576) q15_16) := by decide +kernel

/-- AR28 -/
theorem test_mula_underflow : result (issue (fresh [(.v0, 1, q15_16), (.v1, 1, q15_16)]) 0x68020000#32 0#64) .v0 =
    some (.underflow, 0, 0x02#32, reg 1 q15_16) := by decide +kernel

/-- AR29 -/
theorem test_diva : result (issue (fresh [(.v0, 98304, q15_16), (.v1, -16384, q15_16)]) 0x6C020000#32 0#64) .v0 =
    some (.ok, -393216, 0x00#32, reg (-393216) q15_16) := by decide +kernel

/-- AR30 -/
theorem test_diva_domain : result (issue (fresh [(.v0, 98304, q15_16), (.v1, 0, q15_16)]) 0x6C020000#32 0#64) .v0 =
    some (.domain, 0, 0x04#32, reg 98304 q15_16) := by decide +kernel

/-- CP7 -/
theorem test_cmpEq : result (issue (fresh [(.v0, 384, q7_8), (.v1, 98305, q15_16)]) 0x80100000#32 0#64) .v0 =
    some (.ok, 0, 0x00#32, reg 384 q7_8) := by decide +kernel

/-- CP8 -/
theorem test_cmpNe : result (issue (fresh [(.v0, 384, q7_8), (.v1, 98305, q15_16)]) 0x80101000#32 0#64) .v0 =
    some (.ok, 1, 0x20#32, reg 384 q7_8) := by decide +kernel

/-- CP9 -/
theorem test_cmpLt : result (issue (fresh [(.v0, 384, q7_8), (.v1, 98305, q15_16)]) 0x80102000#32 0#64) .v0 =
    some (.ok, 0, 0x00#32, reg 384 q7_8) := by decide +kernel

/-- CP4 -/
theorem test_cmpLe : result (issue (fresh [(.v0, 384, q7_8), (.v1, 98305, q15_16)]) 0x80023000#32 0#64) .v0 =
    some (.ok, 1, 0x20#32, reg 384 q7_8) := by decide +kernel

/-- CP11 -/
theorem test_cmpGt : result (issue (fresh [(.v0, 384, q7_8), (.v1, 98305, q15_16)]) 0x80104000#32 0#64) .v0 =
    some (.ok, 1, 0x20#32, reg 384 q7_8) := by decide +kernel

/-- CP6 -/
theorem test_cmpGe : result (issue (fresh [(.v0, 384, q7_8), (.v1, 98305, q15_16)]) 0x80025000#32 0#64) .v0 =
    some (.ok, 1, 0x20#32, reg 384 q7_8) := by decide +kernel

/-- CP17 -/
theorem test_cmpLt_mixed_sign : result (issue (fresh [(.v0, -65536, q15_16), (.v1, 16, u4_4)]) 0x80022000#32 0#64) .v0 =
    some (.ok, 1, 0x20#32, reg (-65536) q15_16) := by decide +kernel

/-- CP15 -/
theorem test_cmpGe_overflow : result (issue (fresh [(.v0, 0, q0_7), (.v1, 131072, q15_16)]) 0x80025000#32 0#64) .v0 =
    some (.overflow, 0, 0x01#32, reg 0 q0_7) := by decide +kernel

/-- CR1 -/
theorem test_crotc : (match issue (fresh [(.v0, 10, q3_4), (.v1, 0, q3_4), (.v2, 13, q3_4)]) 0xA0140000#32 0#64 with
      | .next t => some (t.rspCode, t.status, t.getV .v0, t.getV .v1, t.getV .v2) | _ => none) =
    some (.ok, 0x00#32, reg 9 q3_4, reg 13 q3_4, reg (-1) q3_4) := by decide +kernel

/-- CR5 -/
theorem test_croth : (match issue (fresh [(.v0, 16, q3_4), (.v1, 0, q3_4), (.v2, 0, q3_4)]) 0xA4140000#32 0#64 with
      | .next t => some (t.rspCode, t.status, t.getV .v0, t.getV .v1, t.getV .v2) | _ => none) =
    some (.ok, 0x00#32, reg 14 q3_4, reg 3 q3_4, reg (-1) q3_4) := by decide +kernel

/-- CR3 -/
theorem test_cvecc : (match issue (fresh [(.v0, 16, q3_4), (.v1, 16, q3_4), (.v2, 0, q3_4)]) 0xA8140000#32 0#64 with
      | .next t => some (t.rspCode, t.status, t.getV .v0, t.getV .v1, t.getV .v2) | _ => none) =
    some (.ok, 0x00#32, reg 37 q3_4, reg (-4) q3_4, reg 14 q3_4) := by decide +kernel

/-- CR7 -/
theorem test_cvecc_ignore : (match issue (fresh [(.v0, 63, q2_4i), (.v1, 63, q2_4i), (.v2, 0, q2_4i)]) 0xA8140000#32 0#64 with
      | .next t => some (t.rspCode, t.status, t.getV .v0, t.getV .v1, t.getV .v2) | _ => none) =
    some (.ok, 0x01#32, reg (-110) q2_4i, reg (-47) q2_4i, reg 14 q2_4i) := by decide +kernel

/-- CR4 -/
theorem test_cvech : (match issue (fresh [(.v0, 20, q3_4), (.v1, 12, q3_4), (.v2, 0, q3_4)]) 0xAC140000#32 0#64 with
      | .next t => some (t.rspCode, t.status, t.getV .v0, t.getV .v1, t.getV .v2) | _ => none) =
    some (.ok, 0x00#32, reg 13 q3_4, reg 0 q3_4, reg 13 q3_4) := by decide +kernel

/-- CR9 -/
theorem test_crotc_small_format : (match issue (fresh [(.v0, 0, 0x00400080#32), (.v1, 0, 0x00400080#32), (.v2, 0, 0x00400080#32)]) 0xA0140000#32 0#64 with
      | .next t => some (t.rspCode, t.status, t.getV .v0, t.getV .v1, t.getV .v2) | _ => none) =
    some (.illegal, 0x08#32, reg 0 0x00400080#32, reg 0 0x00400080#32, reg 0 0x00400080#32) := by decide +kernel

/-- LU14 -/
theorem test_lutrd : result (issue (State.reset.setF .f1 0x01C00A96#32) 0xC000D000#32 0#64) .v0 =
    some (.ok, 2532305, 0x00#32, reg 2532305 0x01C00A96#32) := by decide +kernel

/-- LU10 -/
theorem test_lutrd_kind_6 : result (issue (State.reset) 0xC0006000#32 0#64) .v0 =
    some (.illegal, 0, 0x08#32, VReg.reset) := by decide +kernel

/-- T23 -/
theorem test_rdst : result (issue (State.reset.setStatus 0x08#32) 0xE0000000#32 0#64) .v0 =
    some (.ok, 8, 0x08#32, VReg.reset) := by decide +kernel

/-- T24 -/
theorem test_clrst : result (issue (State.reset.setStatus 0x08#32) 0xE4000008#32 0#64) .v0 =
    some (.ok, 0, 0x00#32, VReg.reset) := by decide +kernel

/-- R247: the six tables for Q<3,4>. -/
theorem test_tables_q3_4 :
    (List.range 4).map (fun i => lutRound .atan i (Tag.ofWord q3_4)) = [13, 7, 4, 2] ∧
    (List.range 4).map (fun i => lutRound .atanh i (Tag.ofWord q3_4)) = [9, 4, 2, 1] ∧
    (List.range 4).map (fun i => lutRound .pow2 i (Tag.ofWord q3_4)) = [32, 23, 19, 17] ∧
    (List.range 4).map (fun i => lutRound .ipow2 i (Tag.ofWord q3_4)) = [8, 11, 13, 15] ∧
    lutRound .kcirc 0 (Tag.ofWord q3_4) = 10 ∧ lutRound .khyp 0 (Tag.ofWord q3_4) = 19 := by decide +kernel

/-- R92: the syntax of three commands. -/
theorem test_asm : asm (.lutrd .v0 .f1 4#3 0#12) 0#64 = "LUTRD v0, f1, KCIRC, 0" ∧
    asm (.wrap .v1 .f0) 0xFFFFFFFFFFFFFFFF#64 = "WRAP v1, f0, #-1" ∧ asm .rdst 0#64 = "RDST" := by decide +kernel

/-! ## Witnesses: for each statement with hypotheses, a case that meets them all, at a boundary of its range -/

/-- EncodeOfDecodeIsIdentity -/
theorem witness_encodeOfDecode : decode 0x41020000#32 = .ok (.add .v2 .v0 .v1) := by decide

/-- DecoderReadsTheOpcodeTable: the first and the last row, each with a word it covers. -/
theorem witness_decoderReadsTheTable :
    (∃ r ∈ opcodeRows, r.mnemonic = "NOP" ∧ r.covers 0x00000000#32 = true) ∧
    (∃ r ∈ opcodeRows, r.mnemonic = "CLRST" ∧ r.covers 0xE400003F#32 = true) := by
  refine ⟨⟨opcodeRows[0], by simp, by decide, by decide⟩, ⟨opcodeRows[30], by simp, by decide, by decide⟩⟩

/-- UndefinedOpcodesEndIllegal: the least and the greatest undefined OPC. -/
theorem witness_undefinedOpcode :
    decode 0x24000000#32 = .error .undefinedOpcode ∧ decode 0xFC000000#32 = .error .undefinedOpcode := by decide

/-- MalformedWordsEndIllegal: a word the decoder rejects, and the least malformed LUTRD kind. -/
theorem witness_malformed : (∀ i, decode 0x14800000#32 = .ok i → i.wellFormed = false) ∧
    ∀ i, decode 0xC0006000#32 = .ok i → i.wellFormed = false := by
  constructor
  · intro i h
    rw [show decode 0x14800000#32 = .error .unusedField by decide] at h
    cases h
  · intro i h
    rw [show decode 0xC0006000#32 = .ok (.lutrd .v0 .f0 6#3 0#12) by decide] at h
    cases h
    decide

/-- StepRunsTheDecodedInstruction -/
theorem witness_stepRuns : State.reset.busy = false ∧
    ({ State.reset with host := [.issue ⟨0xE0000000#32, 0#64⟩] } : State).host = .issue ⟨0xE0000000#32, 0#64⟩ :: [] ∧
    decode 0xE0000000#32 = .ok .rdst := by decide

/-- StepWithoutANewCommand: each of its four cases. -/
theorem witness_stepWithout : (State.reset.busy = false ∧ State.reset.host = []) ∧
    ((State.reset.setHost [.idle]).busy = false ∧ (State.reset.setHost [.idle]).host = .idle :: []) ∧
    (State.reset.setHost [.reset]).host = .reset :: [] ∧
    ((State.reset.accept ⟨0#32, 0#64⟩).busy = true ∧ ∀ r, (State.reset.accept ⟨0#32, 0#64⟩).host ≠ .reset :: r) := by
  refine ⟨by decide, by decide, by decide, by decide, fun r h => ?_⟩
  rw [show (State.reset.accept ⟨0#32, 0#64⟩).host = [] by decide] at h
  cases h

/-- ResetPutsAllStateInItsResetValue: with a command in flight and a reset as the host's next move. -/
theorem witness_reset : (⟨false, true, 0#32, 0#64⟩ : Pins).rstN = false ∧ (⟨true, true, 0#32, 0#64⟩ : Pins).rstN = true ∧
    ((State.reset.accept ⟨0#32, 0#64⟩).setHost [.reset]).host = .reset :: [] ∧
    ((State.reset.accept ⟨0#32, 0#64⟩).setHost [.reset]).busy = true := by decide

/-- StepKeepsTheInvariant: from a state with a loaded register and a command that changes another. -/
theorem witness_inv : (fresh [(.v0, 98304, q15_16)]).Inv ∧
    ∃ t, issue (fresh [(.v0, 98304, q15_16)]) 0x1C800000#32 0#64 = .next t ∧ t.getV .v1 = reg 98304 q15_16 := by
  refine ⟨⟨fun i _ => ?_, fun j => ?_, by decide⟩, ?_⟩
  · have h : ∀ i, ((fresh [(.v0, 98304, q15_16)]).getV i).valid = true → i = .v0 := by
      intro i; cases i <;> decide
    rw [h i ‹_›]
    exact ⟨by decide, by decide +kernel, fun _ => by decide +kernel⟩
  · cases j <;> decide
  · exact ⟨_, rfl, by decide⟩

/-- ErrorsArePrecise: an overflow, and a malformed word. -/
theorem witness_errors :
    (∃ t, (State.reset.accept ⟨0x0C000000#32, 0x80000000#64⟩).perform = .next t ∧ t.rspCode ≠ .ok) ∧
    ∃ t, (State.reset.accept ⟨0xFC000000#32, 0#64⟩).perform = .next t ∧ t.rspCode ≠ .ok :=
  ⟨⟨_, rfl, by decide +kernel⟩, ⟨_, rfl, by decide⟩⟩

/-- StickyBitsOnlyClearedByClrst, from a state with every sticky bit set. -/
theorem witness_sticky : (∀ m, Instr.rdst ≠ .clrst m) ∧ ∃ t, exec .rdst (State.reset.setStatus stickyMask) = .next t ∧
    (State.reset.setStatus stickyMask).status = stickyMask := by
  exact ⟨nofun, _, rfl, rfl⟩

/-- ValueRegistersChangeOnlyOnOk and EveryCommandKeepsItsFrame: a step that changes a register and keeps a valid one,
for the instruction and for the step that runs it. -/
theorem witness_valueRegisters :
    (∃ t, exec (.mov .v1 .v0) (fresh [(.v0, 98304, q15_16)]) = .next t ∧
      t.getV .v1 ≠ (fresh [(.v0, 98304, q15_16)]).getV .v1) ∧
    (∀ rest, ((fresh [(.v0, 98304, q15_16)]).setHost [.issue ⟨0x1C800000#32, 0#64⟩]).host ≠ .reset :: rest) ∧
    ∃ t, step ((fresh [(.v0, 98304, q15_16)]).setHost [.issue ⟨0x1C800000#32, 0#64⟩]) = .next t ∧
      ((fresh [(.v0, 98304, q15_16)]).getV .v0).valid = true ∧
      t.getV .v1 ≠ (fresh [(.v0, 98304, q15_16)]).getV .v1 :=
  ⟨⟨_, rfl, by decide⟩, fun rest h => by simp at h, ⟨_, rfl, by decide, by decide⟩⟩

/-- ResponseCodesAreTheListedOnes -/
theorem witness_codes : ∃ t, exec (.rdv .v0) State.reset = .next t ∧ t.rspCode = .illegal := ⟨_, rfl, by decide⟩

/-- DomainIsExactlyAZeroDivisor: a zero divisor in DIV and in DIVA, and a division that is none. -/
theorem witness_domain :
    (∃ t, exec (.div .v2 .v0 .v1) (fresh [(.v0, 98304, q15_16), (.v1, 0, q15_16)]) = .next t ∧ t.rspCode = .domain) ∧
    (∃ t, exec (.diva .v0 .v1) (fresh [(.v0, 98304, q15_16), (.v1, 0, q15_16)]) = .next t ∧ t.rspCode = .domain) ∧
    ∃ t, exec (.div .v2 .v0 .v1) (fresh [(.v0, 98304, q15_16), (.v1, 1, q15_16)]) = .next t ∧ t.rspCode = .ok :=
  ⟨⟨_, rfl, by decide⟩, ⟨_, rfl, by decide⟩, ⟨_, rfl, by decide +kernel⟩⟩

/-- InvalidSourceEndsIllegal, with a zero divisor beside the invalid register. -/
theorem witness_invalidSource : VName.v0 ∈ (Instr.div .v2 .v0 .v1).sources ∧
    ((fresh [(.v1, 0, q15_16)]).getV .v0).valid = false := by decide

/-- InvalidContentsAreUnobservable: two states that differ in an invalid register's contents. -/
theorem witness_alike : ∃ s t s' t' : State, s ≠ t ∧ s.Alike t ∧ exec (.rdv .v7) s = .next s' ∧
    exec (.rdv .v7) t = .next t' := by
  refine ⟨State.reset, { State.reset with vregs := { State.reset.vregs with v7 := ⟨false, 5, Tag.ofWord q0_7⟩ } }, _, _,
    by decide, ⟨fun i => ?_, rfl⟩, rfl, rfl⟩
  cases i <;> exact ⟨rfl, by decide⟩

/-- OtherCommandsIgnoreTheDataOperand -/
theorem witness_ignoresData : (∀ fs, Instr.nop ≠ .setfmt fs) ∧ (∀ rd fs, Instr.nop ≠ .wrap rd fs) ∧
    (∀ rd fs, Instr.nop ≠ .fromint rd fs) ∧ ∃ t, exec .nop State.reset = .next t :=
  ⟨nofun, nofun, nofun, _, rfl⟩

/-- ReadCommandsAreIdempotent: each of the five commands responds OK somewhere. -/
theorem witness_reads :
    (∃ t, exec .nop (fresh [(.v3, 5, q0_7)]) = .next t ∧ t.rspCode = .ok) ∧
    (∃ t, exec (.rdfmt .f3) (fresh [(.v3, 5, q0_7)]) = .next t ∧ t.rspCode = .ok) ∧
    (∃ t, exec (.rdv .v3) (fresh [(.v3, 5, q0_7)]) = .next t ∧ t.rspCode = .ok) ∧
    (∃ t, exec (.rdtag .v3) (fresh [(.v3, 5, q0_7)]) = .next t ∧ t.rspCode = .ok) ∧
    ∃ t, exec .rdst (fresh [(.v3, 5, q0_7)]) = .next t ∧ t.rspCode = .ok :=
  ⟨⟨_, rfl, by decide⟩, ⟨_, rfl, by decide⟩, ⟨_, rfl, by decide⟩, ⟨_, rfl, by decide⟩, ⟨_, rfl, by decide⟩⟩

/-- NothingChangesInFlight: a CROTC in Q<3,4> has 5 cycles to go when it is accepted (R224, R295). -/
theorem witness_inFlight :
    ((fresh [(.v0, 10, q3_4), (.v1, 0, q3_4), (.v2, 13, q3_4)]).accept ⟨0xA0140000#32, 0#64⟩).busy = true ∧
    ((fresh [(.v0, 10, q3_4), (.v1, 0, q3_4), (.v2, 13, q3_4)]).accept ⟨0xA0140000#32, 0#64⟩).cyclesLeft = 5 ∧
    (⟨true, true, 0#32, 0#64⟩ : Pins).rstN = true := by decide +kernel

/-- ClockEdgesRefineTheStep: a command of latency 1, with no edge after its first, and one of latency 5, with four. -/
theorem witness_clockEdges : State.reset.busy = false ∧
    (∀ p ∈ ([] : List Pins), p.rstN = true) ∧ ([] : List Pins).length + 1 = State.reset.latency 0#32 ∧
    (fresh [(.v0, 10, q3_4), (.v1, 0, q3_4), (.v2, 13, q3_4)]).busy = false ∧
    (∀ p ∈ List.replicate 4 (⟨true, true, 0#32, 0#64⟩ : Pins), p.rstN = true) ∧
    (List.replicate 4 (⟨true, true, 0#32, 0#64⟩ : Pins)).length + 1 =
      (fresh [(.v0, 10, q3_4), (.v1, 0, q3_4), (.v2, 13, q3_4)]).latency 0xA0140000#32 := by decide +kernel

/-- EveryCommandKeepsItsFrame: a CORDIC command that writes three registers and leaves a fourth. -/
theorem witness_frame : VName.v3 ∉ (Instr.crotc .v0 .v1 .v2).dests ∧
    ∃ t, exec (.crotc .v0 .v1 .v2) (fresh [(.v0, 10, q3_4), (.v1, 0, q3_4), (.v2, 13, q3_4), (.v3, 7, q3_4)]) =
      .next t ∧ t.getV .v3 = reg 7 q3_4 ∧ t.getV .v1 = reg 13 q3_4 :=
  ⟨by decide, _, rfl, by decide +kernel, by decide +kernel⟩

/-- WrapKeepsTheResidue, at the narrowest width and at the sign boundary of 8 bits. -/
theorem witness_wrap : 1 ≤ 1 ∧ wrapW 8 true 128 = -128 ∧ wrapW 8 true 127 = 127 ∧ wrapW 8 false 256 = 0 := by decide

/-- RhaRoundsHalfAway: two ties (R104: RHA(2.5) = 3, RHA(-2.5) = -3), the first in the reals too. -/
theorem witness_rha : |(rha (5 / 2) : ℚ) - 5 / 2| = 1 / 2 ∧ |(rha (-5 / 2) : ℚ) - -5 / 2| = 1 / 2 ∧
    |(rhaReal (5 / 2) : ℝ) - 5 / 2| = 1 / 2 :=
  ⟨by decide +kernel, by decide +kernel,
    by rw [rhaReal_eq (n := 3) (by norm_num) (by norm_num) (by norm_num)]; norm_num⟩

/-- CheckDetectsOverflow: both ends of Q<0,7>, and one past each, under both policies. -/
theorem witness_check : (least (Tag.ofWord q0_7) ≤ -128 ∧ (127 : Int) ≤ largest (Tag.ofWord q0_7)) ∧
    ((-129 : Int) < least (Tag.ofWord q0_7) ∧ (Tag.ofWord q0_7).op = .throw) ∧
    (largest (Tag.ofWord q0_7) < (128 : Int) ∧ (Tag.ofWord q0_7).op = .throw) ∧
    largest (Tag.ofWord q15_16i) < (2147483648 : Int) ∧ (Tag.ofWord q15_16i).op = .ignore := by decide

/-- NormalizeFloorsAndDetects: 255 and 1 ulp of Q<15,16> in Q<15,16> and in a format 8 bits coarser. -/
theorem witness_normalize :
    ((255 : Int) ≠ 0 ∧ rescale 255 (Tag.ofWord q15_16) (Tag.ofWord q7_8) = 0 ∧ (Tag.ofWord q7_8).up = .throw) ∧
    ((1 : Int) ≠ 0 ∧ rescale 1 (Tag.ofWord q31_32) (Tag.ofWord q15_16u) = 0 ∧ (Tag.ofWord q15_16u).up = .ignore) ∧
    ¬ ((256 : Int) ≠ 0 ∧ rescale 256 (Tag.ofWord q15_16) (Tag.ofWord q7_8) = 0) ∧
    ¬ ((-1 : Int) ≠ 0 ∧ rescale (-1) (Tag.ofWord q15_16) (Tag.ofWord q7_8) = 0) := by decide

/-- PromotionsAreLegal: an expandable and a fallback promotion of each kind. -/
theorem witness_promotions : (Tag.ofWord q15_16).legal = true ∧ (Tag.ofWord q31_32).legal = true ∧
    (sumTag (Tag.ofWord q15_16) (Tag.ofWord q15_16)).2 = true ∧ (sumTag (Tag.ofWord q31_32) (Tag.ofWord q15_16)).2 = false ∧
    (prodTag (Tag.ofWord q15_16) (Tag.ofWord q15_16)).2 = true ∧ (prodTag (Tag.ofWord q31_32) (Tag.ofWord q15_16)).2 = false ∧
    (quotTag (Tag.ofWord q15_16) (Tag.ofWord q15_16)).2 = true ∧ (quotTag (Tag.ofWord q31_32) (Tag.ofWord q15_16)).2 = false := by
  decide

/-- ExactProductHasNoError: the product that overflows, its neighbour, and an operand out of range (R22). -/
theorem witness_exactProduct : (prodTag (Tag.ofWord q0_7) (Tag.ofWord q0_7)).2 = true ∧
    inRange (-128) (Tag.ofWord q0_7) = true ∧ inRange (-127) (Tag.ofWord q0_7) = true ∧
    inRange (-128 * -128) (prodTag (Tag.ofWord q0_7) (Tag.ofWord q0_7)).1 = false ∧
    inRange (-128 * -127) (prodTag (Tag.ofWord q0_7) (Tag.ofWord q0_7)).1 = true ∧
    (prodTag (Tag.ofWord q2_4i) (Tag.ofWord q2_4i)).2 = true ∧ inRange 100 (Tag.ofWord q2_4i) = false := by decide

/-- R126 written out: the fallback product. -/
def rule126 (A B : Int) (a b : Tag) : Int :=
  let t := min (max ((a.n + b.n : Int) + (a.f + b.f) + (if a.s || b.s then 1 else 0) - 64) 0) b.f
  let prod := A * ⌊(B : ℚ) / 2 ^ t⌋
  let sh := b.f + b.e - t
  if 0 ≤ sh then ⌊(prod : ℚ) / 2 ^ sh⌋ else prod * 2 ^ (-sh).toNat

/-- R128 written out: u, the bits shifted away. -/
def rule128u (B : Int) (a b : Tag) : Int :=
  let need := (a.n : Int) + a.f + (if a.s || b.s then 1 else 0) + max ((b.f : Int) + b.e) 0 - 64
  min (min (max need 0) b.f) ((Nat.log 2 B.natAbs + 1 : Int) - 1)

/-- R128 written out: the fallback quotient. -/
def rule128 (A B : Int) (a b : Tag) : Int :=
  let u := rule128u B a b
  let A2 := ⌊(A : ℚ) / 2 ^ u⌋
  let B2 := ⌊(B : ℚ) / 2 ^ u⌋
  let q := (A2 : ℚ) * 2 ^ ((b.f : Int) + b.e) / B2
  if 0 ≤ q then ⌊q⌋ else ⌈q⌉

/-- ExactQuotientWithinOneUlp: the quotient that overflows, and its neighbour. -/
theorem witness_exactQuotient : (quotTag (Tag.ofWord q0_7) (Tag.ofWord q0_7)).2 = true ∧
    inRange (-128) (Tag.ofWord q0_7) = true ∧ inRange (-127) (Tag.ofWord q0_7) = true ∧
    inRange (-1) (Tag.ofWord q0_7) = true ∧ (-1 : Int) ≠ 0 ∧
    inRange ((shl (-128) 7).tdiv (-1)) (quotTag (Tag.ofWord q0_7) (Tag.ofWord q0_7)).1 = false ∧
    inRange ((shl (-127) 7).tdiv (-1)) (quotTag (Tag.ofWord q0_7) (Tag.ofWord q0_7)).1 = true := by decide

/-- FallbackQuotientIsTruncated: a quotient that drops 32 bits (AR17), and one with `need <= 0`. -/
theorem witness_fallbackQuotient : (5368709120 : Int) ≠ 0 ∧
    rule128u 5368709120 (Tag.ofWord q31_32) (Tag.ofWord q31_32) = 32 ∧ (1 : Int) ≠ 0 ∧
    ((Tag.ofWord q15_16).n : Int) + (Tag.ofWord q15_16).f + 1 + max ((Tag.ofWord q31_32).f + (Tag.ofWord q31_32).e) 0 - 64 ≤
      0 := by decide +kernel

/-- SetfmtWritesLegalWords: a legal word at the edge of its width, and a word of one bit too many. -/
theorem witness_setfmt :
    ((0x00C00407#64 : Data) = q7_8.setWidth 64 ∧ q7_8.extractLsb' 27 5 = 0#5 ∧
      (Tag.ofWord q7_8).n + (Tag.ofWord q7_8).f + (Tag.ofWord q7_8).sBits ≤ (Tag.ofWord q7_8).w.size ∧
      1 ≤ (Tag.ofWord q7_8).n + (Tag.ofWord q7_8).f) ∧
    ¬ ((0x00C00408#64 : Data).extractLsb' 32 32 = 0#32 ∧ legalWord ((0x00C00408#64 : Data).extractLsb' 0 32) = true) ∧
    ¬ ((0x000000010140080F#64 : Data).extractLsb' 32 32 = 0#32 ∧
      legalWord ((0x000000010140080F#64 : Data).extractLsb' 0 32) = true) := by decide

/-- WrapLoadsRawIntegers: the ends of Q<15,16>, and one past an end under each policy. -/
theorem witness_wrapRaw : State.reset.tagF .f0 = Tag.ofWord q15_16 ∧
    ((0xFFFFFFFF80000000#64 : Data).toInt = -2147483648 ∧ inRange (-2147483648) (Tag.ofWord q15_16) = true) ∧
    ((0x80000000#64 : Data).toInt = 2147483648 ∧ inRange 2147483648 (Tag.ofWord q15_16) = false ∧
      (Tag.ofWord q15_16).op = .throw) ∧
    inRange 2147483648 (Tag.ofWord q15_16i) = false ∧ (Tag.ofWord q15_16i).op = .ignore := by decide

/-- FromintScalesIntegers: the rounding case of T12, and one past the end of Q<15,16> under each policy. -/
theorem witness_fromint : (3 : Int) = rha (((5 : Int) : ℚ) * 2 ^ (Tag.ofWord q8m1).point) ∧
    inRange 3 (Tag.ofWord q8m1) = true ∧ 0 ≤ (Tag.ofWord q15_16).point ∧
    (2147483648 : Int) = rha (((32768 : Int) : ℚ) * 2 ^ (Tag.ofWord q15_16).point) ∧
    (inRange 2147483648 (Tag.ofWord q15_16) = false ∧ (Tag.ofWord q15_16).op = .throw) ∧
    inRange 2147483648 (Tag.ofWord q15_16i) = false ∧ (Tag.ofWord q15_16i).op = .ignore := by decide +kernel

/-- RegisterReadsComplete: a value register, and a legal tag whose fields all differ. -/
theorem witness_registerReads : (fresh [(.v3, 98304, q15_16)]).getV .v3 = ⟨true, 98304, Tag.ofWord q15_16⟩ ∧
    (⟨.w64, true, 5, 9, -3, .ignore, .throw⟩ : Tag).legal = true ∧
    (⟨.w64, true, 5, 9, -3, .ignore, .throw⟩ : Tag).toWord = 0x03FF4485#32 := by decide

/-- CvtConverts: -1, 1 and 200.0 in Q<15,16> to Q<7,8>; 1 ulp to an IGNORE format; 2^15 to an IGNORE format. -/
theorem witness_cvt : (fresh [(.v0, -1, q15_16)]).getV .v0 = ⟨true, -1, Tag.ofWord q15_16⟩ ∧
    ((-1 : Int) = ⌊((-1 : Int) : ℚ) * 2 ^ ((Tag.ofWord q7_8).point - (Tag.ofWord q15_16).point)⌋ ∧
      inRange (-1) (Tag.ofWord q7_8) = true) ∧
    ((0 : Int) = ⌊((1 : Int) : ℚ) * 2 ^ ((Tag.ofWord q7_8).point - (Tag.ofWord q15_16).point)⌋ ∧ (1 : Int) ≠ 0 ∧
      (Tag.ofWord q7_8).up = .throw) ∧
    ((0 : Int) = ⌊((1 : Int) : ℚ) * 2 ^ ((Tag.ofWord q15_16u).point - (Tag.ofWord q31_32).point)⌋ ∧
      (Tag.ofWord q15_16u).up = .ignore) ∧
    ((51200 : Int) = ⌊((13107200 : Int) : ℚ) * 2 ^ ((Tag.ofWord q7_8).point - (Tag.ofWord q15_16).point)⌋ ∧
      inRange 51200 (Tag.ofWord q7_8) = false ∧ (Tag.ofWord q7_8).op = .throw) ∧
    ((2147483648 : Int) = ⌊((140737488355328 : Int) : ℚ) * 2 ^ ((Tag.ofWord q15_16i).point - (Tag.ofWord q31_32).point)⌋ ∧
      inRange 2147483648 (Tag.ofWord q15_16i) = false ∧ (Tag.ofWord q15_16i).op = .ignore) := by decide +kernel

/-- The two operands of AR1 and of the statements about signed Q<15,16> pairs. -/
def pair (A : Int) (a : Word) (B : Int) (b : Word) : State := fresh [(.v0, A, a), (.v1, B, b)]

theorem pair_v0 (A B : Int) (a b : Word) : (pair A a B b).getV .v0 = ⟨true, A, Tag.ofWord a⟩ := rfl
theorem pair_v1 (A B : Int) (a b : Word) : (pair A a B b).getV .v1 = ⟨true, B, Tag.ofWord b⟩ := rfl

/-- ExpandableSumsComplete: AR1, the largest operands, and an unsigned difference of 0. -/
theorem witness_sums : ((pair 2147483647 q15_16 2147483647 q15_16).getV .v1 = ⟨true, 2147483647, Tag.ofWord q15_16⟩ ∧
    inRange 2147483647 (Tag.ofWord q15_16) = true ∧
    (2147483647 : Int) = ⌊((2147483647 : Int) : ℚ) * 2 ^ ((Tag.ofWord q15_16).point - (Tag.ofWord q15_16).point)⌋ ∧
    (2147483647 : Int) ≠ 0 ∧
    (Tag.ofWord q15_16).n + 1 + (Tag.ofWord q15_16).f + eitherSigned (Tag.ofWord q15_16) (Tag.ofWord q15_16) ≤ 64 ∧
    -128 ≤ (Tag.ofWord q15_16).e ∧ (Tag.ofWord q15_16).e ≤ 127 ∧ ((Tag.ofWord q15_16).s || (Tag.ofWord q15_16).s) = true) ∧
    (inRange 16 (Tag.ofWord u4_4) = true ∧
      (16 : Int) = ⌊((16 : Int) : ℚ) * 2 ^ ((Tag.ofWord u4_4).point - (Tag.ofWord u4_4).point)⌋ ∧ (16 : Int) ≤ 16 ∧
      (Tag.ofWord u4_4).n + 1 + (Tag.ofWord u4_4).f + eitherSigned (Tag.ofWord u4_4) (Tag.ofWord u4_4) ≤ 64) := by
  decide +kernel

/-- ArithmeticFollowsItsPseudocode: AR25's sum, which completes with OVF set, and AR9's product, which ends it. -/
theorem witness_pseudocode :
    (pair 2147483647 q15_16i 1 q15_16i).getV .v0 = ⟨true, 2147483647, Tag.ofWord q15_16i⟩ ∧
    (pair 2147483647 q15_16i 1 q15_16i).getV .v1 = ⟨true, 1, Tag.ofWord q15_16i⟩ ∧
    (((normalize 1 (Tag.ofWord q15_16i) (Tag.ofWord q15_16i)).andThen fun B2 =>
      check (2147483647 + B2) (sumTag (Tag.ofWord q15_16i) (Tag.ofWord q15_16i)).1).andThen fun r =>
        normalize r (sumTag (Tag.ofWord q15_16i) (Tag.ofWord q15_16i)).1 (Tag.ofWord q15_16i)) =
      ⟨ovf, .ok (-2147483648)⟩ ∧
    check (-128 * -128) (prodTag (Tag.ofWord q0_7) (Tag.ofWord q0_7)).1 = ⟨ovf, .error .overflow⟩ := by decide +kernel

/-- SameFormatAddCommutes -/
theorem witness_commutes : ((pair 98304 q15_16 (-16384) q15_16).getV .v0).t = ((pair 98304 q15_16 (-16384) q15_16).getV .v1).t ∧
    inRange 98304 (Tag.ofWord q15_16) = true ∧ inRange (-16384) (Tag.ofWord q15_16) = true := by decide

/-- ExpandableProductsComplete: AR9 and AR10, which both clauses meet. -/
theorem witness_products : inRange (-128) (Tag.ofWord q0_7) = true ∧ inRange 127 (Tag.ofWord q0_7) = true ∧
    (Tag.ofWord q0_7).n + (Tag.ofWord q0_7).n + ((Tag.ofWord q0_7).f + (Tag.ofWord q0_7).f) +
      eitherSigned (Tag.ofWord q0_7) (Tag.ofWord q0_7) ≤ 64 ∧
    -128 ≤ (Tag.ofWord q0_7).e + (Tag.ofWord q0_7).e ∧ (Tag.ofWord q0_7).e + (Tag.ofWord q0_7).e ≤ 127 ∧
    ¬ ((127 : Int) = least (Tag.ofWord q0_7)) ∧ (-128 : Int) = least (Tag.ofWord q0_7) ∧ (Tag.ofWord q0_7).s = true ∧
    (Tag.ofWord q0_7).op = .throw := by decide

/-- FallbackProductsComplete: AR11; a product of two ulps that is lost; and one that overflows. -/
theorem witness_fallbackProducts :
    (64 < (Tag.ofWord q20_20).n + (Tag.ofWord q10_20).n + ((Tag.ofWord q20_20).f + (Tag.ofWord q10_20).f) +
        eitherSigned (Tag.ofWord q20_20) (Tag.ofWord q10_20) ∧
      (2317286 : Int) = rule126 1363149 1782579 (Tag.ofWord q20_20) (Tag.ofWord q10_20) ∧
      inRange 2317286 (Tag.ofWord q20_20) = true) ∧
    ((0 : Int) = rule126 1 1 (Tag.ofWord q20_20) (Tag.ofWord q10_20) ∧ (Tag.ofWord q20_20).up = .throw) ∧
    (inRange (rule126 1099511627775 2097152 (Tag.ofWord q20_20) (Tag.ofWord q10_20)) (Tag.ofWord q20_20) = false ∧
      (Tag.ofWord q20_20).op = .throw) := by decide +kernel

/-- ExpandableQuotientsComplete: AR15, AR16 and its neighbour. -/
theorem witness_quotients : (pair 65536 q15_16 0 q15_16).getV .v1 = ⟨true, 0, Tag.ofWord q15_16⟩ ∧
    inRange (-128) (Tag.ofWord q0_7) = true ∧ inRange (-127) (Tag.ofWord q0_7) = true ∧
    inRange (-1) (Tag.ofWord q0_7) = true ∧
    (Tag.ofWord q0_7).n + (Tag.ofWord q0_7).f + ((Tag.ofWord q0_7).f + (Tag.ofWord q0_7).n) +
      eitherSigned (Tag.ofWord q0_7) (Tag.ofWord q0_7) ≤ 64 ∧
    -128 ≤ (Tag.ofWord q0_7).e - (Tag.ofWord q0_7).e ∧ (Tag.ofWord q0_7).e - (Tag.ofWord q0_7).e ≤ 127 ∧
    ¬ ((-127 : Int) = least (Tag.ofWord q0_7)) ∧ (-128 : Int) = least (Tag.ofWord q0_7) ∧ (Tag.ofWord q0_7).s = true ∧
    (Tag.ofWord q0_7).op = .throw := by decide

/-- FallbackQuotientsComplete: AR17; a quotient that is lost; and one that overflows. -/
theorem witness_fallbackQuotients :
    (64 < (Tag.ofWord q31_32).n + (Tag.ofWord q31_32).f + ((Tag.ofWord q31_32).f + (Tag.ofWord q31_32).n) +
        eitherSigned (Tag.ofWord q31_32) (Tag.ofWord q31_32) ∧
      (4294967296 : Int) = rule128 6442450944 5368709120 (Tag.ofWord q31_32) (Tag.ofWord q31_32) ∧
      (5368709120 : Int) ≠ 0 ∧ inRange 4294967296 (Tag.ofWord q31_32) = true) ∧
    ((0 : Int) = rule128 1 9223372036854775807 (Tag.ofWord q31_32) (Tag.ofWord q31_32) ∧
      (Tag.ofWord q31_32).up = .throw) ∧
    (inRange (rule128 9223372036854775807 1 (Tag.ofWord q31_32) (Tag.ofWord q31_32)) (Tag.ofWord q31_32) = false ∧
      (Tag.ofWord q31_32).op = .throw) := by decide +kernel

/-- NegNegates: the two ends of Q<0,7>, the low end under IGNORE, and both ends of U<4,4>. -/
theorem witness_neg : inRange 127 (Tag.ofWord q0_7) = true ∧ inRange (-128) (Tag.ofWord q0_7) = true ∧
    (Tag.ofWord q0_7).s = true ∧ (127 : Int) ≠ least (Tag.ofWord q0_7) ∧ (-128 : Int) = least (Tag.ofWord q0_7) ∧
    (Tag.ofWord q0_7).op = .throw ∧
    ((-2147483648 : Int) = least (Tag.ofWord q15_16i) ∧ (Tag.ofWord q15_16i).s = true ∧
      inRange (-2147483648) (Tag.ofWord q15_16i) = true ∧ (Tag.ofWord q15_16i).op = .ignore ∧
      (Tag.ofWord q15_16i).n + (Tag.ofWord q15_16i).f + 1 = (Tag.ofWord q15_16i).w.size) ∧
    (Tag.ofWord u4_4).s = false ∧ inRange 0 (Tag.ofWord u4_4) = true ∧ inRange 255 (Tag.ofWord u4_4) = true := by decide

/-- CompoundSumsComplete: AR24 and its neighbour, in an expandable format and in one that is not. -/
theorem witness_compoundSums :
    (1 : Int) = ⌊((1 : Int) : ℚ) * 2 ^ ((Tag.ofWord q15_16).point - (Tag.ofWord q15_16).point)⌋ ∧
    inRange 1 (Tag.ofWord q15_16) = true ∧ inRange (2147483646 + 1) (Tag.ofWord q15_16) = true ∧
    inRange (-2147483647 - 1) (Tag.ofWord q15_16) = true ∧
    inRange 2147483647 (Tag.ofWord q15_16) = true ∧ inRange (2147483647 + 1) (Tag.ofWord q15_16) = false ∧
    (Tag.ofWord q15_16).op = .throw ∧
    ((1 : Int) = ⌊((1 : Int) : ℚ) * 2 ^ ((Tag.ofWord q0_63).point - (Tag.ofWord q0_63).point)⌋ ∧
      inRange 1 (Tag.ofWord q0_63) = true ∧ inRange (9223372036854775806 + 1) (Tag.ofWord q0_63) = true) := by
  decide +kernel

/-- CompoundProductsComplete: AR27, AR28, and a product out of rd's range. -/
theorem witness_compoundProducts : (prodTag (Tag.ofWord q15_16) (Tag.ofWord q15_16)).2 = true ∧
    ¬ ((1 : Int) = least (Tag.ofWord q15_16)) ∧
    ((-24576 : Int) = ⌊(((98304 : Int) : ℚ) * ((-16384 : Int) : ℚ)) * 2 ^ (-(Tag.ofWord q15_16).point)⌋ ∧
      inRange 98304 (Tag.ofWord q15_16) = true ∧ inRange (-16384) (Tag.ofWord q15_16) = true ∧
      inRange (-24576) (Tag.ofWord q15_16) = true) ∧
    ((0 : Int) = ⌊(((1 : Int) : ℚ) * ((1 : Int) : ℚ)) * 2 ^ (-(Tag.ofWord q15_16).point)⌋ ∧
      inRange 1 (Tag.ofWord q15_16) = true ∧ (Tag.ofWord q15_16).up = .throw) ∧
    ((2147483648 : Int) = ⌊(((1073741824 : Int) : ℚ) * ((131072 : Int) : ℚ)) * 2 ^ (-(Tag.ofWord q15_16).point)⌋ ∧
      inRange 1073741824 (Tag.ofWord q15_16) = true ∧ inRange 131072 (Tag.ofWord q15_16) = true ∧
      inRange 2147483648 (Tag.ofWord q15_16) = false ∧ (Tag.ofWord q15_16).op = .throw) := by decide +kernel

/-- CompoundQuotientsComplete: AR29, AR30, a quotient that floors to 0, and one out of rd's range. -/
theorem witness_compoundQuotients : (quotTag (Tag.ofWord q15_16) (Tag.ofWord q15_16)).2 = true ∧
    (pair 98304 q15_16 0 q15_16).getV .v1 = ⟨true, 0, Tag.ofWord q15_16⟩ ∧
    ((-12884901888 : Int) = (98304 * 2 ^ 31 : Int).tdiv (-16384) ∧
      (-393216 : Int) = ⌊((-12884901888 : Int) : ℚ) * 2 ^ ((0 : Int) - 15)⌋ ∧
      inRange (-393216) (Tag.ofWord q15_16) = true) ∧
    ((1 : Int) = (1 * 2 ^ 31 : Int).tdiv 2147483647 ∧ (0 : Int) = ⌊((1 : Int) : ℚ) * 2 ^ ((0 : Int) - 15)⌋ ∧
      inRange 2147483647 (Tag.ofWord q15_16) = true ∧ (Tag.ofWord q15_16).up = .throw) ∧
    ((281474976710656 : Int) = (131072 * 2 ^ 31 : Int).tdiv 1 ∧
      (8589934592 : Int) = ⌊((281474976710656 : Int) : ℚ) * 2 ^ ((0 : Int) - 15)⌋ ∧
      inRange 131072 (Tag.ofWord q15_16) = true ∧ inRange 8589934592 (Tag.ofWord q15_16) = false ∧
      (Tag.ofWord q15_16).op = .throw) ∧
    (Tag.ofWord q15_16).n + (Tag.ofWord q15_16).f = 31 ∧ ((Tag.ofWord q15_16).e - (Tag.ofWord q15_16).n : Int) = 0 - 15 ∧
    ¬ ((98304 : Int) = least (Tag.ofWord q15_16)) := by decide +kernel

/-- ComparisonsComplete: CP1, and CP15's operand, which ends it. -/
theorem witness_comparisons : (pair 384 q7_8 98305 q15_16).getV .v1 = ⟨true, 98305, Tag.ofWord q15_16⟩ ∧
    normalize 98305 (Tag.ofWord q15_16) (Tag.ofWord q7_8) = ⟨0#32, .ok 384⟩ ∧
    normalize 131072 (Tag.ofWord q15_16) (Tag.ofWord q0_7) = ⟨ovf, .error .overflow⟩ := by decide +kernel

/-- ComparisonIdentities: six comparisons that answer, the first with OK, of two in-range operands of one tag. -/
theorem witness_comparisonIdentities : ∃ eq ne lt le gt ge : State,
    exec (.cmpEq .v0 .v1) (pair 5 q0_7 7 q0_7) = .next eq ∧ exec (.cmpNe .v0 .v1) (pair 5 q0_7 7 q0_7) = .next ne ∧
    exec (.cmpLt .v0 .v1) (pair 5 q0_7 7 q0_7) = .next lt ∧ exec (.cmpLe .v0 .v1) (pair 5 q0_7 7 q0_7) = .next le ∧
    exec (.cmpGt .v0 .v1) (pair 5 q0_7 7 q0_7) = .next gt ∧ exec (.cmpGe .v0 .v1) (pair 5 q0_7 7 q0_7) = .next ge ∧
    eq.rspCode = .ok ∧ (Tag.ofWord q0_7) = (Tag.ofWord q0_7) ∧ inRange 5 (Tag.ofWord q0_7) = true ∧
    inRange 7 (Tag.ofWord q0_7) = true :=
  ⟨_, _, _, _, _, _, rfl, rfl, rfl, rfl, rfl, rfl, by decide +kernel, rfl, by decide, by decide⟩

/-- SchedulesAreTheListedShifts: 4 is run twice, 5 once; lengths of H(3), H(4) and H(40) (R212, R248). -/
theorem witness_schedules : (schedule .hyperbolic 5).count 4 = 2 ∧ (schedule .hyperbolic 5).count 5 = 1 ∧
    repShift 0 = 4 ∧ repShift 1 = 13 ∧ repShift 2 = 40 ∧ (120 : Nat) < 121 ∧
    (schedule .hyperbolic 3).length = 3 ∧ (schedule .hyperbolic 4).length = 5 ∧ (schedule .hyperbolic 40).length = 43 := by
  decide +kernel

/-- EngineAnglesAreRepresentable: both engines in Q<3,4>, with the first and the last shift of each schedule. -/
theorem witness_angles : (Tag.ofWord q3_4).legal = true ∧ (Tag.ofWord q3_4).s = true ∧ 1 ≤ (Tag.ofWord q3_4).f ∧
    firstAngle .circular (Tag.ofWord q3_4) ≤ largest (Tag.ofWord q3_4) ∧
    firstAngle .hyperbolic (Tag.ofWord q3_4) ≤ largest (Tag.ofWord q3_4) ∧
    0 ∈ schedule .circular (Tag.ofWord q3_4).f ∧ 3 ∈ schedule .circular (Tag.ofWord q3_4).f ∧
    1 ∈ schedule .hyperbolic (Tag.ofWord q3_4).f ∧ 4 ∈ schedule .hyperbolic (Tag.ofWord q3_4).f := by decide +kernel

/-- EngineOperandsAreChecked: CR13, CR14, and the smallest format, whose entry 0 does not fit (CR9). -/
theorem witness_engineOperands :
    ((fresh [(.v0, 10, q3_4), (.v2, 13, q3_4)]).getV .v1).valid = false ∧
    ¬ (VName.v0 ≠ VName.v0) ∧
    ¬ (firstAngle .circular (Tag.ofWord 0x00400080#32) ≤ largest (Tag.ofWord 0x00400080#32)) := by decide +kernel

/-- One micro-step as R213 to R216 write it. -/
def ruleStep (c : Coord) (m : Mode) (t : Tag) (p : Lanes) (k : Nat) : Lanes :=
  let d : Int := if m = .rotation then (if 0 ≤ p.z then 1 else -1) else (if p.y < 0 then 1 else -1)
  { x := wrapW t.w.size true
      (if c = .circular then p.x - d * ⌊(p.y : ℚ) / 2 ^ k⌋ else p.x + d * ⌊(p.y : ℚ) / 2 ^ k⌋)
    y := wrapW t.w.size true (p.y + d * ⌊(p.x : ℚ) / 2 ^ k⌋)
    z := wrapW t.w.size true
      (if c = .circular then p.z - d * lutRound .atan k t else p.z - d * lutRound .atanh (k - 1) t) }

/-- EnginesComplete: the four engines run in Q<3,4>, which fills its width; CVECC overflows in Q<2,4> under each policy
(CR6, CR7). -/
theorem witness_engines :
    ((fresh [(.v0, 10, q3_4), (.v1, 0, q3_4), (.v2, 13, q3_4)]).getV .v1 = ⟨true, 0, Tag.ofWord q3_4⟩ ∧
      (fresh [(.v0, 10, q3_4), (.v1, 0, q3_4), (.v2, 13, q3_4)]).getV .v2 = ⟨true, 13, Tag.ofWord q3_4⟩ ∧
      (Tag.ofWord q3_4).s = true ∧ 1 ≤ (Tag.ofWord q3_4).f ∧
      lutRound .atan 0 (Tag.ofWord q3_4) ≤ largest (Tag.ofWord q3_4) ∧
      lutRound .atanh 0 (Tag.ofWord q3_4) ≤ largest (Tag.ofWord q3_4) ∧
      (Tag.ofWord q3_4).n + (Tag.ofWord q3_4).f + 1 = (Tag.ofWord q3_4).w.size) ∧
    ((Tag.ofWord q2_4).s = true ∧ 1 ≤ (Tag.ofWord q2_4).f ∧
      lutRound .atan 0 (Tag.ofWord q2_4) ≤ largest (Tag.ofWord q2_4) ∧
      inRange ((schedule .circular 4).foldl (ruleStep .circular .vectoring (Tag.ofWord q2_4)) ⟨63, 63, 0⟩).x
        (Tag.ofWord q2_4) = false ∧ (Tag.ofWord q2_4).op = .throw) ∧
    (lutRound .atan 0 (Tag.ofWord q2_4i) ≤ largest (Tag.ofWord q2_4i) ∧
      inRange ((schedule .circular 4).foldl (ruleStep .circular .vectoring (Tag.ofWord q2_4i)) ⟨63, 63, 0⟩).x
        (Tag.ofWord q2_4i) = false ∧ (Tag.ofWord q2_4i).op = .ignore) := by decide +kernel

/-- TableEntriesAreRoundedReals: the last entry of the longest tables, and a scale factor at F = 0. -/
theorem witness_tables : (Tag.ofWord q0_63).legal = true ∧ 62 < (Tag.ofWord q0_63).f ∧
    (Tag.ofWord 0x00400007#32).legal = true ∧ (0 : Nat) < 1 := by decide

/-- LutrdReadsTheTables: LU2 and LU3 either side of the length; LU11 past the range, and the same format under IGNORE. -/
theorem witness_lutrd : (0#3).toNat ≤ 3 ∧ (15#12).toNat < (Tag.ofWord q15_16).f ∧
    (Tag.ofWord q15_16).f ≤ (16#12).toNat ∧ ¬ (5#3).toNat ≤ 3 ∧ (0#12).toNat < 1 ∧ 1 ≤ (1#12).toNat ∧
    inRange (lutRound .atan 15 (Tag.ofWord q15_16)) (Tag.ofWord q15_16) = true ∧ 5 < (6#3).toNat ∧
    ((2#3).toNat = 2 ∧ inRange (lutRound .pow2 0 (Tag.ofWord 0x00000381#32)) (Tag.ofWord 0x00000381#32) = false ∧
      (Tag.ofWord 0x00000381#32).op = .throw) ∧
    (inRange (lutRound .pow2 0 (Tag.ofWord 0x02000381#32)) (Tag.ofWord 0x02000381#32) = false ∧
      (Tag.ofWord 0x02000381#32).op = .ignore) := by decide +kernel

/-- PseudoInstructionsExpand: CLRALL from a state with STATUS full, SETQ of the widest format and of one bit more, and LDQ
of 1.5, of an overflowing real whose stored integer is `2^64 + 5`, and of -1 in U<64,0>, where no operand overflows. -/
theorem witness_pseudo :
    ((State.reset.setStatus 0x3F#32).status &&& ~~~0x3F#32 = 0#32) ∧
    (1 ≤ 31 + 32 ∧ 31 + 32 + 1 ≤ 64 ∧ 64 < 31 + 33 + 1) ∧
    (Tag.ofWord q15_16 = Tag.ofWord (State.reset.fds.get .f0) ∧ State.reset.tagF .f0 = Tag.ofWord q15_16 ∧
      (Tag.ofWord q15_16).legal = true) ∧
    (fromRealV ((3 / 2 : ℚ) : ℝ) (Tag.ofWord q15_16) = 98304 ∧ inRange 98304 (Tag.ofWord q15_16) = true ∧
      fromReal ((3 / 2 : ℚ) : ℝ) (Tag.ofWord q15_16) = ⟨0#32, .ok 98304⟩) ∧
    (fromRealV (((2 ^ 64 + 5) / 65536 : ℚ) : ℝ) (Tag.ofWord q15_16) = 2 ^ 64 + 5 ∧
      inRange (2 ^ 64 + 5) (Tag.ofWord q15_16) = false ∧ (Tag.ofWord q15_16).op = .throw ∧
      (Tag.ofWord q15_16).n + (Tag.ofWord q15_16).f + (Tag.ofWord q15_16).sBits < 64 ∧
      fromReal (((2 ^ 64 + 5) / 65536 : ℚ) : ℝ) (Tag.ofWord q15_16) = ⟨ovf, .error .overflow⟩) ∧
    ((Tag.ofWord 0x01800040#32).legal = true ∧ fromRealV ((-1 : ℚ) : ℝ) (Tag.ofWord 0x01800040#32) = -1 ∧
      ldqOperand (-1) (Tag.ofWord 0x01800040#32) = none) := by
  simp only [fromRealV_ratCast, fromReal_ratCast]
  decide +kernel

/-- R93, R105: `LDQ v0, f0, #π/2` is `WRAP v0, f0, #102944` after reset (95_test_vectors.md L1.5). -/
theorem test_ldqPiHalf : (Pseudo.ldq .v0 .f0 (Real.pi / 2)).expand State.reset.fds =
    some ⟨0x0C000000#32, 102944#64⟩ := by
  have h : fromRealV (Real.pi / 2) (Tag.ofWord (State.reset.fds.get .f0)) = 102944 := by
    have e : (2 : ℝ) ^ (Tag.ofWord (State.reset.fds.get .f0)).point = 65536 := by
      rw [show (Tag.ofWord (State.reset.fds.get .f0)).point = 16 by decide]; norm_num
    have := Real.pi_gt_d6
    have := Real.pi_lt_d6
    rw [fromRealV, e]
    apply rhaReal_eq <;> push_cast <;> linarith
  rw [Pseudo.expand, h]
  decide +kernel

/-- R93: LDQ of a stored integer `2^64 + 5`, beyond 64 bits, is a WRAP that overflows by itself. -/
theorem test_ldqBeyond : (ldqOperand (2 ^ 64 + 5) (Tag.ofWord q15_16)).map (fun d =>
    check (dataInt (Tag.ofWord q15_16) d) (Tag.ofWord q15_16)) = some (Ev.raise ovf .overflow) := by decide +kernel

end Sys2Proof.Tests
end

/-! # Proofs of the statements about the state (10_state.md) -/

section
/-! How a step and a command begin: the host's move, the decoded word, and what a command cannot see. -/
namespace Sys2Proof.Machine

variable {s t : State}

/-- A reset by the host comes first, in flight or not (R290). -/
theorem step_of_reset {rest : List HostMove} (hh : s.host = .reset :: rest) :
    step s = .next (s.setHost rest).toReset := by simp [step, State.advance, hh]

/-- A command in flight is performed (log entry 5). -/
theorem step_of_busy (hb : s.busy = true) (hr : ∀ rest, s.host ≠ .reset :: rest) : step s = s.perform := by
  unfold step State.advance
  split
  · next rest hh => exact absurd hh (hr rest)
  all_goals simp [hb]

/-- A command the host issues is accepted and performed (R41, R43). -/
theorem step_of_issue {c : Command} {rest : List HostMove} (hb : s.busy = false) (hh : s.host = .issue c :: rest) :
    step s = ((s.setHost rest).accept c).perform := by simp [step, State.advance, hh, hb]

/-- On an idle move the response's one cycle ends (R40). -/
theorem step_of_idle {rest : List HostMove} (hb : s.busy = false) (hh : s.host = .idle :: rest) :
    step s = .next (s.setHost rest).idle := by simp [step, State.advance, hh, hb]

/-- With no move left the response's one cycle ends (R40). -/
theorem step_of_nil (hb : s.busy = false) (hh : s.host = []) : step s = .next s.idle := by
  simp [step, State.advance, hh, hb]

/-- Everything a step can do to the architectural state: a reset, nothing, or one command. -/
theorem step_cases (s : State) :
    (∃ rest, s.host = .reset :: rest ∧ step s = .next (s.setHost rest).toReset) ∨
    (∃ moves, step s = .next (s.setHost moves).idle) ∨ ∃ u, SameArch u s ∧ step s = u.perform := by
  by_cases hr : ∃ rest, s.host = .reset :: rest
  · obtain ⟨rest, hh⟩ := hr
    exact .inl ⟨rest, hh, step_of_reset hh⟩
  cases hb : s.busy
  case true => exact .inr (.inr ⟨s, ⟨rfl, rfl, rfl⟩, step_of_busy hb (not_exists.1 hr)⟩)
  match hh : s.host with
  | .reset :: rest => exact absurd ⟨rest, hh⟩ hr
  | .issue c :: rest => exact .inr (.inr ⟨(s.setHost rest).accept c, ⟨rfl, rfl, rfl⟩, step_of_issue hb hh⟩)
  | .idle :: rest => exact .inr (.inl ⟨rest, step_of_idle hb hh⟩)
  | [] => exact .inr (.inl ⟨s.host, step_of_nil hb hh⟩)

/-- A word that decodes is performed as its instruction (R83). -/
theorem State.perform_of_decode {i : Instr} (h : decode s.cmd = .ok i) : s.perform = exec i s := by
  simp [State.perform, h]

/-- A malformed word is performed as the ILLEGAL abort (R79). -/
theorem State.perform_of_malformed {r : Reject} (h : decode s.cmd = .error r) :
    s.perform = .next (s.abort ill .illegal) := by simp [State.perform, h]

/-- Everything performing a command can do: its instruction, or the ILLEGAL abort of a malformed word. -/
theorem State.perform_cases (h : s.perform = .next t) :
    (∃ i, decode s.cmd = .ok i ∧ exec i s = .next t) ∨ t = s.abort ill .illegal := by
  cases hd : decode s.cmd with
  | ok i => exact .inl ⟨i, rfl, (State.perform_of_decode hd).symm.trans h⟩
  | error r =>
    rw [State.perform_of_malformed hd] at h
    cases h
    exact .inr rfl

theorem SameArch.getV_eq (h : SameArch s t) (i : VName) : s.getV i = t.getV i := congrArg (·.get i) h.1

theorem SameArch.getF_eq (h : SameArch s t) (j : FName) : s.getF j = t.getF j := congrArg (·.get j) h.2.1

/-! Two states in which every command reads the same operands. -/

/-- All that a command reads, but for the operand test of the engines, is the same in both states. -/
structure SameReads (s t : State) : Prop where
  readV : ∀ i, s.readV i = t.readV i
  fds : s.fds = t.fds
  status : s.status = t.status
  cmdData : s.cmdData = t.cmdData

theorem SameReads.refl (s : State) : SameReads s s := ⟨fun _ => rfl, rfl, rfl, rfl⟩

theorem SameReads.read2 (h : SameReads s t) (i j : VName) : s.read2 i j = t.read2 i j := by
  simp only [State.read2, h.readV]

theorem SameReads.getF (h : SameReads s t) (j : FName) : s.getF j = t.getF j := by
  simp only [State.getF, h.fds]

theorem SameReads.tagF (h : SameReads s t) (j : FName) : s.tagF j = t.tagF j := by
  simp only [State.tagF, h.getF]

theorem SameReads.readStatus (h : SameReads s t) : s.readStatus = t.readStatus := by
  simp only [State.readStatus, h.status]

/-- Each way a command can end gives related outcomes from the two states. -/
structure EndsRelate (R : Host.Outcome State Fault Refusal → Host.Outcome State Fault Refusal → Prop)
    (s t : State) : Prop where
  finishV : ∀ rd e, R (s.finishV rd e) (t.finishV rd e)
  finishR : ∀ e, R (s.finishR e) (t.finishR e)
  finishC : ∀ e, R (s.finishC e) (t.finishC e)
  setfmt : ∀ fs, R (execSetfmt fs s) (execSetfmt fs t)
  clrst : ∀ mask, R (execClrst mask s) (execClrst mask t)
  cordic : ∀ c m rd rs1 rs2, R (s.cordic c m rd rs1 rs2) (t.cordic c m rd rs1 rs2)

/-- From states with the same operands, every instruction comes to one computation and ends with it. -/
theorem exec_relates {R : Host.Outcome State Fault Refusal → Host.Outcome State Fault Refusal → Prop}
    (h : SameReads s t) (hR : EndsRelate R s t) (i : Instr) : R (exec i s) (exec i t) := by
  cases i <;> simp only [exec]
  case nop => exact hR.finishR _
  case setfmt => exact hR.setfmt _
  case clrst => exact hR.clrst _
  case rdfmt => simp only [execRdfmt, h.getF]; exact hR.finishR _
  case rdst => simp only [execRdst, h.readStatus]; exact hR.finishR _
  case rdv => simp only [execRdv, h.readV]; exact hR.finishR _
  case rdtag => simp only [execRdtag, h.readV]; exact hR.finishR _
  case wrap => simp only [execWrap, h.tagF, h.cmdData]; exact hR.finishV _ _
  case fromint => simp only [execFromint, h.tagF, h.cmdData]; exact hR.finishV _ _
  case mov => simp only [execMov, h.readV]; exact hR.finishV _ _
  case cvt => simp only [execCvt, h.readV, h.tagF]; exact hR.finishV _ _
  case neg => simp only [execNeg, h.readV]; exact hR.finishV _ _
  case lutrd => simp only [execLutrd, h.tagF]; exact hR.finishV _ _
  case add | sub | mul | div =>
    simp only [execAdd, execSub, execMul, execDiv, h.read2]; exact hR.finishV _ _
  case adda | suba | mula | diva =>
    simp only [execAdda, execSuba, execMula, execDiva, h.read2]; exact hR.finishV _ _
  case cmpEq | cmpNe | cmpLt | cmpLe | cmpGt | cmpGe =>
    simp only [execCmpEq, execCmpNe, execCmpLt, execCmpLe, execCmpGt, execCmpGe, h.read2]; exact hR.finishC _
  case crotc | croth | cvecc | cvech => exact hR.cordic _ _ _ _ _

/-! No command sees the cycles left. -/

/-- The state with another count of cycles left. -/
def State.setCycles (s : State) (k : Nat) : State := { s with cyclesLeft := k }

/-- The end of a command does not see the cycles left: the response sets them to 0 (R42). -/
theorem State.finish_setCycles {α : Type} {e : Ev α} {write : State → α → State} {rsp : α → Data} (s : State) (k : Nat)
    (hw : ∀ u k a, write (u.setCycles k) a = (write u a).setCycles k) :
    (s.setCycles k).finish e write rsp = s.finish e write rsp := by
  unfold State.finish
  cases e.out with
  | ok a =>
    exact (congrArg (fun u : State => Host.Outcome.next (u.respond .ok (rsp a))) (hw (s.raiseFlags e.flags) k a) :)
  | error c => rfl

/-- No instruction sees the cycles left (R34). -/
theorem exec_setCycles (i : Instr) (s : State) (k : Nat) : exec i (s.setCycles k) = exec i s :=
  exec_relates (R := (· = ·)) ⟨fun _ => rfl, rfl, rfl, rfl⟩
    { finishV := fun _ _ => s.finish_setCycles k fun _ _ _ => rfl
      finishR := fun _ => s.finish_setCycles k fun _ _ _ => rfl
      finishC := fun _ => s.finish_setCycles k fun _ _ _ => rfl
      setfmt := fun _ => s.finish_setCycles k fun _ _ _ => rfl
      clrst := fun _ => s.finish_setCycles k fun _ _ _ => rfl
      cordic := fun _ _ _ _ _ => s.finish_setCycles k fun _ _ _ => rfl } i

/-- Performing a command does not see the cycles left (R34). -/
theorem State.perform_setCycles (s : State) (k : Nat) : (s.setCycles k).perform = s.perform := by
  cases hd : decode s.cmd with
  | ok i => rw [State.perform_of_decode hd, ← exec_setCycles i s k]; exact State.perform_of_decode hd
  | error r => rw [State.perform_of_malformed hd]; exact State.perform_of_malformed (s := s.setCycles k) hd

/-- The outcome of a command from `s`: a next state, with its one response given and the command index advanced. -/
def RespondsOnce (s : State) (o : Host.Outcome State Fault Refusal) : Prop :=
  ∃ t, o = .next t ∧ t.rspValid = true ∧ t.busy = false ∧ t.cyclesLeft = 0 ∧ t.index = s.index + 1

/-- Both ends of a command are a response (R42, R266). -/
theorem State.finish_respondsOnce {α : Type} {e : Ev α} {write : State → α → State} {rsp : α → Data} (s : State)
    (hw : ∀ u a, (write u a).index = u.index) : RespondsOnce s (s.finish e write rsp) := by
  cases h : e.out with
  | ok a => exact ⟨_, s.finish_ok write rsp h, rfl, rfl, rfl, congrArg (· + 1) (hw (s.raiseFlags e.flags) a)⟩
  | error c => exact ⟨_, s.finish_error write rsp h, rfl, rfl, rfl, rfl⟩

/-- Every instruction answers with one response (R42, R43). -/
theorem exec_respondsOnce (i : Instr) (s : State) : RespondsOnce s (exec i s) :=
  exec_relates (R := fun o _ => RespondsOnce s o) (SameReads.refl s)
    { finishV := fun _ _ => s.finish_respondsOnce fun _ _ => rfl
      finishR := fun _ => s.finish_respondsOnce fun _ _ => rfl
      finishC := fun _ => s.finish_respondsOnce fun _ _ => rfl
      setfmt := fun _ => s.finish_respondsOnce fun _ _ => rfl
      clrst := fun _ => s.finish_respondsOnce fun _ _ => rfl
      cordic := fun _ _ _ _ _ => s.finish_respondsOnce fun _ _ => rfl } i

/-- Performing a command answers a next state (R43). -/
theorem State.perform_next (s : State) : ∃ t, s.perform = .next t := by
  cases hd : decode s.cmd with
  | ok i =>
    obtain ⟨t, ht, -⟩ := exec_respondsOnce i s
    exact ⟨t, (State.perform_of_decode hd).trans ht⟩
  | error r => exact ⟨_, State.perform_of_malformed hd⟩

/-- Every step answers a next state (R43). -/
theorem step_next (s : State) : ∃ t, step s = .next t := by
  rcases step_cases s with ⟨_, -, h⟩ | ⟨_, h⟩ | ⟨u, -, h⟩
  · exact ⟨_, h⟩
  · exact ⟨_, h⟩
  · rw [h]; exact u.perform_next

end Sys2Proof.Machine
end

section
/-! What a register write needs, so that every step keeps the invariant of the state (R22, R24, R27). -/
namespace Sys2Proof.Machine

variable {s t : State}

/-- A value a command may write: whatever the computation answers satisfies R22. -/
def Ev.Storable (e : Ev (Int × Tag)) : Prop := ∀ a, e.out = .ok a → (⟨true, a.1, a.2⟩ : VReg).Ok

theorem Ev.storable_andThen {α : Type} {m : Ev α} {k : α → Ev (Int × Tag)}
    (hk : ∀ a, m.out = .ok a → (k a).Storable) : (m.andThen k).Storable := by
  intro b hb
  obtain ⟨a, ha, hb, -⟩ := Ev.andThen_out_ok hb
  exact hk a ha b hb

/-- A value with its tag is storable when each value answered is. -/
theorem Ev.storable_tagged {m : Ev Int} {g : Tag} (h : ∀ v, m.out = .ok v → (⟨true, v, g⟩ : VReg).Ok) :
    (m.andThen fun v => Ev.val (v, g)).Storable := by
  refine Ev.storable_andThen fun v hv a ha => ?_
  cases ha
  exact h v hv

/-- What a read answers is what a valid register holds. -/
theorem State.readV_out_ok {i : VName} {x : Int × Tag} (h : (s.readV i).out = .ok x) :
    s.getV i = ⟨true, x.1, x.2⟩ := by
  cases hg : s.getV i with
  | mk valid v g =>
    cases valid with
    | false => rw [State.readV_invalid (by rw [hg])] at h; cases h
    | true => rw [State.readV_valid hg] at h; cases h; rfl

theorem State.read2_out_ok {i j : VName} {p : (Int × Tag) × (Int × Tag)} (h : (s.read2 i j).out = .ok p) :
    s.getV i = ⟨true, p.1.1, p.1.2⟩ ∧ s.getV j = ⟨true, p.2.1, p.2.2⟩ := by
  obtain ⟨x, hx, h, -⟩ := Ev.andThen_out_ok h
  obtain ⟨y, hy, h, -⟩ := Ev.andThen_out_ok h
  cases h
  exact ⟨State.readV_out_ok hx, State.readV_out_ok hy⟩

/-- A register that a command reads holds a storable value (R22). -/
theorem storable_readV (hs : ∀ r, (s.getV r).Ok) (i : VName) : (s.readV i).Storable :=
  fun _ ha => State.readV_out_ok ha ▸ hs i

/-- The tag of a register that a command reads is legal (R22). -/
theorem legal_of_readV (hs : ∀ r, (s.getV r).Ok) {i : VName} {x : Int × Tag} (h : (s.readV i).out = .ok x) :
    x.2.legal = true := (storable_readV hs i x h rfl).1

/-- The tag of the first register that a command reads is legal (R22). -/
theorem legal_of_read2 (hs : ∀ r, (s.getV r).Ok) {i j : VName} {p : (Int × Tag) × (Int × Tag)}
    (h : (s.read2 i j).out = .ok p) : p.1.2.legal = true := by
  have hi := hs i
  rw [(State.read2_out_ok h).1] at hi
  exact (hi rfl).1

/-- A format register holds a legal tag (R24, R26). -/
theorem legal_tagF (hf : ∀ j, legalWord (s.getF j) = true) (j : FName) : (s.tagF j).legal = true := by
  have h := hf j
  simp only [legalWord, Bool.and_eq_true] at h
  exact h.2

/-! The value each command may write (41_transfer.md to 45_lut.md). -/

theorem storable_check {g : Tag} (hg : g.legal = true) (r : Int) :
    ((check r g).andThen fun v => Ev.val (v, g)).Storable := Ev.storable_tagged fun _ => ok_of_check hg

theorem storable_normalize {g : Tag} (hg : g.legal = true) (r : Int) (a : Tag) :
    ((normalize r a g).andThen fun v => Ev.val (v, g)).Storable := Ev.storable_tagged fun _ => ok_of_normalize hg

theorem storable_sumValue (op : Int → Int → Int) {x y : Int × Tag} (hx : x.2.legal = true) :
    (sumValue op x y).Storable := Ev.storable_andThen fun _ _ => storable_check (sumTag_legal hx) _

/-- What the fallback product answers is checked against the left tag (R126). -/
theorem ok_of_mulFallback {A B v : Int} {a b : Tag} (ha : a.legal = true)
    (h : (mulFallback A a B b).out = .ok v) : (⟨true, v, a⟩ : VReg).Ok := by
  obtain ⟨_, -, h, -⟩ := Ev.andThen_out_ok h
  obtain ⟨_, -, h, -⟩ := Ev.andThen_out_ok h
  exact ok_of_check ha h

/-- What the fallback quotient answers is checked against the left tag (R128). -/
theorem ok_of_divFallback {A B v : Int} {a b : Tag} (ha : a.legal = true)
    (h : (divFallback A a B b).out = .ok v) : (⟨true, v, a⟩ : VReg).Ok := by
  obtain ⟨_, -, h, -⟩ := Ev.andThen_out_ok h
  obtain ⟨_, -, h, -⟩ := Ev.andThen_out_ok h
  exact ok_of_check ha h

theorem storable_mulValue {x y : Int × Tag} (hx : x.2.legal = true) : (mulValue x y).Storable := by
  refine Ev.storable_tagged fun v hv => ?_
  cases he : (prodTag x.2 y.2).2 <;> simp only [he, if_true, Bool.false_eq_true, if_false] at hv
  · rw [show (prodTag x.2 y.2).1 = x.2 from promote_fst_of_false he]
    exact ok_of_mulFallback hx hv
  · exact ok_of_check (prodTag_legal hx) hv

theorem storable_divValue {x y : Int × Tag} (hx : x.2.legal = true) : (divValue x y).Storable := by
  unfold divValue
  split
  · intro a ha; cases ha
  refine Ev.storable_tagged fun v hv => ?_
  cases he : (quotTag x.2 y.2).2 <;> simp only [he, if_true, Bool.false_eq_true, if_false] at hv
  · rw [show (quotTag x.2 y.2).1 = x.2 from promote_fst_of_false he]
    exact ok_of_divFallback hx hv
  · exact ok_of_check (quotTag_legal hx) hv

theorem storable_inPlace (m : Ev (Int × Tag)) {a : Tag} (ha : a.legal = true) : (inPlace m a).Storable :=
  Ev.storable_andThen fun _ _ => storable_normalize ha _ _

theorem storable_lutrdValue (kind : BitVec 3) (n : BitVec 12) {g : Tag} (hg : g.legal = true) :
    (lutrdValue kind n g).Storable := by
  unfold lutrdValue
  split
  · intro a ha; cases ha
  split
  · exact storable_check hg _
  · intro a ha; cases ha

/-- The operand test of an engine asks that its three registers are valid (R210). -/
theorem State.valid_of_cordicLegal {c : Coord} {rd rs1 rs2 : VName} (h : s.cordicLegal c rd rs1 rs2 = true) :
    (s.getV rd).valid = true ∧ (s.getV rs1).valid = true ∧ (s.getV rs2).valid = true := by
  simp only [State.cordicLegal, Bool.and_eq_true] at h
  tauto

/-- An engine that answers has a valid first register. -/
theorem valid_of_cordicLanes {c : Coord} {m : Mode} {rd rs1 rs2 : VName} {l : Lanes}
    (h : (cordicLanes c m rd rs1 rs2 s).out = .ok l) : (s.getV rd).valid = true := by
  unfold cordicLanes at h
  split at h
  · next hc => exact (State.valid_of_cordicLegal hc).1
  · cases h

/-- The lanes an engine answers are each checked against the one legal tag of its registers (R210, R217). -/
theorem ok_of_cordicLanes (hs : ∀ r, (s.getV r).Ok) {c : Coord} {m : Mode} {rd rs1 rs2 : VName} {l : Lanes}
    (h : (cordicLanes c m rd rs1 rs2 s).out = .ok l) :
    (⟨true, l.x, (s.getV rd).t⟩ : VReg).Ok ∧ (⟨true, l.y, (s.getV rd).t⟩ : VReg).Ok ∧
      (⟨true, l.z, (s.getV rd).t⟩ : VReg).Ok := by
  unfold cordicLanes at h
  split at h
  case isFalse => cases h
  case isTrue hc =>
    have hlegal := (hs rd (State.valid_of_cordicLegal hc).1).1
    obtain ⟨x, hx, h, -⟩ := Ev.andThen_out_ok h
    obtain ⟨y, hy, h, -⟩ := Ev.andThen_out_ok h
    obtain ⟨z, hz, h, -⟩ := Ev.andThen_out_ok h
    cases h
    exact ⟨ok_of_check hlegal hx, ok_of_check hlegal hy, ok_of_check hlegal hz⟩

/-- Every instruction keeps its frame, however it ends (R23, R24, R27). -/
theorem exec_frame {i : Instr} (h : exec i s = .next t) : Frame i s t := by
  rcases exec_answers h with ⟨fl, c, hfl, -, -, -, rfl⟩ | ⟨u, d, ⟨hu, -, -⟩, -, rfl⟩
  · exact ⟨fun _ _ => rfl, fun _ _ => rfl, or_outside (bitsIn_and_left hfl), rfl, rfl, rfl⟩
  · exact hu

/-- A command whose rule names no destination writes no value register (R23). -/
theorem exec_getV_of_no_dests {i : Instr} (hd : i.dests = []) (h : exec i s = .next t) (r : VName) :
    t.getV r = s.getV r := by
  obtain ⟨hkeep, -⟩ := exec_frame h
  exact hkeep r (by simp [hd])

/-! Every instruction leaves registers that satisfy R22, legal format words and a STATUS whose reserved bits are 0. -/

theorem getV_setV_ok (hs : ∀ r, (s.getV r).Ok) {v : Int} {g : Tag} (h : (⟨true, v, g⟩ : VReg).Ok) (i r : VName) :
    ((s.setV i v g).getV r).Ok := by
  by_cases e : r = i
  · rw [e, State.getV_setV_same]; exact h
  · rw [State.getV_setV_of_ne _ _ _ e]; exact hs r

/-- A command keeps R22 when the writes of its end do. -/
theorem getV_ok_finish {α : Type} {e : Ev α} {write : State → α → State} {rsp : α → Data}
    (hs : ∀ r, (s.getV r).Ok) (hw : ∀ a, e.out = .ok a → ∀ r, ((write (s.raiseFlags e.flags) a).getV r).Ok)
    (h : s.finish e write rsp = .next t) : ∀ r, (t.getV r).Ok := by
  rcases State.finish_cases h with ⟨a, ha, rfl⟩ | ⟨c, -, rfl⟩
  · exact hw a ha
  · exact hs

theorem getV_ok_finishV {rd : VName} {e : Ev (Int × Tag)} (hs : ∀ r, (s.getV r).Ok) (he : e.Storable)
    (h : s.finishV rd e = .next t) : ∀ r, (t.getV r).Ok :=
  getV_ok_finish hs (fun a ha => getV_setV_ok hs (he a ha) rd) h

theorem getV_ok_cordic {c : Coord} {m : Mode} {rd rs1 rs2 : VName} (hs : ∀ r, (s.getV r).Ok)
    (h : s.cordic c m rd rs1 rs2 = .next t) : ∀ r, (t.getV r).Ok := by
  refine getV_ok_finish hs (fun l hl => ?_) h
  obtain ⟨hx, hy, hz⟩ := ok_of_cordicLanes hs hl
  exact getV_setV_ok (getV_setV_ok (getV_setV_ok hs hx rd) hy rs1) hz rs2

/-- R22 -/
theorem exec_getV_ok {i : Instr} (hs : ∀ r, (s.getV r).Ok) (hf : ∀ j, legalWord (s.getF j) = true)
    (h : exec i s = .next t) : ∀ r, (t.getV r).Ok := by
  by_cases hd : i.dests = []
  · intro r; rw [exec_getV_of_no_dests hd h]; exact hs r
  cases i <;> simp only [exec] at h
  case nop | setfmt | rdfmt | rdv | rdtag | rdst | clrst => exact absurd rfl hd
  case cmpEq | cmpNe | cmpLt | cmpLe | cmpGt | cmpGe => exact absurd rfl hd
  case wrap fs | fromint fs => exact getV_ok_finishV hs (storable_check (legal_tagF hf fs) _) h
  case mov rs1 => exact getV_ok_finishV hs (storable_readV hs rs1) h
  case cvt rs1 fs =>
    exact getV_ok_finishV hs (Ev.storable_andThen fun _ _ => storable_normalize (legal_tagF hf fs) _ _) h
  case neg => exact getV_ok_finishV hs (Ev.storable_andThen fun _ hx => storable_check (legal_of_readV hs hx) _) h
  case add | sub =>
    exact getV_ok_finishV hs (Ev.storable_andThen fun _ hp => storable_sumValue _ (legal_of_read2 hs hp)) h
  case mul => exact getV_ok_finishV hs (Ev.storable_andThen fun _ hp => storable_mulValue (legal_of_read2 hs hp)) h
  case div => exact getV_ok_finishV hs (Ev.storable_andThen fun _ hp => storable_divValue (legal_of_read2 hs hp)) h
  case adda | suba | mula | diva =>
    exact getV_ok_finishV hs (Ev.storable_andThen fun _ hp => storable_inPlace _ (legal_of_read2 hs hp)) h
  case crotc | croth | cvecc | cvech => exact getV_ok_cordic hs h
  case lutrd fs _ _ => exact getV_ok_finishV hs (storable_lutrdValue _ _ (legal_tagF hf fs)) h

/-- Only SETFMT writes a format register (R24). -/
theorem eq_setfmt_of_mem_formatDests {i : Instr} {j : FName} (h : j ∈ i.formatDests) : i = .setfmt j := by
  cases i <;> simp_all [Instr.formatDests]

/-- SETFMT loads a legal word or none (R141). -/
theorem legalWord_of_formatOperand {d : Data} {x : Word} (h : (formatOperand d).out = .ok x) :
    legalWord x = true := by
  unfold formatOperand at h
  split at h
  · next hd => cases h; exact (Bool.and_eq_true _ _ ▸ hd).2
  · cases h

/-- R24 -/
theorem exec_legalWord {i : Instr} (hf : ∀ j, legalWord (s.getF j) = true) (h : exec i s = .next t) (j : FName) :
    legalWord (t.getF j) = true := by
  by_cases hj : j ∈ i.formatDests
  · rw [eq_setfmt_of_mem_formatDests hj] at h
    have h : execSetfmt j s = .next t := h
    rcases State.finish_cases h with ⟨x, hx, rfl⟩ | ⟨c, -, rfl⟩
    · simpa using legalWord_of_formatOperand hx
    · exact hf j
  · obtain ⟨-, hkeep, -⟩ := exec_frame h
    rw [hkeep j hj]; exact hf j

/-- No rule names a reserved STATUS bit (R27). -/
theorem statusBits_in_statusMask (i : Instr) : BitsIn i.statusBits statusMask := by
  cases i <;> simp only [BitsIn, Instr.statusBits]
  case clrst mask => revert mask; decide
  all_goals decide

/-- A word that differs from `b` only in bits of `x` has only the bits of `b` and of `x`. -/
theorem bitsIn_of_eq_outside {a b x m : Word} (h : a &&& ~~~x = b &&& ~~~x) (hx : BitsIn x m) (hb : BitsIn b m) :
    BitsIn a m := by
  rw [bitsIn_iff] at *
  intro k hk ha
  have hk' := congrArg (·.getLsbD k) h
  simp only [BitVec.getLsbD_and, BitVec.getLsbD_not, hk, decide_true, Bool.true_and, ha] at hk'
  cases hxk : x.getLsbD k with
  | true => exact hx k hk hxk
  | false => exact hb k hk (by simpa [hxk] using hk'.symm)

/-- R27 -/
theorem exec_status_reserved {i : Instr} (hs : s.status &&& ~~~statusMask = 0#32) (h : exec i s = .next t) :
    t.status &&& ~~~statusMask = 0#32 := by
  obtain ⟨-, -, hstatus, -⟩ := exec_frame h
  exact bitsIn_of_eq_outside hstatus (statusBits_in_statusMask i) hs

/-- Every instruction keeps the invariant. -/
theorem exec_inv {i : Instr} (hs : s.Inv) (h : exec i s = .next t) : t.Inv := by
  obtain ⟨hv, hf, hst⟩ := hs
  exact ⟨exec_getV_ok hv hf h, exec_legalWord hf h, exec_status_reserved hst h⟩

/-- Performing any word keeps the invariant. -/
theorem State.perform_inv (hs : s.Inv) (h : s.perform = .next t) : t.Inv := by
  rcases State.perform_cases h with ⟨i, -, hi⟩ | rfl
  · exact exec_inv hs hi
  · obtain ⟨hv, hf, hst⟩ := hs
    exact ⟨hv, hf, BitsIn.or hst (by decide : ill &&& ~~~statusMask = 0#32)⟩

/-- The invariant is about the architectural state. -/
theorem SameArch.inv (h : SameArch t s) (hs : s.Inv) : t.Inv := by
  obtain ⟨hv, hf, hst⟩ := hs
  exact ⟨fun i => h.getV_eq i ▸ hv i, fun j => h.getF_eq j ▸ hf j, h.2.2 ▸ hst⟩

/-- The invariant holds after reset (R291). -/
theorem reset_inv : State.reset.Inv := by
  refine ⟨fun i hi => ?_, fun j => ?_, by decide⟩
  · cases i <;> cases hi
  · cases j <;> decide

end Sys2Proof.Machine
end

section
/-! States that differ only in the contents of invalid registers (R21, R291). -/
namespace Sys2Proof.Machine

variable {s t s' t' : State}

/-- An update that does not see the value registers keeps states alike. -/
theorem State.Alike.map (h : s.Alike t) {f : State → State}
    (hf : ∀ u v, f { u with vregs := v } = { f u with vregs := v }) : (f s).Alike (f t) := by
  obtain ⟨hv, ht⟩ := h
  have hkeep : ∀ u, (f u).vregs = u.vregs := fun u => (congrArg State.vregs (hf u u.vregs) :)
  refine ⟨fun i => ?_, ?_⟩
  · simpa only [State.getV, hkeep] using hv i
  · calc f t = f { s with vregs := t.vregs } := congrArg f ht
      _ = { f s with vregs := t.vregs } := hf s t.vregs
      _ = { f s with vregs := (f t).vregs } := by rw [hkeep t]

/-- Writing one value to one register keeps states alike. -/
theorem State.Alike.setV (h : s.Alike t) (i : VName) (v : Int) (g : Tag) : (s.setV i v g).Alike (t.setV i v g) := by
  obtain ⟨hv, ht⟩ := h
  refine ⟨fun j => ?_, ?_⟩
  · by_cases e : j = i
    · rw [e, State.getV_setV_same, State.getV_setV_same]; exact ⟨rfl, fun _ => rfl⟩
    · rw [State.getV_setV_of_ne _ _ _ e, State.getV_setV_of_ne _ _ _ e]; exact hv j
  · exact congrArg (fun u : State => { u with vregs := t.vregs.set i ⟨true, v, g⟩ }) ht

/-- A valid register reads the same in states alike. -/
theorem State.Alike.getV_eq (h : s.Alike t) {i : VName} (hi : (s.getV i).valid = true) : s.getV i = t.getV i :=
  (h.1 i).2 hi

/-- Every operand reads the same in states alike: an invalid register reads as ILLEGAL, whatever it holds. -/
theorem State.Alike.sameReads (h : s.Alike t) : SameReads s t where
  readV i := by
    cases hi : (s.getV i).valid with
    | true => rw [State.readV, State.readV, h.getV_eq hi]
    | false => rw [State.readV_invalid hi, State.readV_invalid ((h.1 i).1 ▸ hi)]
  fds := (congrArg State.fds h.2).symm
  status := (congrArg State.status h.2).symm
  cmdData := (congrArg State.cmdData h.2).symm

/-- An engine sees its registers only where they are valid (R210). -/
theorem State.Alike.cordicLegal (h : s.Alike t) (c : Coord) (rd rs1 rs2 : VName) :
    s.cordicLegal c rd rs1 rs2 = t.cordicLegal c rd rs1 rs2 := by
  by_cases hv : (s.getV rd).valid = true ∧ (s.getV rs1).valid = true ∧ (s.getV rs2).valid = true
  · obtain ⟨h0, h1, h2⟩ := hv
    simp only [State.cordicLegal, h.getV_eq h0, h.getV_eq h1, h.getV_eq h2]
  · rw [Bool.eq_false_iff.2 fun hc => hv (State.valid_of_cordicLegal hc), Eq.comm, Bool.eq_false_iff]
    intro hc
    have ht := State.valid_of_cordicLegal hc
    rw [← (h.1 rd).1, ← (h.1 rs1).1, ← (h.1 rs2).1] at ht
    exact hv ht

/-- An engine comes to the same lanes in states alike. -/
theorem State.Alike.cordicLanes (h : s.Alike t) (c : Coord) (m : Mode) (rd rs1 rs2 : VName) :
    cordicLanes c m rd rs1 rs2 s = cordicLanes c m rd rs1 rs2 t := by
  unfold Machine.cordicLanes
  rw [h.cordicLegal]
  split
  · next hc =>
    rw [← h.cordicLegal] at hc
    obtain ⟨h0, h1, h2⟩ := State.valid_of_cordicLegal hc
    simp only [State.lanes, h.getV_eq h0, h.getV_eq h1, h.getV_eq h2]
  · rfl

/-- The outcomes of one command in states alike: next states alike. -/
def AlikeNext (o p : Host.Outcome State Fault Refusal) : Prop :=
  ∀ s' t', o = .next s' → p = .next t' → s'.Alike t'

/-- One computation that ends with writes that keep states alike ends in states alike. -/
theorem alikeNext_finish {α : Type} {e : Ev α} {write write' : State → α → State} {rsp : α → Data} (h : s.Alike t)
    (hw : ∀ a, e.out = .ok a → ∀ u v : State, u.Alike v → (write u a).Alike (write' v a)) :
    AlikeNext (s.finish e write rsp) (t.finish e write' rsp) := by
  intro s' t' hs ht
  cases ho : e.out with
  | ok a =>
    rw [State.finish_ok _ _ _ ho] at hs ht
    cases hs; cases ht
    have hflags : (s.raiseFlags e.flags).Alike (t.raiseFlags e.flags) := h.map (f := (·.raiseFlags _)) fun _ _ => rfl
    exact (hw a ho _ _ hflags).map (f := (·.respond _ _)) fun _ _ => rfl
  | error c =>
    rw [State.finish_error _ _ _ ho] at hs ht
    cases hs; cases ht
    exact h.map (f := (·.abort _ _)) fun _ _ => rfl

/-- Every end of a command keeps states alike. -/
theorem State.Alike.endsRelate (h : s.Alike t) : EndsRelate AlikeNext s t where
  finishV rd e := alikeNext_finish h fun a _ _ _ huv => huv.setV rd a.1 a.2
  finishR e := alikeNext_finish h fun _ _ _ _ huv => huv
  finishC e := alikeNext_finish h fun c _ _ _ huv => huv.map (f := (·.setCmp c)) fun _ _ => rfl
  setfmt fs := by
    unfold execSetfmt
    rw [h.sameReads.cmdData]
    exact alikeNext_finish h fun x _ _ _ huv => huv.map (f := (·.setF fs x)) fun _ _ => rfl
  clrst mask := alikeNext_finish h fun m _ _ _ huv => huv.map (f := (·.clearStatus m)) fun _ _ => rfl
  cordic c m rd rs1 rs2 := by
    unfold State.cordic
    rw [← h.cordicLanes]
    refine alikeNext_finish h fun l hl u v huv => ?_
    rw [h.getV_eq (valid_of_cordicLanes hl)]
    exact ((huv.setV rd l.x _).setV rs1 l.y _).setV rs2 l.z _

end Sys2Proof.Machine
end

section
/-! How a command may change a value register (R23). -/
namespace Sys2Proof.Machine

variable {s t : State} {r : VName}

/-- An instruction that changes a register completed with OK and names it as a destination. -/
theorem exec_getV_change {i : Instr} (h : exec i s = .next t) (hne : t.getV r ≠ s.getV r) :
    t.rspCode = .ok ∧ r ∈ i.dests := by
  rcases exec_answers h with ⟨fl, c, -, -, -, -, rfl⟩ | ⟨u, d, ⟨⟨hkeep, -⟩, -, -⟩, -, rfl⟩
  · exact absurd rfl hne
  · exact ⟨rfl, by_contra fun hr => hne (hkeep r hr)⟩

/-- No instruction invalidates a register. -/
theorem exec_getV_valid {i : Instr} (h : exec i s = .next t) (hv : (s.getV r).valid = true) :
    (t.getV r).valid = true := by
  rcases exec_answers h with ⟨fl, c, -, -, -, -, rfl⟩ | ⟨u, d, ⟨-, hvalid, -⟩, -, rfl⟩
  · exact hv
  · exact hvalid r hv

/-- Performing any word invalidates no register, and changes one only with the response OK. -/
theorem State.perform_getV (h : s.perform = .next t) : ((s.getV r).valid = true → (t.getV r).valid = true) ∧
    (t.getV r ≠ s.getV r → t.rspValid = true ∧ t.rspCode = .ok) := by
  rcases State.perform_cases h with ⟨i, -, hi⟩ | rfl
  · obtain ⟨u, hu, hrsp, -⟩ := exec_respondsOnce i s
    obtain rfl : u = t := by rw [hu] at hi; cases hi; rfl
    exact ⟨exec_getV_valid hi, fun hne => ⟨hrsp, (exec_getV_change hi hne).1⟩⟩
  · exact ⟨fun hv => hv, fun hne => absurd rfl hne⟩

end Sys2Proof.Machine
end

section
/-! The clock-edge view (R34, R41 to R43, R295). -/
namespace Sys2Proof.Machine

variable {s : State} {p : Pins}

/-- An edge with a command in flight and no reset is one cycle of the flight (R34). -/
theorem State.clockEdge_of_busy (hp : p.rstN = true) (hb : s.busy = true) : s.clockEdge p = s.flight := by
  simp [State.clockEdge, hp, hb]

/-- A cycle that is not the last one only counts down (R34). -/
theorem State.flight_of_one_lt (hc : 1 < s.cyclesLeft) :
    s.flight = .next { s with cyclesLeft := s.cyclesLeft - 1, rspValid := false } := by
  simp [State.flight, Nat.not_le.2 hc]

/-- The last cycle performs the command (R42). -/
theorem State.flight_of_le_one (hc : s.cyclesLeft ≤ 1) : s.flight = s.perform := by simp [State.flight, hc]

theorem State.clockRun_cons_of_next {t : State} (ps : List Pins) (h : s.clockEdge p = .next t) :
    s.clockRun (p :: ps) = t.clockRun ps := by simp [State.clockRun, h]

/-- A run's first edge alone decides what is left of the run. -/
theorem State.clockRun_cons_congr {u : State} {q : Pins} (ps : List Pins) (h : s.clockEdge p = u.clockEdge q) :
    s.clockRun (p :: ps) = u.clockRun (q :: ps) := by simp only [State.clockRun, h]

/-- A command in flight is performed after as many edges as it has cycles left, whatever is on the channel. -/
theorem State.clockRun_of_busy (ps : List Pins) : ∀ (s : State) (p : Pins), s.busy = true → s.rspValid = false →
    (∀ q ∈ p :: ps, q.rstN = true) → ps.length + 1 = s.cyclesLeft → s.clockRun (p :: ps) = s.perform := by
  induction ps with
  | nil =>
    intro s p hb _ hq hc
    obtain ⟨t, ht⟩ := s.perform_next
    have hedge : s.clockEdge p = .next t := by
      rw [State.clockEdge_of_busy (hq p (by simp)) hb, State.flight_of_le_one (by simp [← hc]), ht]
    rw [State.clockRun_cons_of_next [] hedge, ht]
    rfl
  | cons q qs ih =>
    intro s p hb hv hq hc
    have hedge : s.clockEdge p = .next (s.setCycles (s.cyclesLeft - 1)) := by
      rw [State.clockEdge_of_busy (hq p (by simp)) hb, State.flight_of_one_lt (by simp [← hc]), ← hv]
      rfl
    calc s.clockRun (p :: q :: qs) = (s.setCycles (s.cyclesLeft - 1)).clockRun (q :: qs) :=
          State.clockRun_cons_of_next _ hedge
      _ = (s.setCycles (s.cyclesLeft - 1)).perform :=
          ih _ q hb hv (fun r hr => hq r (List.mem_cons_of_mem p hr)) (by rw [← hc]; rfl)
      _ = s.perform := s.perform_setCycles _

end Sys2Proof.Machine
end

section
/-! The statements settled. -/
namespace Sys2Proof.Machine

/-- Settles O11: a reset state has the invariant, an idle step keeps it, and so does performing any word. -/
theorem stepKeepsTheInvariant : Obligations.StepKeepsTheInvariant := by
  intro s t hs h
  rcases step_cases s with ⟨rest, -, e⟩ | ⟨moves, e⟩ | ⟨u, hu, e⟩ <;> rw [e] at h
  · cases h; exact reset_inv
  · cases h; exact hs
  · exact State.perform_inv (hu.inv hs) h

/-- Settles O12: the step is total, and both ends of an instruction are one response. -/
theorem everyCommandGetsOneResponse : Obligations.EveryCommandGetsOneResponse :=
  ⟨step_next, exec_respondsOnce⟩

/-- Settles O14: an abort only sets bits, and every command but CLRST that completes keeps the sticky ones. -/
theorem stickyBitsOnlyClearedByClrst : Obligations.StickyBitsOnlyClearedByClrst := by
  intro i s t hi h
  rcases exec_answers h with ⟨fl, c, -, -, -, -, rfl⟩ | ⟨u, d, ⟨-, -, hsticky⟩, -, rfl⟩
  · exact bitsIn_status_or s.status fl
  · exact hsticky hi

/-- Settles O15: an instruction that changes a register completed and named it; a step that is no reset is idle or one
command. -/
theorem valueRegistersChangeOnlyOnOk : Obligations.ValueRegistersChangeOnlyOnOk := by
  refine ⟨fun i s t r h => exec_getV_change h, fun s t r hr h => ?_⟩
  rcases step_cases s with ⟨rest, hh, -⟩ | ⟨moves, e⟩ | ⟨u, hu, e⟩
  · exact absurd hh (hr rest)
  · rw [e] at h
    cases h
    exact ⟨fun hv => hv, fun hne => absurd rfl hne⟩
  · rw [← hu.getV_eq r]
    exact State.perform_getV (e.symm.trans h)

/-- Settles O19: states alike read alike, and every end of a command keeps them alike. -/
theorem invalidContentsAreUnobservable : Obligations.InvalidContentsAreUnobservable :=
  fun i _ _ s' t' h hs ht => exec_relates h.sameReads h.endsRelate i s' t' hs ht

/-- Settles O24: the first edge of the run is that of the accepted state, which then counts its cycles down. -/
theorem clockEdgesRefineTheStep : Obligations.ClockEdgesRefineTheStep := by
  intro s c ps hb hps hlen
  have hedge : s.clockEdge ⟨true, true, c.cmd, c.data⟩ = (s.accept c).clockEdge ⟨true, true, c.cmd, c.data⟩ := by
    simp [State.clockEdge, hb]
  calc s.clockRun (⟨true, true, c.cmd, c.data⟩ :: ps)
      = (s.accept c).clockRun (⟨true, true, c.cmd, c.data⟩ :: ps) := State.clockRun_cons_congr ps hedge
    _ = (s.accept c).perform := State.clockRun_of_busy ps _ _ rfl rfl (by simpa using hps) hlen
    _ = step { s with host := .issue c :: s.host } :=
        (step_of_issue (s := { s with host := .issue c :: s.host }) hb rfl).symm

/-- Settles O25: both ends of an instruction keep its frame. -/
theorem everyCommandKeepsItsFrame : Obligations.EveryCommandKeepsItsFrame := fun _ _ _ => exec_frame

/-- Settles O7: the accepted state is performed, and its word decodes. -/
theorem stepRunsTheDecodedInstruction : Obligations.StepRunsTheDecodedInstruction := by
  intro s c rest i hb hh hd
  refine ⟨?_, ⟨rfl, rfl, rfl⟩, rfl⟩
  rw [step_of_issue hb hh]
  exact State.perform_of_decode hd

/-- Settles O8: one equation of the step for each case. -/
theorem stepWithoutANewCommand : Obligations.StepWithoutANewCommand :=
  fun _ _ => ⟨step_of_nil, step_of_idle, step_of_reset, step_of_busy⟩

/-- Settles O10: no register is valid, and the format words and STATUS are constants. -/
theorem resetMeetsTheInvariant : Obligations.ResetMeetsTheInvariant := reset_inv

/-- Settles O23: such an edge is a cycle of the flight that is not the last one. -/
theorem nothingChangesInFlight : Obligations.NothingChangesInFlight := by
  intro s p hb hc hp
  refine ⟨by simp [State.outputs, hb], _, (State.clockEdge_of_busy hp hb).trans (State.flight_of_one_lt hc), ?_⟩
  exact ⟨⟨rfl, rfl, rfl⟩, rfl, hb, rfl, rfl, rfl, Nat.sub_add_cancel hc.le⟩

end Sys2Proof.Machine
end

/-! # Proofs of the statements about memory and runs (20_memory.md) -/

section
/-! What the read commands answer (R54). -/
namespace Sys2Proof.Machine

variable {s : State}

/-- A command that only answers data changes nothing but the response (R42). -/
theorem State.finishR_val (s : State) (d : Data) : s.finishR (Ev.val d) = .next (s.respond .ok d) := by
  rw [State.finishR, State.finish_ok s _ _ rfl]
  simp [Ev.val]

/-- A command that reads one register to answer data (RDV, RDTAG): ILLEGAL if the register is invalid, else data that is
the same from every state that reads the same. -/
theorem State.finishR_readV (s : State) (r : VName) (f : Int × Tag → Data) :
    s.finishR ((s.readV r).andThen fun x => Ev.val (f x)) = .next (s.abort ill .illegal) ∨
    ∃ d, ∀ u, SameReads s u → u.finishR ((u.readV r).andThen fun x => Ev.val (f x)) = .next (u.respond .ok d) := by
  cases hr : (s.getV r).valid with
  | false =>
    rw [State.readV_invalid hr]
    exact .inl rfl
  | true =>
    refine .inr ⟨f ((s.getV r).v, (s.getV r).t), fun u hu => ?_⟩
    rw [← hu.readV, State.readV, if_pos hr, Ev.andThen_val, State.finishR_val]

/-- Everything a read command can do: the ILLEGAL abort, or an answer that is the same from every state that reads the
same and changes nothing but the response (R54). -/
theorem exec_read_cases {i : Instr}
    (hi : i = .nop ∨ (∃ fs, i = .rdfmt fs) ∨ (∃ r, i = .rdv r) ∨ (∃ r, i = .rdtag r) ∨ i = .rdst) (s : State) :
    exec i s = .next (s.abort ill .illegal) ∨ ∃ d, ∀ u, SameReads s u → exec i u = .next (u.respond .ok d) := by
  rcases hi with rfl | ⟨fs, rfl⟩ | ⟨r, rfl⟩ | ⟨r, rfl⟩ | rfl <;> simp only [exec]
  · exact .inr ⟨_, fun u _ => u.finishR_val _⟩
  · exact .inr ⟨_, fun u hu => by rw [execRdfmt, ← hu.getF, State.finishR_val]⟩
  · exact s.finishR_readV r _
  · exact s.finishR_readV r _
  · exact .inr ⟨_, fun u hu => by rw [execRdst, ← hu.readStatus, State.finishR_val]⟩

end Sys2Proof.Machine
end

section
/-! A run over a list of commands (R57, R297). -/
namespace Sys2Proof.Machine

variable {s t u : State} {rs qs : List (Code × Data)}

/-- Performing any word gives one response and advances the command index (R32, R42, R43). -/
theorem State.perform_respondsOnce (s : State) : RespondsOnce s s.perform := by
  cases hd : decode s.cmd with
  | ok i => rw [State.perform_of_decode hd]; exact exec_respondsOnce i s
  | error r => exact ⟨_, State.perform_of_malformed hd, rfl, rfl, rfl, rfl⟩

/-- A run performs its first command and goes on from the state it leaves, whatever the response (R269, R297). -/
theorem State.runCommands_cons {c : Command} {cs : List Command} (hc : (s.accept c).perform = .next t)
    (hcs : t.runCommands cs = .next (u, rs)) :
    s.runCommands (c :: cs) = .next (u, (t.rspCode, t.rspData) :: rs) := by
  simp only [State.runCommands, hc, hcs]

/-- Every run completes, with one response and one step of the command index for each command (R32, R57). -/
theorem State.runCommands_next (cs : List Command) : ∀ s : State, ∃ t rs,
    s.runCommands cs = .next (t, rs) ∧ rs.length = cs.length ∧ t.index = s.index + cs.length := by
  induction cs with
  | nil => exact fun s => ⟨s, [], rfl, rfl, rfl⟩
  | cons c cs ih =>
    intro s
    obtain ⟨v, hv, -, -, -, hvi⟩ := (s.accept c).perform_respondsOnce
    obtain ⟨t, rs, ht, hlen, hti⟩ := ih v
    refine ⟨t, _, State.runCommands_cons hv ht, by simp [hlen], ?_⟩
    rw [hti, hvi, State.accept_index, List.length_cons]
    omega

/-- A run and then another are the run over both lists (R297). -/
theorem State.runCommands_append {ds : List Command} (hu : t.runCommands ds = .next (u, qs)) (cs : List Command) :
    ∀ {s : State} {rs}, s.runCommands cs = .next (t, rs) → s.runCommands (cs ++ ds) = .next (u, rs ++ qs) := by
  induction cs with
  | nil =>
    intro s rs h
    cases h
    exact hu
  | cons c cs ih =>
    intro s rs h
    obtain ⟨v, hv⟩ := (s.accept c).perform_next
    obtain ⟨w, ps, hw, -⟩ := v.runCommands_next cs
    rw [State.runCommands_cons hv hw] at h
    cases h
    exact State.runCommands_cons hv (ih hw)

end Sys2Proof.Machine
end

section
/-! The statements settled. -/
namespace Sys2Proof.Machine

/-- Settles O21: a read command that is not aborted only responds, and the state it leaves reads the same. -/
theorem readCommandsAreIdempotent : Obligations.ReadCommandsAreIdempotent := by
  intro i s t hi h hok
  rcases exec_read_cases hi s with e | ⟨d, e⟩
  · rw [e] at h
    cases h
    cases hok
  · rw [e s (SameReads.refl s)] at h
    cases h
    have hreads : SameReads s (s.respond .ok d) := ⟨fun _ => rfl, rfl, rfl, rfl⟩
    exact ⟨⟨rfl, rfl, rfl⟩, _, e _ hreads, ⟨rfl, rfl, rfl⟩, rfl, rfl⟩

/-- Settles O22: every run completes, and runs append. -/
theorem runsComposeSequentially : Obligations.RunsComposeSequentially := by
  intro s cs ds
  obtain ⟨t, rs, ht, hlen, hindex⟩ := s.runCommands_next cs
  obtain ⟨u, qs, hu, -⟩ := t.runCommands_next ds
  exact ⟨t, u, rs, qs, ht, hu, State.runCommands_append hu cs ht, hlen, hindex⟩

end Sys2Proof.Machine
end

/-! # Proofs of the statements about the encoding (30_encoding.md) -/

section
/-! The decoder and the encoder are inverse: a word decodes to an instruction exactly when it is its word. -/
namespace Sys2Proof

/-- The opcode of an instruction (R76); the six comparisons share one (R77). -/
def Instr.opcode : Instr → Opcode
  | .nop => .nop
  | .setfmt _ => .setfmt
  | .rdfmt _ => .rdfmt
  | .wrap _ _ => .wrap
  | .fromint _ _ => .fromint
  | .rdv _ => .rdv
  | .rdtag _ => .rdtag
  | .mov _ _ => .mov
  | .cvt _ _ _ => .cvt
  | .add _ _ _ => .add
  | .sub _ _ _ => .sub
  | .mul _ _ _ => .mul
  | .div _ _ _ => .div
  | .neg _ _ => .neg
  | .adda _ _ => .adda
  | .suba _ _ => .suba
  | .mula _ _ => .mula
  | .diva _ _ => .diva
  | .cmpEq _ _ | .cmpNe _ _ | .cmpLt _ _ | .cmpLe _ _ | .cmpGt _ _ | .cmpGe _ _ => .cmp
  | .crotc _ _ _ => .crotc
  | .croth _ _ _ => .croth
  | .cvecc _ _ _ => .cvecc
  | .cvech _ _ _ => .cvech
  | .lutrd _ _ _ _ => .lutrd
  | .rdst => .rdst
  | .clrst _ => .clrst

theorem Instr.fields_opc (i : Instr) : i.fields.opc = i.opcode.bits := by cases i <;> rfl

/-- An instruction's word leaves the fields its opcode does not use zero (R79). -/
theorem Instr.usesOnly_fields (i : Instr) : i.fields.usesOnly i.opcode.used = true := by
  cases i <;> simp [Instr.fields, Instr.opcode, Opcode.used, mkFields, Fields.usesOnly]

/-- CLRST's mask is read back from the IMM it is put in (R73). -/
theorem clrstOfImm_setWidth (mask : BitVec 6) : clrstOfImm (mask.setWidth 12) = .ok (.clrst mask) := by
  revert mask; decide

/-- Only the IMM that holds a mask is read as that mask (R73, R79). -/
theorem eq_setWidth_of_clrstOfImm {imm : BitVec 12} {i : Instr} (h : clrstOfImm imm = .ok i) :
    ∃ mask : BitVec 6, i = .clrst mask ∧ imm = mask.setWidth 12 := by
  unfold clrstOfImm at h
  split at h
  · next h0 =>
    cases h
    refine ⟨_, rfl, BitVec.eq_of_toNat_eq ?_⟩
    have := congrArg BitVec.toNat h0
    simp [Nat.shiftRight_eq_div_pow] at this ⊢
    omega
  · cases h

/-- The instruction built from an instruction's own fields is that instruction. -/
theorem Opcode.build_fields (i : Instr) : i.opcode.build i.fields = .ok i := by
  cases i
  case clrst mask => exact clrstOfImm_setWidth mask
  all_goals simp [Instr.fields, Instr.opcode, Opcode.build, mkFields, cmpOfSub]

/-- A comparison comes from the SUB value in its word (R77). -/
theorem fields_of_cmpOfSub {sub : BitVec 3} {rs1 rs2 : VName} {i : Instr} (h : cmpOfSub sub rs1 rs2 = .ok i) :
    i.fields = mkFields .cmp (rs1 := rs1.bits) (rs2 := rs2.bits) (sub := sub) := by
  unfold cmpOfSub at h
  split at h
  case h_7 => cases h
  all_goals
    next hs =>
    cases h
    have hsub := congrArg (BitVec.ofNat 3) hs
    rw [BitVec.ofNat_toNat, BitVec.setWidth_eq] at hsub
    rw [hsub]
    rfl

/-- Fields of which an opcode builds an instruction are that instruction's, if they use no other field (R79). -/
theorem Opcode.fields_of_build {o : Opcode} {f : Fields} {i : Instr} (hopc : o.bits = f.opc)
    (huse : f.usesOnly o.used = true) (h : o.build f = .ok i) : i.fields = f := by
  obtain ⟨opc, rd, rs1, rs2, fs, sub, imm⟩ := f
  simp only [Fields.usesOnly, Bool.and_eq_true, Bool.or_eq_true, beq_iff_eq] at huse
  obtain ⟨⟨⟨⟨⟨hrd, hrs1⟩, hrs2⟩, hfs⟩, hsub⟩, himm⟩ := huse
  cases o
  case cmp =>
    rw [fields_of_cmpOfSub h]
    simp_all [mkFields, Opcode.used]
  case clrst =>
    obtain ⟨mask, rfl, hmask⟩ := eq_setWidth_of_clrstOfImm h
    simp_all [Instr.fields, mkFields, Opcode.used]
  all_goals
    cases h
    simp_all [Instr.fields, mkFields, Opcode.used]

/-- The decoder takes exactly an instruction's own fields to that instruction (R71 to R79). -/
theorem decodeFields_eq_ok_iff {f : Fields} {i : Instr} : decodeFields f = .ok i ↔ i.fields = f := by
  constructor
  · intro h
    unfold decodeFields at h
    split at h
    · cases h
    · next o ho =>
      split at h
      · next huse => exact Opcode.fields_of_build (Opcode.bits_of_ofBits ho) huse h
      · cases h
  · rintro rfl
    simp [decodeFields, Instr.fields_opc, Instr.usesOnly_fields, Opcode.build_fields]

/-- A word decodes to an instruction exactly when it is the word of that instruction (R71 to R79). -/
theorem decode_eq_ok_iff {w : Word} {i : Instr} : decode w = .ok i ↔ encode i = w := by
  rw [decode, decodeFields_eq_ok_iff, encode, ← Fields.ofWord_inj, Fields.ofWord_toWord]

theorem decode_encode (i : Instr) : decode (encode i) = .ok i := decode_eq_ok_iff.2 rfl

end Sys2Proof
end

section
/-! The rows of the opcode table against the decoder (R83). -/
namespace Sys2Proof

/-- Every instruction's word is covered by the row of its mnemonic. -/
theorem Laws.TableRow.statement (i : Instr) : Laws.TableRow.Statement i := by
  cases i
  case nop => exact nop
  case setfmt => exact setfmt _
  case rdfmt => exact rdfmt _
  case wrap => exact wrap _ _
  case fromint => exact fromint _ _
  case rdv => exact rdv _
  case rdtag => exact rdtag _
  case mov => exact mov _ _
  case cvt => exact cvt _ _ _
  case add => exact add _ _ _
  case sub => exact sub _ _ _
  case mul => exact mul _ _ _
  case div => exact div _ _ _
  case neg => exact neg _ _
  case adda => exact adda _ _
  case suba => exact suba _ _
  case mula => exact mula _ _
  case diva => exact diva _ _
  case cmpEq => exact cmpEq _ _
  case cmpNe => exact cmpNe _ _
  case cmpLt => exact cmpLt _ _
  case cmpLe => exact cmpLe _ _
  case cmpGt => exact cmpGt _ _
  case cmpGe => exact cmpGe _ _
  case crotc => exact crotc _ _ _
  case croth => exact croth _ _ _
  case cvecc => exact cvecc _ _ _
  case cvech => exact cvech _ _ _
  case lutrd => exact lutrd _ _ _ _
  case rdst => exact rdst
  case clrst => exact clrst _

/-- No two rows bear one mnemonic. -/
theorem opcodeRows_mnemonic_inj : ∀ r ∈ opcodeRows, ∀ r' ∈ opcodeRows, r.mnemonic = r'.mnemonic → r = r' := by
  decide

/-- The bits a row leaves free, field by field. -/
def Row.free (r : Row) : Fields where
  opc := ~~~(Fields.ofWord r.mask).opc
  rd  := ~~~(Fields.ofWord r.mask).rd
  rs1 := ~~~(Fields.ofWord r.mask).rs1
  rs2 := ~~~(Fields.ofWord r.mask).rs2
  fs  := ~~~(Fields.ofWord r.mask).fs
  sub := ~~~(Fields.ofWord r.mask).sub
  imm := ~~~(Fields.ofWord r.mask).imm

/-- A row's free bits lie in the fields its opcode uses, and not where the mnemonic is selected within the opcode: the
SUB of CMP and `imm[11:6]` of CLRST (R76, R77, R79). -/
def Row.pins (r : Row) (o : Opcode) : Bool :=
  r.free.opc == 0#6 && r.free.usesOnly o.used && (o != .cmp || r.free.sub == 0#3) &&
    (o != .clrst || ~~~((Fields.ofWord r.mask).imm.extractLsb' 6 6) == 0#6)

/-- Every row belongs to one opcode, and its pattern is itself a word that decodes to the row's mnemonic. -/
theorem opcodeRows_pinned : ∀ r ∈ opcodeRows, ∃ o ∈ Opcode.all, r.pins o = true ∧
    (Fields.ofWord r.pat).opc = o.bits ∧ (Fields.ofWord r.pat).usesOnly o.used = true ∧
    (o.build (Fields.ofWord r.pat)).map Instr.mnemonic = .ok r.mnemonic := by
  decide

/-- What an opcode builds bears a mnemonic that only the selecting bits decide (R76, R77). -/
theorem Opcode.mnemonic_build_congr {o : Opcode} {f g : Fields} (hsub : o = .cmp → f.sub = g.sub)
    (himm : o = .clrst → f.imm.extractLsb' 6 6 = g.imm.extractLsb' 6 6) :
    (o.build f).map Instr.mnemonic = (o.build g).map Instr.mnemonic := by
  cases o
  case cmp =>
    simp only [Opcode.build, cmpOfSub, hsub rfl]
    split <;> rfl
  case clrst =>
    simp only [Opcode.build, clrstOfImm, himm rfl]
    split <;> rfl
  all_goals rfl

/-- Where a mask leaves nothing free, a field is as in the pattern. -/
theorem eq_of_and_eq {n : Nat} {a m p : BitVec n} (h : a &&& m = p) (hm : ~~~m = 0#n) : a = p := by
  rw [← h, ← BitVec.not_not (b := m), hm, BitVec.not_zero, BitVec.and_allOnes]

/-- Where a mask leaves nothing free or the field is used (`c`), a field that is zero in the pattern unless it is used is
zero in the word unless it is used. -/
theorem or_eq_zero_of_and_eq {n : Nat} {a m p : BitVec n} {c : Prop} (h : a &&& m = p) (hm : c ∨ ~~~m = 0#n)
    (hp : c ∨ p = 0#n) : c ∨ a = 0#n :=
  hm.elim .inl fun hm => hp.imp_right fun hp => (eq_of_and_eq h hm).trans hp

/-- A word that a row covers agrees with the row's pattern in the opcode and in what selects the mnemonic, and like the
pattern it uses only the opcode's fields. -/
theorem Row.agree_of_covers {r : Row} {o : Opcode} {w : Word} (hpins : r.pins o = true)
    (hpat : (Fields.ofWord r.pat).usesOnly o.used = true) (h : r.covers w = true) :
    (Fields.ofWord w).opc = (Fields.ofWord r.pat).opc ∧ (Fields.ofWord w).usesOnly o.used = true ∧
    (o = .cmp → (Fields.ofWord w).sub = (Fields.ofWord r.pat).sub) ∧
    (o = .clrst → (Fields.ofWord w).imm.extractLsb' 6 6 = (Fields.ofWord r.pat).imm.extractLsb' 6 6) := by
  obtain ⟨hopc, hrd, hrs1, hrs2, hfs, hsub, himm⟩ := (r.covers_iff w).1 h
  simp only [Row.pins, Row.free, Fields.usesOnly, Bool.and_eq_true, Bool.or_eq_true, beq_iff_eq, bne_iff_ne]
    at hpins hpat ⊢
  obtain ⟨⟨⟨mopc, ⟨⟨⟨⟨⟨mrd, mrs1⟩, mrs2⟩, mfs⟩, msub⟩, mimm⟩⟩, mcmp⟩, mclrst⟩ := hpins
  obtain ⟨⟨⟨⟨⟨prd, prs1⟩, prs2⟩, pfs⟩, psub⟩, pimm⟩ := hpat
  refine ⟨eq_of_and_eq hopc mopc, ?_, fun ho => eq_of_and_eq hsub (mcmp.resolve_left (not_not_intro ho)), fun ho => ?_⟩
  · exact ⟨⟨⟨⟨⟨or_eq_zero_of_and_eq hrd mrd prd, or_eq_zero_of_and_eq hrs1 mrs1 prs1⟩,
      or_eq_zero_of_and_eq hrs2 mrs2 prs2⟩, or_eq_zero_of_and_eq hfs mfs pfs⟩,
      or_eq_zero_of_and_eq hsub msub psub⟩, or_eq_zero_of_and_eq himm mimm pimm⟩
  · have hhigh := congrArg (BitVec.extractLsb' 6 6) himm
    rw [BitVec.extractLsb'_and] at hhigh
    exact eq_of_and_eq hhigh (mclrst.resolve_left (not_not_intro ho))

/-- A word that a row covers decodes, to an instruction of the row's mnemonic (R83). -/
theorem Row.decode_of_covers {r : Row} {w : Word} (hr : r ∈ opcodeRows) (h : r.covers w = true) :
    ∃ i, decode w = .ok i ∧ i.mnemonic = r.mnemonic := by
  obtain ⟨o, -, hpins, hopc, hpat, hm⟩ := opcodeRows_pinned r hr
  obtain ⟨wopc, wuse, wsub, wimm⟩ := Row.agree_of_covers hpins hpat h
  have hd : decode w = o.build (Fields.ofWord w) := by
    simp [decode, decodeFields, wopc, hopc, wuse]
  rw [← Opcode.mnemonic_build_congr wsub wimm, ← hd] at hm
  cases hi : decode w with
  | ok i =>
    rw [hi] at hm
    exact ⟨i, rfl, Except.ok.inj hm⟩
  | error e =>
    rw [hi] at hm
    cases hm

end Sys2Proof
end

section
/-! The words the decoder rejects, and LUTRD's undefined kinds (R78 to R80). -/
namespace Sys2Proof

/-- What an opcode builds is never rejected as an undefined opcode. -/
theorem Opcode.build_ne_undefinedOpcode (o : Opcode) (f : Fields) : o.build f ≠ .error .undefinedOpcode := by
  cases o
  case cmp => simp only [Opcode.build, cmpOfSub]; split <;> nofun
  case clrst => simp only [Opcode.build, clrstOfImm]; split <;> nofun
  all_goals nofun

/-- A word is rejected as an undefined opcode exactly when its OPC stands for no opcode (R80). -/
theorem decode_eq_undefinedOpcode_iff {w : Word} :
    decode w = .error .undefinedOpcode ↔ Opcode.ofBits (w.extractLsb' 26 6) = none := by
  show decodeFields (Fields.ofWord w) = _ ↔ Opcode.ofBits (Fields.ofWord w).opc = none
  unfold decodeFields
  split
  · next ho => simp [ho]
  · next o ho =>
    split
    · simp [ho, Opcode.build_ne_undefinedOpcode]
    · simp [ho]

/-- The 38 OPC values that stand for no opcode (R80). -/
theorem Opcode.ofBits_eq_none_iff (b : BitVec 6) : Opcode.ofBits b = none ↔
    b.toNat ∈ [0x09, 0x0A, 0x0B, 0x0C, 0x0D, 0x0E, 0x0F, 0x15, 0x16, 0x17, 0x1C, 0x1D, 0x1E, 0x1F, 0x21, 0x22, 0x23, 0x24,
      0x25, 0x26, 0x27, 0x2C, 0x2D, 0x2E, 0x2F, 0x31, 0x32, 0x33, 0x34, 0x35, 0x36, 0x37, 0x3A, 0x3B, 0x3C, 0x3D, 0x3E,
      0x3F] := by
  revert b; decide

/-- The only instructions that are not well-formed are LUTRDs of an undefined kind (R79). -/
theorem Instr.eq_lutrd_of_wellFormed_eq_false {i : Instr} (h : i.wellFormed = false) :
    ∃ rd fs sub imm, i = .lutrd rd fs sub imm ∧ lutSubOk sub = false := by
  cases i
  case lutrd rd fs sub imm => exact ⟨rd, fs, sub, imm, rfl, h⟩
  all_goals cases h

end Sys2Proof

namespace Sys2Proof.Machine

variable {s t : State}

/-- LUTRD's SUB is well-formed exactly when it selects a kind (R78, R79). -/
theorem LutKind.ofSub_eq_none {sub : BitVec 3} (h : lutSubOk sub = false) : LutKind.ofSub sub = none := by
  revert sub; decide

/-- LUTRD of an undefined kind is the ILLEGAL abort (R78, R244). -/
theorem exec_lutrd_of_undefined_kind {sub : BitVec 3} (h : LutKind.ofSub sub = none) (s : State) (rd : VName) (fs : FName)
    (imm : BitVec 12) : exec (.lutrd rd fs sub imm) s = .next (s.abort ill .illegal) := by
  simp only [exec, execLutrd, lutrdValue, h]
  rfl

/-- A word that is not well-formed is performed as the ILLEGAL abort (R79, R261). -/
theorem State.perform_of_not_wellFormed (h : ∀ i, decode s.cmd = .ok i → i.wellFormed = false) :
    s.perform = .next (s.abort ill .illegal) := by
  cases hd : decode s.cmd with
  | error r => exact State.perform_of_malformed hd
  | ok i =>
    obtain ⟨rd, fs, sub, imm, rfl, hsub⟩ := Instr.eq_lutrd_of_wellFormed_eq_false (h i hd)
    rw [State.perform_of_decode hd, exec_lutrd_of_undefined_kind (LutKind.ofSub_eq_none hsub)]

end Sys2Proof.Machine
end

section
/-! What no command but SETFMT, WRAP and FROMINT sees: the data operand (R70). -/
namespace Sys2Proof.Machine

variable {s t : State}

/-- The state with another data operand. -/
def State.setData (s : State) (d : Data) : State := { s with cmdData := d }

/-- A computation that does not read the data operand ends alike whatever it is. -/
theorem State.finish_setData {α : Type} {e : Ev α} {write : State → α → State} {rsp : α → Data} (d : Data)
    (hw : ∀ u a, write (u.setData d) a = (write u a).setData d) (h : s.finish e write rsp = .next t) :
    (s.setData d).finish e write rsp = .next (t.setData d) := by
  rcases State.finish_cases h with ⟨a, ha, rfl⟩ | ⟨c, hc, rfl⟩
  · rw [State.finish_ok _ _ _ ha]
    exact congrArg (fun u : State => Host.Outcome.next (u.respond .ok (rsp a))) (hw (s.raiseFlags e.flags) a)
  · exact State.finish_error _ _ _ hc

theorem State.finishR_setData {e : Ev Data} (d : Data) (h : s.finishR e = .next t) :
    (s.setData d).finishR e = .next (t.setData d) := State.finish_setData d (fun _ _ => rfl) h

theorem State.finishV_setData {rd : VName} {e : Ev (Int × Tag)} (d : Data) (h : s.finishV rd e = .next t) :
    (s.setData d).finishV rd e = .next (t.setData d) := State.finish_setData d (fun _ _ => rfl) h

theorem State.finishC_setData {e : Ev Bool} (d : Data) (h : s.finishC e = .next t) :
    (s.setData d).finishC e = .next (t.setData d) := State.finish_setData d (fun _ _ => rfl) h

theorem State.cordic_setData {c : Coord} {m : Mode} {rd rs1 rs2 : VName} (d : Data)
    (h : s.cordic c m rd rs1 rs2 = .next t) : (s.setData d).cordic c m rd rs1 rs2 = .next (t.setData d) :=
  State.finish_setData d (fun _ _ => rfl) h

/-- Every other instruction does the same whatever the data operand is (R70). -/
theorem exec_setData {i : Instr} (hsetfmt : ∀ fs, i ≠ .setfmt fs) (hwrap : ∀ rd fs, i ≠ .wrap rd fs)
    (hfromint : ∀ rd fs, i ≠ .fromint rd fs) (d : Data) (h : exec i s = .next t) :
    exec i (s.setData d) = .next (t.setData d) := by
  cases i
  case setfmt fs => exact absurd rfl (hsetfmt fs)
  case wrap rd fs => exact absurd rfl (hwrap rd fs)
  case fromint rd fs => exact absurd rfl (hfromint rd fs)
  case nop | rdfmt | rdst => simp only [exec, execNop, execRdfmt, execRdst] at h ⊢; exact State.finishR_setData d h
  case rdv | rdtag => exact State.finishR_setData d h
  case mov | cvt | add | sub | mul | div | neg | adda | suba | mula | diva | lutrd => exact State.finishV_setData d h
  case cmpEq | cmpNe | cmpLt | cmpLe | cmpGt | cmpGe => exact State.finishC_setData d h
  case crotc | croth | cvecc | cvech => exact State.cordic_setData d h
  case clrst => simp only [exec, execClrst] at h ⊢; exact State.finish_setData d (fun _ _ => rfl) h

end Sys2Proof.Machine
end

section
/-! A format word holds the fields of its tag (R25), and the word of a legal tag is legal (R26). -/
namespace Sys2Proof.Machine

variable {t : Tag}

@[simp] theorem Width.ofCode_code (w : Width) : Width.ofCode w.code = w := by cases w <;> rfl

@[simp] theorem Policy.ofBit_bit (p : Policy) : Policy.ofBit p.bit = p := by cases p <;> rfl

/-- The places of the fields in a format word (R25). -/
theorem Tag.toWord_places (t : Tag) :
    t.toWord.extractLsb' 0 7 = BitVec.ofNat 7 t.n ∧ t.toWord.extractLsb' 7 7 = BitVec.ofNat 7 t.f ∧
    t.toWord.extractLsb' 14 8 = BitVec.ofInt 8 t.e ∧ t.toWord.getLsbD 22 = t.s ∧
    t.toWord.extractLsb' 23 2 = t.w.code ∧ t.toWord.getLsbD 25 = t.op.bit ∧ t.toWord.getLsbD 26 = t.up.bit ∧
    t.toWord.extractLsb' 27 5 = 0#5 := by
  refine ⟨?n, ?f, ?e, ?s, ?w, ?op, ?up, ?reserved⟩
  case n | f | e | w | reserved =>
    apply BitVec.eq_of_getLsbD_eq
    intro i hi
    simp only [Tag.toWord, BitVec.getLsbD_extractLsb', BitVec.getLsbD_append]
    interval_cases i <;> simp
  case s | op | up =>
    simp only [Tag.toWord, BitVec.getLsbD_append]
    simp

theorem Tag.legal_iff : t.legal = true ↔
    t.n + t.f + t.sBits ≤ t.w.size ∧ 1 ≤ t.n + t.f ∧ -128 ≤ t.e ∧ t.e ≤ 127 := by
  simp only [Tag.legal, Bool.and_eq_true, decide_eq_true_eq, and_assoc]
  rfl

theorem Width.size_le (w : Width) : w.size ≤ 64 := by cases w <;> decide

/-- The word of a legal tag holds that tag (R25, R26). -/
theorem Tag.ofWord_toWord (ht : t.legal = true) : Tag.ofWord t.toWord = t := by
  obtain ⟨hn, hf, he, hs, hw, hop, hup, -⟩ := t.toWord_places
  obtain ⟨hsize, -, hmin, hmax⟩ := Tag.legal_iff.1 ht
  have := t.w.size_le
  have hn' : (BitVec.ofNat 7 t.n).toNat = t.n := Nat.mod_eq_of_lt (by omega)
  have hf' : (BitVec.ofNat 7 t.f).toNat = t.f := Nat.mod_eq_of_lt (by omega)
  have he' : (BitVec.ofInt 8 t.e).toInt = t.e := BitVec.toInt_ofInt_eq_self (by decide) (by omega) (by omega)
  simp only [Tag.ofWord, hn, hf, he, hs, hw, hop, hup, hn', hf', he', Width.ofCode_code, Policy.ofBit_bit]

/-- The word of a legal tag is legal: its reserved bits are zero (R26). -/
theorem legalWord_toWord (ht : t.legal = true) : legalWord t.toWord = true := by
  obtain ⟨-, -, -, -, -, -, -, hreserved⟩ := t.toWord_places
  simp [legalWord, hreserved, Tag.ofWord_toWord ht, ht]

/-- `Q<n,f>` is legal wherever it has a bit of precision and a native width holds it (R26, R120). -/
theorem qTag_legal {n f : Nat} (h1 : 1 ≤ n + f) (h64 : n + f + 1 ≤ 64) : (qTag n f).legal = true :=
  Tag.legal_iff.2 ⟨le_size_nativeW h64, h1, by simp [qTag], by simp [qTag]⟩

end Sys2Proof.Machine
end

section
/-! The operand of LDQ: where any 64-bit word makes WRAP do what FROMREAL gives, one of the candidates does (R93; log
entry 12). -/
namespace Sys2Proof.Machine

variable {t : Tag} {a b r : Int} {d : Data}

/-- The integers a 64-bit data operand can stand for under the signedness of a tag (R143). -/
def InData (t : Tag) (v : Int) : Prop :=
  (t.s = true → -2 ^ 63 ≤ v ∧ v < 2 ^ 63) ∧ (t.s = false → 0 ≤ v ∧ v < 2 ^ 64)

theorem inData_dataInt (t : Tag) (d : Data) : InData t (dataInt t d) := dataInt_range t d

/-- The integers a data operand can stand for are told apart by their residues. -/
theorem InData.eq_of_emod_eq (ha : InData t a) (hb : InData t b) (h : a % 2 ^ 64 = b % 2 ^ 64) : a = b := by
  obtain ⟨ha, ha'⟩ := ha
  obtain ⟨hb, hb'⟩ := hb
  cases hs : t.s
  · have := ha' hs
    have := hb' hs
    omega
  · have := ha hs
    have := hb hs
    omega

/-- An integer that a data operand can stand for is read back from its word (R92, R143). -/
theorem dataInt_dataOfInt (h : InData t r) : dataInt t (dataOfInt r) = r :=
  (inData_dataInt t _).eq_of_emod_eq h (dataInt_ofInt t r)

/-- An integer in range of a legal tag fits the data operand (R26, R143). -/
theorem inData_of_inRange (ht : t.legal = true) (h : inRange r t = true) : InData t r := by
  have hfits := fitsWidth_of_inRange ht h
  have hsize := t.w.size_le
  have h64 : (2 : Int) ^ t.w.size ≤ 2 ^ 64 := pow_le_pow_right₀ (by norm_num) hsize
  have h63 : (2 : Int) ^ (t.w.size - 1) ≤ 2 ^ 63 := pow_le_pow_right₀ (by norm_num) (by omega)
  constructor <;> intro hs <;>
    simp only [fitsWidth, hs, Bool.false_eq_true, if_false, if_true, Bool.and_eq_true, decide_eq_true_eq] at hfits <;>
    omega

/-- Integers that are checked alike are in range alike: only an overflow sets STATUS bits (R111). -/
theorem inRange_congr_of_check (h : check a t = check b t) : inRange a t = inRange b t := by
  have hflags (v : Int) : (check v t).flags = if inRange v t then 0#32 else ovf := by
    rcases check_cases v t with ⟨hv, e⟩ | ⟨hv, -, e⟩ | ⟨hv, -, e⟩ <;> rw [e, hv] <;> rfl
  have := hflags a
  rw [h, hflags b] at this
  cases ha : inRange a t <;> cases hb : inRange b t <;> simp [ha, hb, ovf] at this ⊢

/-- `wrap_W` keeps the residue (R103). -/
theorem wrapW_emod (w : Nat) (sg : Bool) (v : Int) : wrapW w sg v % 2 ^ w = v % 2 ^ w := by
  unfold wrapW
  dsimp only
  split <;> simp

/-- A candidate that is checked as the stored integer is gives LDQ an operand. -/
theorem exists_ldqOperand_of_mem (hd : d ∈ ldqCandidates r t) (h : check (dataInt t d) t = check r t) :
    ∃ d', ldqOperand r t = some d' :=
  Option.isSome_iff_exists.1 (List.find?_isSome.2 ⟨d, hd, decide_eq_true h⟩)

/-- The largest data operand of the tag's signedness is read as it is written (R143). -/
theorem dataInt_largest (t : Tag) : dataInt t (dataOfInt (if t.s then 2 ^ 63 - 1 else 2 ^ 64 - 1)) =
    if t.s then 2 ^ 63 - 1 else 2 ^ 64 - 1 :=
  dataInt_dataOfInt (by constructor <;> intro hs <;> simp [hs])

/-- If any word is out of range, so is the largest of the tag's signedness. -/
theorem inRange_largestData_eq_false (h : inRange (dataInt t d) t = false) :
    inRange (dataInt t (dataOfInt (if t.s then 2 ^ 63 - 1 else 2 ^ 64 - 1))) t = false := by
  obtain ⟨hsigned, hunsigned⟩ := inData_dataInt t d
  rw [dataInt_largest]
  rw [inRange_eq_false_iff, least, largest] at h ⊢
  cases hs : t.s
  · have := hunsigned hs
    simp only [hs, Bool.false_eq_true, if_false] at h ⊢
    omega
  · have := hsigned hs
    simp only [hs, if_true] at h ⊢
    omega

/-- In a format narrower than 64 bits the largest data operand is out of range (R101). -/
theorem inRange_largestData_of_narrow (h : t.n + t.f + t.sBits < 64) :
    inRange (dataInt t (dataOfInt (if t.s then 2 ^ 63 - 1 else 2 ^ 64 - 1))) t = false := by
  rw [dataInt_largest, inRange_eq_false_iff, largest]
  right
  cases hs : t.s <;> simp only [Tag.sBits, hs, Bool.false_eq_true, if_false, if_true] at h ⊢
  · have := pow_le_pow_right₀ (show (1 : Int) ≤ 2 by norm_num) (show t.n + t.f ≤ 63 by omega)
    omega
  · have := pow_le_pow_right₀ (show (1 : Int) ≤ 2 by norm_num) (show t.n + t.f ≤ 62 by omega)
    omega

/-- In a width below 64 bits, a word with the residue of `r` that lies above the range. -/
theorem check_residueData (ht : t.legal = true) (hw : t.w ≠ .w64) (hr : inRange r t = false) :
    check (dataInt t (dataOfInt (r % 2 ^ t.w.size + 2 ^ 62))) t = check r t := by
  have hsize : t.w.size ≤ 32 := by revert hw; cases t.w <;> decide
  have hle : (2 : Int) ^ t.w.size ≤ 2 ^ 32 := pow_le_pow_right₀ (by norm_num) hsize
  have hmod : (2 : Int) ^ 62 % 2 ^ t.w.size = 0 := Int.emod_eq_zero_of_dvd (pow_dvd_pow 2 (by omega))
  have hpos : (0 : Int) < 2 ^ t.w.size := by positivity
  have hlow := Int.emod_nonneg r hpos.ne'
  have hhigh := Int.emod_lt_of_pos r hpos
  rw [dataInt_dataOfInt ⟨fun _ => by omega, fun _ => by omega⟩]
  refine check_congr (inRange_eq_false_iff.2 (.inr ?_)) hr ?_
  · have hbits := (Tag.legal_iff.1 ht).1
    have : (2 : Int) ^ (t.n + t.f) ≤ 2 ^ t.w.size := pow_le_pow_right₀ (by norm_num) (by omega)
    rw [largest]
    omega
  · rw [Int.add_emod, hmod, add_zero, Int.emod_emod, Int.emod_emod]

/-- In 64 bits, a word that wraps as `r` does is the word of `r`. -/
theorem dataInt_of_wrapW_eq (hw : t.w = .w64) (h : wrapW t.w.size t.s (dataInt t d) = wrapW t.w.size t.s r) :
    dataInt t (dataOfInt r) = dataInt t d := by
  refine (inData_dataInt t _).eq_of_emod_eq (inData_dataInt t d) ?_
  have hmod := congrArg (· % (2 : Int) ^ t.w.size) h
  simp only [wrapW_emod, hw, Width.size] at hmod
  rw [dataInt_ofInt, hmod]

/-- Where any word is checked as the stored integer is, LDQ has an operand (R93). -/
theorem exists_ldqOperand (ht : t.legal = true) (h : check (dataInt t d) t = check r t) :
    ∃ d', ldqOperand r t = some d' := by
  rcases check_cases r t with ⟨hr, -⟩ | ⟨hr, hop, e⟩ | ⟨hr, hop, e⟩
  · refine exists_ldqOperand_of_mem (d := dataOfInt r) (by simp [ldqCandidates]) ?_
    rw [dataInt_dataOfInt (inData_of_inRange ht hr)]
  · have hd : inRange (dataInt t d) t = false := (inRange_congr_of_check h).trans hr
    refine exists_ldqOperand_of_mem (List.mem_of_getElem? (i := 2) rfl) ?_
    rw [check_throw (inRange_largestData_eq_false hd) hop, e]
  · by_cases hw : t.w = .w64
    · have hd : inRange (dataInt t d) t = false := (inRange_congr_of_check h).trans hr
      have hwrap : wrapW t.w.size t.s (dataInt t d) = wrapW t.w.size t.s r := by
        rw [check_ignore hd hop, check_ignore hr hop] at h
        simpa using h
      refine exists_ldqOperand_of_mem (List.mem_of_getElem? (i := 0) rfl) ?_
      rw [dataInt_of_wrapW_eq hw hwrap, h]
    · exact exists_ldqOperand_of_mem (List.mem_of_getElem? (i := 1) rfl) (check_residueData ht hw hr)

end Sys2Proof.Machine
end

section
/-! The commands the pseudo-instructions stand for, performed (R93, R141, R143, R150). -/
namespace Sys2Proof.Machine

variable {s : State} {t : Tag} {fS : FName} {r : Int} {fl : Word}

/-- An accepted command word of an instruction is performed as that instruction. -/
theorem State.perform_encode (s : State) (i : Instr) (d : Data) :
    (s.accept ⟨encode i, d⟩).perform = exec i (s.accept ⟨encode i, d⟩) :=
  State.perform_of_decode (decode_encode i)

/-- A command that comes to a value with no event sets no STATUS bit of its own. -/
theorem State.finish_val {α : Type} (s : State) (a : α) (write : State → α → State) (rsp : α → Data) :
    s.finish (Ev.val a) write rsp = .next ((write s a).respond .ok (rsp a)) := by
  rw [State.finish_ok s write rsp (e := Ev.val a) rfl]
  simp [Ev.val]

/-- CLRST (R150). -/
theorem exec_clrst (s : State) (mask : BitVec 6) :
    exec (.clrst mask) s = .next ((s.clearStatus mask).respond .ok 0#64) := by
  rw [exec, execClrst, State.finish_val]

/-- A legal format word, zero-extended, is an operand SETFMT loads (R141). -/
theorem formatOperand_setWidth {x : Word} (hx : legalWord x = true) : formatOperand (x.setWidth 64) = Ev.val x := by
  have hlow : (x.setWidth 64).extractLsb' 0 32 = x := by
    apply BitVec.eq_of_getLsbD_eq
    intro i hi
    simp [hi]
    omega
  have hhigh : (x.setWidth 64).extractLsb' 32 32 = 0#32 := by
    apply BitVec.eq_of_getLsbD_eq
    intro i hi
    simp
  simp [formatOperand, hlow, hhigh, hx]

/-- SETFMT of a legal format word (R141). -/
theorem exec_setfmt_of_val {x : Word} (h : formatOperand s.cmdData = Ev.val x) (fS : FName) :
    exec (.setfmt fS) s = .next ((s.setF fS x).respond .ok 0#64) := by
  rw [exec, execSetfmt, h, State.finish_val]

/-- WRAP of an operand that passes its check (R143). -/
theorem exec_wrap_of_ok (h : check (dataInt (s.tagF fS) s.cmdData) (s.tagF fS) = ⟨fl, .ok r⟩) (vD : VName) :
    exec (.wrap vD fS) s = .next (((s.raiseFlags fl).setV vD r (s.tagF fS)).respond .ok (BitVec.ofInt 64 r)) := by
  have hval : wrapValue (s.tagF fS) s.cmdData = ⟨fl, .ok (r, s.tagF fS)⟩ := by
    simp [wrapValue, h, Ev.val]
  rw [exec, execWrap, hval]
  rfl

/-- WRAP of an operand that overflows (R143). -/
theorem exec_wrap_of_error {e : Code} (h : check (dataInt (s.tagF fS) s.cmdData) (s.tagF fS) = ⟨fl, .error e⟩)
    (vD : VName) : exec (.wrap vD fS) s = .next (s.abort fl e) := by
  have hval : wrapValue (s.tagF fS) s.cmdData = ⟨fl, .error e⟩ := by
    simp [wrapValue, h]
  rw [exec, execWrap, hval]
  rfl

/-- CLRALL leaves STATUS zero, if its reserved bits are (R27, R93). -/
theorem perform_clrall (h : s.status &&& ~~~0x3F#32 = 0#32) (fd : FFile) : ∃ c u,
    Pseudo.clrall.expand fd = some c ∧ (s.accept c).perform = .next u ∧ u.rspCode = .ok ∧ u.status = 0#32 :=
  ⟨_, _, rfl, (s.perform_encode _ _).trans (exec_clrst _ _), rfl, h⟩

/-- SETQ loads its format wherever that is legal (R93, R141). -/
theorem perform_setq {n f : Nat} (h1 : 1 ≤ n + f) (h64 : n + f + 1 ≤ 64) (s : State) (fS : FName) (fd : FFile) : ∃ c u,
    (Pseudo.setq fS n f).expand fd = some c ∧ (s.accept c).perform = .next u ∧ u.rspCode = .ok ∧
      u.tagF fS = qTag n f := by
  have hlegal := qTag_legal h1 h64
  have hdo := exec_setfmt_of_val (s := s.accept ⟨encode (.setfmt fS), (qTag n f).toWord.setWidth 64⟩)
    (formatOperand_setWidth (legalWord_toWord hlegal)) fS
  refine ⟨_, _, if_pos h64, (s.perform_encode _ _).trans hdo, rfl, ?_⟩
  simp [State.tagF, Tag.ofWord_toWord hlegal]

/-- The command of LDQ is the WRAP of its operand (R93). -/
theorem Pseudo.expand_ldq (fd : FFile) (vD : VName) (fS : FName) (x : ℝ) : (Pseudo.ldq vD fS x).expand fd =
    (ldqOperand (fromRealV x (Tag.ofWord (fd.get fS))) (Tag.ofWord (fd.get fS))).map (⟨encode (.wrap vD fS), ·⟩) := rfl

/-- An operand in range is LDQ's own stored integer (R92, R93). -/
theorem ldqOperand_of_inRange (ht : t.legal = true) (h : inRange r t = true) :
    ldqOperand r t = some (BitVec.ofInt 64 r) := by
  have hr : check (dataInt t (dataOfInt r)) t = check r t := by
    rw [dataInt_dataOfInt (inData_of_inRange ht h)]
  exact List.find?_cons_of_pos (decide_eq_true hr)

/-- What the WRAP of LDQ does is what FROMREAL gives, value and event alike (R93, R105). -/
theorem perform_ldq {x : ℝ} {d : Data} (hd : ldqOperand (fromRealV x t) t = some d) (ht : s.tagF fS = t) (vD : VName) :
    (∀ fl r, fromReal x t = ⟨fl, .ok r⟩ → (s.accept ⟨encode (.wrap vD fS), d⟩).perform = .next
      ((((s.accept ⟨encode (.wrap vD fS), d⟩).raiseFlags fl).setV vD r t).respond .ok (BitVec.ofInt 64 r))) ∧
    (∀ fl e, fromReal x t = ⟨fl, .error e⟩ → (s.accept ⟨encode (.wrap vD fS), d⟩).perform =
      .next ((s.accept ⟨encode (.wrap vD fS), d⟩).abort fl e)) := by
  have hcheck : check (dataInt t d) t = fromReal x t := check_ldqOperand hd
  subst ht
  constructor <;> intro fl a ha <;> rw [State.perform_encode]
  · exact exec_wrap_of_ok (s := s.accept ⟨encode (.wrap vD fS), d⟩) (fS := fS) (hcheck.trans ha) vD
  · exact exec_wrap_of_error (s := s.accept ⟨encode (.wrap vD fS), d⟩) (fS := fS) (hcheck.trans ha) vD

/-- Under THROW, in a format narrower than 64 bits, LDQ of a real out of range is a WRAP that overflows (R93). -/
theorem perform_ldq_overflow {x : ℝ} (hlegal : t.legal = true) (hr : inRange (fromRealV x t) t = false)
    (hop : t.op = .throw) (hbits : t.n + t.f + t.sBits < 64) (ht : s.tagF fS = t) (vD : VName) :
    ∃ d, ldqOperand (fromRealV x t) t = some d ∧ (s.accept ⟨encode (.wrap vD fS), d⟩).perform =
      .next ((s.accept ⟨encode (.wrap vD fS), d⟩).abort ovf .overflow) := by
  have hx : check (fromRealV x t) t = Ev.raise ovf .overflow := check_throw hr hop
  obtain ⟨d, hd⟩ := exists_ldqOperand hlegal ((check_throw (inRange_largestData_of_narrow hbits) hop).trans hx.symm)
  exact ⟨d, hd, (perform_ldq hd ht vD).2 _ _ hx⟩

end Sys2Proof.Machine
end

section
/-! The statements settled. -/
namespace Sys2Proof.Machine

/-- Settles O1: an instruction's word is the one word that decodes to it. -/
theorem decodeOfEncodeIsIdentity : Obligations.DecodeOfEncodeIsIdentity := decode_encode

/-- Settles O2: a word that decodes to an instruction is its word. -/
theorem encodeOfDecodeIsIdentity : Obligations.EncodeOfDecodeIsIdentity := fun _ _ => decode_eq_ok_iff.1

/-- Settles O3: a covered word decodes to the row's mnemonic; and the word of an instruction is covered by the row of its
mnemonic, which is the only one. -/
theorem decoderReadsTheOpcodeTable : Obligations.DecoderReadsTheOpcodeTable := by
  intro w r hr
  refine ⟨Row.decode_of_covers hr, ?_⟩
  rintro ⟨i, hi, hm⟩
  obtain ⟨r', hr', hm', hcovers⟩ := Laws.TableRow.statement i
  rwa [decode_eq_ok_iff.1 hi, opcodeRows_mnemonic_inj r' hr' r hr (hm'.trans hm)] at hcovers

/-- Settles O4: a word is so rejected exactly when no opcode has its OPC, and a rejected word is the ILLEGAL abort. -/
theorem undefinedOpcodesEndIllegal : Obligations.UndefinedOpcodesEndIllegal :=
  fun w => ⟨decode_eq_undefinedOpcode_iff.trans (Opcode.ofBits_eq_none_iff _),
    fun s d h => State.perform_of_malformed (s := s.accept ⟨w, d⟩) h⟩

/-- Settles O5: such a word is performed as the ILLEGAL abort. -/
theorem malformedWordsEndIllegal : Obligations.MalformedWordsEndIllegal :=
  fun s w d h => ⟨_, State.perform_of_not_wellFormed (s := s.accept ⟨w, d⟩) h, rfl, rfl, rfl, rfl, rfl, rfl⟩

/-- Settles O6: the decoder evaluates each word. -/
theorem sampleWordsDecode : Obligations.SampleWordsDecode := by
  unfold Obligations.SampleWordsDecode
  decide

/-- Settles O20: no other instruction reads the data operand, and none writes it. -/
theorem otherCommandsIgnoreTheDataOperand : Obligations.OtherCommandsIgnoreTheDataOperand :=
  fun _ _ _ d hsetfmt hwrap hfromint h => exec_setData hsetfmt hwrap hfromint d h

/-- Settles O60: each pseudo-instruction's command is performed, and LDQ finds an operand wherever one would do. -/
theorem pseudoInstructionsExpand : Obligations.PseudoInstructionsExpand := by
  intro fd s fS n f vD x t
  refine ⟨fun h => perform_clrall h fd, fun h1 h64 => perform_setq h1 h64 s fS fd, fun h => if_neg h.not_ge, ?_⟩
  intro hfd htag hlegal
  have hexpand := Pseudo.expand_ldq fd vD fS x
  rw [← hfd] at hexpand
  rw [hexpand]
  refine ⟨fun hr => ?_, fun hr hop hbits => ?_, fun c hc => ?_, fun hnone d h => ?_⟩
  · rw [ldqOperand_of_inRange hlegal hr, Option.map_some]
  · obtain ⟨d, hd, hperform⟩ := perform_ldq_overflow hlegal hr hop hbits htag vD
    exact ⟨_, by rw [hd, Option.map_some], hperform⟩
  · obtain ⟨d, hd, rfl⟩ := Option.map_eq_some_iff.1 hc
    exact ⟨rfl, perform_ldq hd htag vD⟩
  · obtain ⟨d', hd'⟩ := exists_ldqOperand hlegal h
    rw [hd'] at hnone
    cases hnone

end Sys2Proof.Machine
end

/-! # Proofs of the statements about the numeric primitives (40_numeric_primitives.md) -/

section
/-! Rounding: shifts are floors, integer division truncates, and RHA rounds half away from zero (R6, R104). -/
namespace Sys2Proof.Machine

/-- A left shift by a nonnegative integer, spelled as a floor (R6). -/
theorem shl_toNat_eq_floor (v : Int) {k : Int} (hk : 0 ≤ k) : shl v k.toNat = ⌊(v : ℚ) * 2 ^ k⌋ := by
  have h : (v : ℚ) * 2 ^ k = (shl v k.toNat : Int) := by
    rw [shl]; push_cast; rw [← zpow_natCast, Int.toNat_of_nonneg hk]
  rw [h, Int.floor_intCast]

/-- A right shift by a nonnegative integer is a floor (R6). -/
theorem asr_toNat_eq_floor (v : Int) {k : Int} (hk : 0 ≤ k) : asr v k.toNat = ⌊(v : ℚ) / 2 ^ k⌋ := by
  rw [asr_eq_floor, ← zpow_natCast, Int.toNat_of_nonneg hk]

/-- The floor is less than 1 away. -/
theorem abs_floor_sub_lt_one (q : ℚ) : |(⌊q⌋ : ℚ) - q| < 1 := by
  rw [abs_sub_comm, Int.self_sub_floor, Int.abs_fract]
  exact Int.fract_lt_one q

/-- Division by a natural number truncates the quotient toward zero (R6). -/
theorem tdiv_natCast_eq_trunc (x : Int) (n : Nat) :
    x.tdiv n = if 0 ≤ (x : ℚ) / n then ⌊(x : ℚ) / n⌋ else ⌈(x : ℚ) / n⌉ := by
  rw [Rat.floor_intCast_div_natCast, Rat.ceil_intCast_div_natCast]
  split
  case isTrue h =>
    obtain rfl | hn := Nat.eq_zero_or_pos n
    · simp
    · have hx : (0 : ℚ) ≤ x := by
        rwa [le_div_iff₀ (by exact_mod_cast hn), zero_mul] at h
      exact Int.tdiv_eq_ediv_of_nonneg (by exact_mod_cast hx)
  case isFalse h =>
    have hx : x < 0 := by
      by_contra hx
      have : (0 : ℚ) ≤ x := by exact_mod_cast not_lt.1 hx
      exact h (by positivity)
    rw [← Int.tdiv_eq_ediv_of_nonneg (by omega), Int.neg_tdiv, neg_neg]

/-- So does integer division by any divisor: a sign moves to the dividend. -/
theorem tdiv_eq_trunc (x y : Int) :
    x.tdiv y = if 0 ≤ (x : ℚ) / y then ⌊(x : ℚ) / y⌋ else ⌈(x : ℚ) / y⌉ := by
  obtain ⟨n, rfl | rfl⟩ := y.eq_nat_or_neg
  · exact_mod_cast tdiv_natCast_eq_trunc x n
  · have h := tdiv_natCast_eq_trunc (-x) n
    rw [Int.neg_tdiv, ← Int.tdiv_neg] at h
    push_cast at h ⊢
    rwa [neg_div, ← div_neg] at h

/-- Truncation is less than 1 away, and toward zero. -/
theorem abs_tdiv_sub_lt_one_and_abs_tdiv_le (x y : Int) :
    |(x.tdiv y : ℚ) - x / y| < 1 ∧ |(x.tdiv y : ℚ)| ≤ |(x : ℚ) / y| := by
  rw [tdiv_eq_trunc]
  set q := (x : ℚ) / y
  split
  case isTrue h =>
    have h0 : (0 : ℚ) ≤ ⌊q⌋ := by exact_mod_cast Int.floor_nonneg.2 h
    refine ⟨abs_floor_sub_lt_one q, ?_⟩
    rw [abs_of_nonneg h, abs_of_nonneg h0]
    exact Int.floor_le q
  case isFalse h =>
    have hq : q ≤ 0 := (not_le.1 h).le
    have h0 : (⌈q⌉ : ℚ) ≤ 0 := by exact_mod_cast Int.ceil_nonpos.2 hq
    have h1 := Int.le_ceil q
    have h2 := Int.ceil_lt_add_one q
    rw [abs_of_nonpos hq, abs_of_nonpos h0, abs_lt]
    exact ⟨⟨by linarith, by linarith⟩, by linarith⟩

/-- The two spellings of RHA below zero (R6). -/
theorem neg_floor_neg_add {K : Type} [Ring K] [LinearOrder K] [IsOrderedRing K] [FloorRing K] (x y : K) :
    -⌊-x + y⌋ = ⌈x - y⌉ := by
  rw [← Int.ceil_neg, neg_add, neg_neg, sub_eq_add_neg]

/-- RHA of a rational as a floor and a ceiling (R104). -/
theorem rha_eq_ite (q : ℚ) : rha q = if 0 ≤ q then ⌊q + 1 / 2⌋ else ⌈q - 1 / 2⌉ := by
  rw [← neg_floor_neg_add]; rfl

/-- RHA of a real as a floor and a ceiling (R104). -/
theorem rhaReal_eq_ite (x : ℝ) : rhaReal x = if 0 ≤ x then ⌊x + 1 / 2⌋ else ⌈x - 1 / 2⌉ := by
  rw [← neg_floor_neg_add]; rfl

/-- RHA goes to a nearest integer, and a tie goes away from zero (R104). -/
theorem abs_rhaReal_sub (x : ℝ) : |(rhaReal x : ℝ) - x| ≤ 1 / 2 ∧
    (|(rhaReal x : ℝ) - x| = 1 / 2 → |x| < |(rhaReal x : ℝ)|) := by
  have hround := rhaReal_eq_ite x
  generalize rhaReal x = n at hround ⊢
  split at hround
  case isTrue h =>
    obtain ⟨h1, h2⟩ := Int.floor_eq_iff.1 hround.symm
    refine ⟨abs_le.2 ⟨by linarith, by linarith⟩, fun htie => ?_⟩
    rcases (abs_eq (by norm_num)).1 htie with e | e
    · rw [abs_of_nonneg h, abs_of_nonneg] <;> linarith
    · linarith
  case isFalse h =>
    obtain ⟨h1, h2⟩ := Int.ceil_eq_iff.1 hround.symm
    have h : x < 0 := not_le.1 h
    refine ⟨abs_le.2 ⟨by linarith, by linarith⟩, fun htie => ?_⟩
    rcases (abs_eq (by norm_num)).1 htie with e | e
    · linarith
    · rw [abs_of_neg h, abs_of_neg] <;> linarith

/-- So does RHA of a rational, which is RHA of the same real (R104). -/
theorem abs_rha_sub (q : ℚ) : |(rha q : ℚ) - q| ≤ 1 / 2 ∧
    (|(rha q : ℚ) - q| = 1 / 2 → |q| < |(rha q : ℚ)|) := by
  have h := abs_rhaReal_sub q
  rw [rhaReal_ratCast, show (1 / 2 : ℝ) = ((1 / 2 : ℚ) : ℝ) by norm_num] at h
  exact_mod_cast h

/-- RHA leaves an integer as it is. -/
theorem rha_intCast (n : Int) : rha n = n := by
  have hfloor : ⌊(n : ℚ) + 1 / 2⌋ = n := Int.floor_eq_iff.2 ⟨by linarith, by linarith⟩
  have hceil : ⌈(n : ℚ) - 1 / 2⌉ = n := Int.ceil_eq_iff.2 ⟨by linarith, by linarith⟩
  rw [rha_eq_ite, hfloor, hceil, ite_self]

/-- The integer spelling of `v / 2^m + 1/2`, floored (R104). -/
theorem ediv_two_pow_succ_eq_floor (v : Int) (m : Nat) :
    (2 * v + 2 ^ m) / 2 ^ (m + 1) = ⌊(v : ℚ) / 2 ^ m + 1 / 2⌋ := by
  have h : ((2 * v + 2 ^ m : Int) : ℚ) / 2 ^ (m + 1) = v / 2 ^ m + 1 / 2 := by
    push_cast; field_simp; ring
  rw [← h]
  exact asr_eq_floor _ _

/-- The right shift of the commands rounds as RHA does (R104). -/
theorem roundShift_eq_rha (v : Int) (m : Nat) : roundShift v m = rha ((v : ℚ) / 2 ^ m) := by
  have hv : 0 ≤ (v : ℚ) / 2 ^ m ↔ 0 ≤ v := by
    rw [le_div_iff₀ (by positivity), zero_mul, Int.cast_nonneg_iff]
  rw [roundShift, ediv_two_pow_succ_eq_floor, ediv_two_pow_succ_eq_floor, rha]
  push_cast
  simp only [hv, neg_div]
  rfl

/-- The integer form of FROMREAL's rounding is RHA of the scaled value (R104, R144). -/
theorem scaleRound_eq_rha (k p : Int) : scaleRound k p = rha ((k : ℚ) * 2 ^ p) := by
  rw [scaleRound]
  split
  case isTrue h =>
    obtain ⟨n, rfl⟩ := Int.eq_ofNat_of_zero_le h
    rw [← rha_intCast (shl k _), shl]
    push_cast
    rfl
  case isFalse h =>
    rw [roundShift_eq_rha, ← zpow_natCast, Int.toNat_of_nonneg (by omega), zpow_neg, div_inv_eq_mul]

end Sys2Proof.Machine
end

section
/-! Conversions, promotions and the expandable operations (R112, R113, R121 to R129). -/
namespace Sys2Proof.Machine

variable {a b d t : Tag} {v A B : Int} {c : Candidate}

/-- A conversion floors the rescaled value (R112). -/
theorem rescale_eq_floor (v : Int) (a d : Tag) : rescale v a d = ⌊(v : ℚ) * 2 ^ (d.point - a.point)⌋ := by
  rw [rescale]
  split
  case isTrue h => exact shl_toNat_eq_floor v h
  case isFalse h => rw [asr_toNat_eq_floor v (by omega), div_eq_mul_inv, ← zpow_neg, neg_sub]

/-- A conversion vanishes where it takes a nonzero value to 0: a left shift never does (R112). -/
theorem vanishes_iff : vanishes v a d = true ↔ v ≠ 0 ∧ rescale v a d = 0 := by
  simp only [vanishes, Bool.and_eq_true, decide_eq_true_eq, bne_iff_ne, beq_iff_eq]
  refine ⟨fun ⟨⟨_, hv⟩, h0⟩ => ⟨hv, h0⟩, fun ⟨hv, h0⟩ => ⟨⟨?_, hv⟩, h0⟩⟩
  by_contra hle
  rw [rescale, if_pos (by omega), shl] at h0
  exact mul_ne_zero hv (by positivity) h0

/-- 0 is in the range of every tag (R101). -/
theorem inRange_zero (t : Tag) : inRange 0 t = true := by
  have : (0 : Int) < 2 ^ (t.n + t.f) := by positivity
  rw [inRange_iff, least, largest]
  split <;> omega

/-- The tag of an expandable candidate (R121). -/
theorem promote_fst_of_true (h : (promote c a).2 = true) :
    (promote c a).1 = ⟨nativeW c.req, c.s, c.n, c.f, c.e, a.op, a.up⟩ := by
  unfold promote at h ⊢
  split at h
  · rw [if_pos ‹_›]
  · cases h

/-- A promotion carries the left operand's policies, expandable or not (R121). -/
theorem promote_policies (c : Candidate) (a : Tag) : (promote c a).1.op = a.op ∧ (promote c a).1.up = a.up := by
  unfold promote; split <;> exact ⟨rfl, rfl⟩

/-- The product tag, if it is expandable (R124). -/
theorem prodTag_fst_of_true (h : (prodTag a b).2 = true) : ∃ w, (prodTag a b).1 =
    ⟨w, a.s || b.s, a.n + b.n, a.f + b.f, a.e + b.e, a.op, a.up⟩ := ⟨_, promote_fst_of_true h⟩

/-- The quotient tag, if it is expandable (R125). -/
theorem quotTag_fst_of_true (h : (quotTag a b).2 = true) : ∃ w, (quotTag a b).1 =
    ⟨w, a.s || b.s, a.n + b.f, a.f + b.n, a.e - b.e, a.op, a.up⟩ := ⟨_, promote_fst_of_true h⟩

/-! In-range magnitudes: at most `2^(N+F)`, and just that only at the most negative value (R101). -/

theorem abs_le_of_inRange (h : inRange v t = true) : |v| ≤ 2 ^ (t.n + t.f) := by
  rw [inRange_iff, least, largest] at h
  rw [abs_le]
  split at h <;> omega

theorem nonneg_of_inRange (h : inRange v t = true) (hs : t.s = false) : 0 ≤ v := by
  rw [inRange_iff, least, hs] at h
  exact h.1

theorem eq_least_of_abs_eq (h : inRange v t = true) (habs : |v| = 2 ^ (t.n + t.f)) :
    t.s = true ∧ v = -2 ^ (t.n + t.f) := by
  rw [inRange_iff, least, largest] at h
  have : (0 : Int) < 2 ^ (t.n + t.f) := by positivity
  rcases (abs_eq this.le).1 habs with e | e
  · omega
  · refine ⟨?_, e⟩
    by_contra hs
    rw [if_neg hs] at h
    omega

/-- A value of magnitude at most `2^(N+F)`, of a sign its tag allows, can be out of range in one way only (R101). -/
theorem inRange_eq_false_iff_eq (h : |v| ≤ 2 ^ (t.n + t.f)) (hs : t.s = false → 0 ≤ v) :
    inRange v t = false ↔ v = 2 ^ (t.n + t.f) := by
  rw [abs_le] at h
  rw [inRange_eq_false_iff, least, largest]
  cases ht : t.s
  · have := hs ht
    simp only [Bool.false_eq_true, if_false]
    omega
  · simp only [if_true]
    omega

/-- The product of in-range operands is `2^(N+F)` of the product tag only for the two most negative ones (R127). -/
theorem mul_eq_two_pow_iff (hA : inRange A a = true) (hB : inRange B b = true) :
    A * B = 2 ^ (a.n + a.f) * 2 ^ (b.n + b.f) ↔
      a.s = true ∧ b.s = true ∧ A = -2 ^ (a.n + a.f) ∧ B = -2 ^ (b.n + b.f) := by
  constructor
  · intro h
    have habs : |A| * |B| = 2 ^ (a.n + a.f) * 2 ^ (b.n + b.f) := by
      rw [← abs_mul, h, abs_of_nonneg (by positivity)]
    obtain ⟨eA, eB⟩ := (mul_eq_mul_iff_eq_and_eq_of_pos (abs_le_of_inRange hA) (abs_le_of_inRange hB)
      (by rw [abs_pos]; rintro rfl; simp at h) (by positivity)).1 habs
    obtain ⟨ha, hA⟩ := eq_least_of_abs_eq hA eA
    obtain ⟨hb, hB⟩ := eq_least_of_abs_eq hB eB
    exact ⟨ha, hb, hA, hB⟩
  · rintro ⟨-, -, rfl, rfl⟩
    ring

/-- The exact product overflows only for the two most negative operands (R127). -/
theorem exactProduct_overflow_iff (hex : (prodTag a b).2 = true) (hA : inRange A a = true) (hB : inRange B b = true) :
    inRange (A * B) (prodTag a b).1 = false ↔
      a.s = true ∧ b.s = true ∧ A = -2 ^ (a.n + a.f) ∧ B = -2 ^ (b.n + b.f) := by
  obtain ⟨w, htag⟩ := prodTag_fst_of_true hex
  have hbits : (2 : Int) ^ (a.n + b.n + (a.f + b.f)) = 2 ^ (a.n + a.f) * 2 ^ (b.n + b.f) := by ring
  rw [htag, ← mul_eq_two_pow_iff hA hB, ← hbits]
  refine inRange_eq_false_iff_eq ?_ fun hs => ?_
  · rw [hbits, abs_mul]
    exact mul_le_mul (abs_le_of_inRange hA) (abs_le_of_inRange hB) (abs_nonneg B) (by positivity)
  · obtain ⟨ha, hb⟩ := Bool.or_eq_false_iff.1 hs
    exact mul_nonneg (nonneg_of_inRange hA ha) (nonneg_of_inRange hB hb)

/-- The exact product has the value of the real product (R127). -/
theorem val_mul (hex : (prodTag a b).2 = true) (A B : Int) : val (A * B) (prodTag a b).1 = val A a * val B b := by
  obtain ⟨w, htag⟩ := prodTag_fst_of_true hex
  have hpoint : -(prodTag a b).1.point = -a.point + -b.point := by
    rw [htag]; simp only [Tag.point]; push_cast; ring
  rw [val, val, val, hpoint, zpow_add₀ two_ne_zero]
  push_cast
  ring

/-- The real quotient, in ulps of the quotient tag (R125, R129). -/
theorem val_div_val (hex : (quotTag a b).2 = true) (A B : Int) : val A a / val B b =
    ((shl A (b.n + b.f) : Int) : ℚ) / B * precision (quotTag a b).1 := by
  obtain ⟨w, htag⟩ := quotTag_fst_of_true hex
  have hpoint : -(quotTag a b).1.point = -a.point - -b.point - ((b.n + b.f : Nat) : Int) := by
    rw [htag]; simp only [Tag.point]; push_cast; ring
  rw [val, val, precision, hpoint, zpow_sub₀ two_ne_zero, zpow_sub₀ two_ne_zero, zpow_natCast, shl]
  push_cast
  field_simp

/-- The exact quotient's magnitude against its operands' (R129). -/
theorem abs_tdiv_mul_abs_le (x y : Int) : |x.tdiv y| * |y| ≤ |x| := by
  rw [Int.abs_eq_natAbs, Int.abs_eq_natAbs, Int.abs_eq_natAbs, Int.natAbs_tdiv]
  exact_mod_cast Nat.div_mul_le_self _ _

/-- The exact quotient is `2^(N+F)` of the quotient tag only for the most negative dividend over -1 (R129). -/
theorem tdiv_eq_two_pow_iff (hA : inRange A a = true) (hB : inRange B b = true) (hB0 : B ≠ 0) (k : Nat) :
    (shl A k).tdiv B = 2 ^ (a.n + a.f) * 2 ^ k ↔
      a.s = true ∧ b.s = true ∧ A = -2 ^ (a.n + a.f) ∧ B = -1 := by
  have hk : (0 : Int) < 2 ^ k := by positivity
  have hm : (0 : Int) < 2 ^ (a.n + a.f) := by positivity
  constructor
  · intro h
    have hle := abs_tdiv_mul_abs_le (shl A k) B
    rw [h, abs_of_pos (mul_pos hm hk), shl, abs_mul, abs_of_pos hk] at hle
    have hle' : 2 ^ (a.n + a.f) * |B| ≤ |A| := by nlinarith
    have hAle := abs_le_of_inRange hA
    have hB1 : 1 ≤ |B| := Int.one_le_abs hB0
    obtain ⟨ha, hA⟩ := eq_least_of_abs_eq hA (by nlinarith)
    have hB1 : |B| = 1 := by nlinarith
    have hBneg : B = -1 := by
      rcases (abs_eq one_pos.le).1 hB1 with rfl | e
      · rw [Int.tdiv_one, shl, hA] at h
        nlinarith
      · exact e
    refine ⟨ha, ?_, hA, hBneg⟩
    by_contra hb
    have := nonneg_of_inRange hB (by simpa using hb)
    omega
  · rintro ⟨-, -, rfl, rfl⟩
    rw [Int.tdiv_neg, Int.tdiv_one, shl]
    ring

/-- The exact quotient overflows only for the most negative dividend over -1 (R129). -/
theorem exactQuotient_overflow_iff (hex : (quotTag a b).2 = true) (hA : inRange A a = true)
    (hB : inRange B b = true) (hB0 : B ≠ 0) :
    inRange ((shl A (b.n + b.f)).tdiv B) (quotTag a b).1 = false ↔
      a.s = true ∧ b.s = true ∧ A = -2 ^ (a.n + a.f) ∧ B = -1 := by
  obtain ⟨w, htag⟩ := quotTag_fst_of_true hex
  have hbits : (2 : Int) ^ (a.n + b.f + (a.f + b.n)) = 2 ^ (a.n + a.f) * 2 ^ (b.n + b.f) := by ring
  rw [htag, ← tdiv_eq_two_pow_iff hA hB hB0, ← hbits]
  refine inRange_eq_false_iff_eq ?_ fun hs => ?_
  · calc |(shl A (b.n + b.f)).tdiv B|
        ≤ |(shl A (b.n + b.f)).tdiv B| * |B| := le_mul_of_one_le_right (abs_nonneg _) (Int.one_le_abs hB0)
      _ ≤ |shl A (b.n + b.f)| := abs_tdiv_mul_abs_le _ _
      _ = |A| * 2 ^ (b.n + b.f) := by rw [shl, abs_mul, abs_of_pos (a := (2 : Int) ^ _) (by positivity)]
      _ ≤ 2 ^ (a.n + a.f) * 2 ^ (b.n + b.f) := mul_le_mul_of_nonneg_right (abs_le_of_inRange hA) (by positivity)
      _ = 2 ^ (a.n + b.f + (a.f + b.n)) := hbits.symm
  · obtain ⟨ha, hb⟩ := Bool.or_eq_false_iff.1 hs
    exact Int.tdiv_nonneg (mul_nonneg (nonneg_of_inRange hA ha) (by positivity)) (nonneg_of_inRange hB hb)

/-- An in-range divisor is too small to take a nonzero dividend, shifted left, to 0 (R129). -/
theorem exactQuotient_ne_zero (hB : inRange B b = true) (hB0 : B ≠ 0) (hA0 : A ≠ 0) :
    (shl A (b.n + b.f)).tdiv B ≠ 0 := by
  rw [← Int.natAbs_ne_zero, Int.natAbs_tdiv, shl, Int.natAbs_mul, Int.natAbs_pow]
  have hle : B.natAbs ≤ 2 ^ (b.n + b.f) := by
    have := abs_le_of_inRange hB
    rw [Int.abs_eq_natAbs] at this
    exact_mod_cast this
  exact (Nat.div_pos (hle.trans (Nat.le_mul_of_pos_left _ (Int.natAbs_pos.2 hA0))) (Int.natAbs_pos.2 hB0)).ne'

end Sys2Proof.Machine
end

section
/-! The fallback product and quotient (R126, R128). -/
namespace Sys2Proof.Machine

/-- The fallback product is one floor, whichever way it shifts (R126). -/
theorem mulApprox_eq_floor (A B : Int) (a b : Tag) : mulApprox A a B b =
    ⌊((A * asr B (mulDrop a b) : Int) : ℚ) * 2 ^ ((mulDrop a b : Int) - b.point)⌋ := by
  unfold mulApprox
  dsimp only
  split
  case isTrue h => rw [asr_toNat_eq_floor _ h, div_eq_mul_inv, ← zpow_neg, neg_sub]
  case isFalse h => rw [shl_toNat_eq_floor _ (by omega), neg_sub]

/-- The error of the fallback product: the dropped bits of B, and the floor (R126). -/
theorem mulApprox_error (A B : Int) (a b : Tag) : |val (mulApprox A a B b) a - val A a * val B b| <
    |val A a| * 2 ^ ((mulDrop a b : Int) - b.point) + 2 ^ (-a.point) := by
  rw [mulApprox_eq_floor, asr_eq_floor]
  set t := mulDrop a b
  set β := ⌊(B : ℚ) / 2 ^ t⌋
  set x : ℚ := ((A * β : Int) : ℚ) * 2 ^ ((t : Int) - b.point) with hx
  have hdrop : |(β : ℚ) - B / 2 ^ t| ≤ 1 := (abs_floor_sub_lt_one _).le
  have hsplit : val ⌊x⌋ a - val A a * val B b =
      val A a * 2 ^ ((t : Int) - b.point) * (β - B / 2 ^ t) + (⌊x⌋ - x) * 2 ^ (-a.point) := by
    rw [val, val, val, hx, zpow_sub₀ two_ne_zero, zpow_natCast, zpow_neg 2 b.point]
    push_cast
    field_simp
    ring
  calc |val ⌊x⌋ a - val A a * val B b|
      ≤ |val A a * 2 ^ ((t : Int) - b.point) * (β - B / 2 ^ t)| + |(⌊x⌋ - x) * 2 ^ (-a.point)| := by
        rw [hsplit]; exact abs_add_le _ _
    _ = |val A a| * 2 ^ ((t : Int) - b.point) * |(β : ℚ) - B / 2 ^ t| + |(⌊x⌋ : ℚ) - x| * 2 ^ (-a.point) := by
        rw [abs_mul, abs_mul, abs_mul,
          abs_of_pos (zpow_pos two_pos ((t : Int) - b.point) : (0 : ℚ) < _),
          abs_of_pos (zpow_pos two_pos (-a.point) : (0 : ℚ) < _)]
    _ < |val A a| * 2 ^ ((t : Int) - b.point) + 2 ^ (-a.point) :=
        add_lt_add_of_le_of_lt (mul_le_of_le_one_right (by positivity) hdrop)
          (mul_lt_of_lt_one_left (by positivity) (abs_floor_sub_lt_one x))

/-- The divisor keeps its top bit, and so is not 0 (R128). -/
theorem asr_divDrop_ne_zero {B : Int} (hB : B ≠ 0) (a b : Tag) : asr B (divDrop a B b) ≠ 0 := by
  have hdrop : divDrop a B b ≤ B.natAbs.log2 := min_le_right _ _
  have hle : 2 ^ divDrop a B b ≤ B.natAbs :=
    (Nat.pow_le_pow_right two_pos hdrop).trans (Nat.log2_self_le (Int.natAbs_ne_zero.2 hB))
  have hle' : (2 : Int) ^ divDrop a B b ≤ |B| := by rw [Int.abs_eq_natAbs]; exact_mod_cast hle
  have hpos : (0 : Int) < 2 ^ divDrop a B b := by positivity
  intro h
  have hmod : B % 2 ^ divDrop a B b = B := by
    rw [Int.emod_def, ← asr, h, mul_zero, sub_zero]
  have h0 := Int.emod_nonneg B hpos.ne'
  have hlt := Int.emod_lt_of_pos B hpos
  rw [hmod] at h0 hlt
  rw [abs_of_nonneg h0] at hle'
  omega

/-- The fallback quotient is one truncation, whichever way it shifts (R128). -/
theorem divApprox_eq_trunc (A B : Int) (a b : Tag) {q : ℚ}
    (hq : q = (asr A (divDrop a B b) : ℚ) * 2 ^ b.point / asr B (divDrop a B b)) :
    divApprox A a B b = if 0 ≤ q then ⌊q⌋ else ⌈q⌉ := by
  unfold divApprox
  dsimp only
  split
  case isTrue h =>
    rw [tdiv_eq_trunc]
    push_cast
    rw [← zpow_natCast, Int.toNat_of_nonneg h, ← hq]
  case isFalse h =>
    rw [tdiv_eq_trunc]
    push_cast
    rw [← zpow_natCast, Int.toNat_of_nonneg (by omega), zpow_neg, ← div_eq_mul_inv, div_div_eq_mul_div, ← hq]

end Sys2Proof.Machine
end

section
/-! The statements settled. -/
namespace Sys2Proof.Machine

/-- Settles O26: the residue lies below `2^W`, and the signed wrap moves its upper half below 0. -/
theorem wrapKeepsTheResidue : Obligations.WrapKeepsTheResidue := by
  intro w v hw
  have hunsigned : wrapW w false v = v % 2 ^ w := by simp [wrapW]
  have hsigned : wrapW w true v = if v % 2 ^ w ≥ 2 ^ (w - 1) then v % 2 ^ w - 2 ^ w else v % 2 ^ w := by
    simp [wrapW]
  have hpow : (2 : Int) ^ w = 2 * 2 ^ (w - 1) := by rw [← pow_succ', Nat.sub_add_cancel hw]
  have hpos : (0 : Int) < 2 ^ w := by positivity
  have hlow := Int.emod_nonneg v hpos.ne'
  have hhigh := Int.emod_lt_of_pos v hpos
  refine ⟨hunsigned, hsigned, hunsigned ▸ ⟨hlow, hhigh⟩, ?_, fun sg => wrapW_emod w sg v⟩
  rw [hsigned]
  split <;> omega

/-- Settles O27: the shift form is RHA of a rational, and RHA of a rational is RHA of the same real. -/
theorem rhaRoundsHalfAway : Obligations.RhaRoundsHalfAway :=
  ⟨fun q => ⟨(abs_rha_sub q).1, (abs_rha_sub q).2, rha_eq_ite q⟩, scaleRound_eq_rha,
    fun x => ⟨(abs_rhaReal_sub x).1, (abs_rhaReal_sub x).2, rhaReal_eq_ite x⟩⟩

/-- Settles O28: the three cases of a check. -/
theorem checkDetectsOverflow : Obligations.CheckDetectsOverflow :=
  fun _ _ => ⟨fun hlow hhigh => check_of_inRange (inRange_iff.2 ⟨hlow, hhigh⟩),
    fun h hop => check_throw (inRange_eq_false_iff.2 h) hop,
    fun h hop => check_ignore (inRange_eq_false_iff.2 h) hop⟩

/-- Settles O29: a value that vanishes underflows, and the 0 it becomes is in range. -/
theorem normalizeFloorsAndDetects : Obligations.NormalizeFloorsAndDetects := by
  intro v a d
  refine ⟨rescale_eq_floor v a d, fun h hup => ?_, fun h hup => ?_, fun h => ?_⟩
  · rw [normalize, vanishes_iff.2 h, underflowIf, if_pos rfl, underflow, hup]
    rfl
  · rw [normalize, vanishes_iff.2 h, underflowIf, if_pos rfl, underflow, hup, h.2, check_of_inRange (inRange_zero d)]
    rfl
  · rw [normalize, Bool.eq_false_iff.2 (vanishes_iff.not.2 h), underflowIf, if_neg Bool.false_ne_true, Ev.andThen_val]

/-- Settles O30: all three are promotions of a candidate to the left operand's tag. -/
theorem promotionsAreLegal : Obligations.PromotionsAreLegal := by
  intro a b p ha _ hp
  have hpromote (c : Candidate) (hs : c.s = (a.s || b.s)) :
      ((promote c a).2 = true → (promote c a).1.s = (a.s || b.s)) ∧
      ((promote c a).2 = false → (promote c a).1 = a) ∧
      (promote c a).1.op = a.op ∧ (promote c a).1.up = a.up :=
    ⟨fun h => by rw [promote_fst_of_true h, hs], promote_fst_of_false, promote_policies c a⟩
  rcases hp with rfl | rfl | rfl
  · exact ⟨sumTag_legal ha, hpromote _ rfl⟩
  · exact ⟨prodTag_legal ha, hpromote _ rfl⟩
  · exact ⟨quotTag_legal ha, hpromote _ rfl⟩

/-- Settles O31: the points add, and a product of in-range magnitudes reaches `2^(N+F)` in one way only. -/
theorem exactProductHasNoError : Obligations.ExactProductHasNoError :=
  fun _ _ A B hex => ⟨val_mul hex A B, exactProduct_overflow_iff hex⟩

/-- Settles O32: in ulps of the quotient tag, the quotient is the truncated real quotient. -/
theorem exactQuotientWithinOneUlp : Obligations.ExactQuotientWithinOneUlp := by
  intro a b A B hex hA hB hB0
  obtain ⟨hnear, htoward⟩ := abs_tdiv_sub_lt_one_and_abs_tdiv_le (shl A (b.n + b.f)) B
  have hulp : 0 < precision (quotTag a b).1 := zpow_pos two_pos _
  have hval (Q : Int) : val Q (quotTag a b).1 = Q * precision (quotTag a b).1 := rfl
  rw [hval, val_div_val hex, ← sub_mul, abs_mul, abs_mul, abs_mul, abs_of_pos hulp]
  exact ⟨mul_lt_of_lt_one_left hulp hnear, mul_le_mul_of_nonneg_right htoward hulp.le,
    exactQuotient_ne_zero hB hB0, exactQuotient_overflow_iff hex hA hB hB0⟩

/-- Settles O33: the bits dropped are R126's t. -/
theorem fallbackProductErrorBound : Obligations.FallbackProductErrorBound := by
  intro A B t prod sh a b ht hprod hsh
  rw [← mulDrop_cast] at ht
  subst ht
  rw [zpow_natCast, ← asr_eq_floor] at hprod
  subst hprod
  refine ⟨?_, mulApprox_error A B a b⟩
  have hmul : mulApprox A a B b = if 0 ≤ sh then asr (A * asr B (mulDrop a b)) sh.toNat
      else shl (A * asr B (mulDrop a b)) (-sh).toNat := by rw [hsh]; rfl
  rw [hmul, shl]
  split
  case isTrue h => exact asr_toNat_eq_floor _ h
  case isFalse => rfl

/-- Settles O34: the bits dropped are R128's u. -/
theorem fallbackQuotientIsTruncated : Obligations.FallbackQuotientIsTruncated := by
  intro A B need u A2 B2 a b q hB hneed hu hA2 hB2 hq
  have hdrop : u = divDrop a B b := by
    rw [divDrop_cast, hu, hneed, add_sub_cancel_right]
    rfl
  rw [hdrop, zpow_natCast, ← asr_eq_floor] at hA2 hB2
  subst hA2 hB2
  exact ⟨asr_divDrop_ne_zero hB a b, divApprox_eq_trunc A B a b hq, fun h => by omega⟩

end Sys2Proof.Machine
end

/-! # Proofs of the statements about transfer, conversion and status (41_transfer.md) -/

section
/-! The end of a command that loads a value through the range check, and the value CVT loads (R111, R112). -/
namespace Sys2Proof.Machine

variable {s : State} {t : Tag} {v r : Int} {fl : Word}

/-- A command that loads the integer it came to, with the STATUS bits its events set (R110, R143, D29). -/
theorem State.finishV_andThen_ok (s : State) (rd : VName) :
    s.finishV rd ((⟨fl, .ok r⟩ : Ev Int).andThen fun r => Ev.val (r, t)) =
      .next (((s.raiseFlags fl).setV rd r t).respond .ok (BitVec.ofInt 64 r)) := by
  rw [Ev.andThen_ok, Ev.val, BitVec.or_zero]
  rfl

/-- A command that comes to a value for `rd` with no event sets no STATUS bit. -/
theorem State.finishV_val (s : State) (rd : VName) : s.finishV rd (Ev.val (r, t)) =
    .next ((s.setV rd r t).respond .ok (BitVec.ofInt 64 r)) :=
  s.finish_val (r, t) _ _

/-- The three ends of a command that loads `r` into `rd` as its format's range check allows (R111, R143, R144, R148). -/
theorem State.finishV_check (s : State) (rd : VName) (r : Int) (t : Tag) :
    (inRange r t = true → s.finishV rd ((check r t).andThen fun r => Ev.val (r, t)) =
      .next ((s.setV rd r t).respond .ok (BitVec.ofInt 64 r))) ∧
    (inRange r t = false → t.op = .throw → s.finishV rd ((check r t).andThen fun r => Ev.val (r, t)) =
      .next (s.abort ovf .overflow)) ∧
    (inRange r t = false → t.op = .ignore → s.finishV rd ((check r t).andThen fun r => Ev.val (r, t)) =
      .next (((s.raiseFlags ovf).setV rd (wrapW t.w.size t.s r) t).respond .ok
        (BitVec.ofInt 64 (wrapW t.w.size t.s r)))) := by
  refine ⟨fun hr => ?inRange, fun hr hop => ?throw, fun hr hop => ?ignore⟩
  case inRange => rw [check_of_inRange hr, Ev.andThen_val, State.finishV_val]
  case throw => rw [check_throw hr hop]; rfl
  case ignore => rw [check_ignore hr hop]; exact s.finishV_andThen_ok rd

/-- FROMINT loads its rounded integer through the range check (R105, R144). -/
theorem exec_fromint (s : State) (rd : VName) (fs : FName) : exec (.fromint rd fs) s =
    s.finishV rd ((check (scaleRound (dataInt (s.tagF fs) s.cmdData) (s.tagF fs).point) (s.tagF fs)).andThen
      fun r => Ev.val (r, s.tagF fs)) := rfl

/-- CVT of a valid register loads its converted value (R148). -/
theorem exec_cvt_of_valid {rs1 : VName} (h : s.getV rs1 = ⟨true, v, t⟩) (rd : VName) (fs : FName) :
    exec (.cvt rd rs1 fs) s =
      s.finishV rd ((normalize v t (s.tagF fs)).andThen fun r => Ev.val (r, s.tagF fs)) := by
  rw [exec, execCvt, State.readV_valid h, Ev.andThen_val, cvtValue]

end Sys2Proof.Machine
end

section
/-! The format word: which words SETFMT loads, and the fields a reader takes from one (R25, R26, R141). -/
namespace Sys2Proof.Machine

/-- A format word with its reserved bits zero and `N + F + S <= W`, `N + F >= 1` is legal: its 8-bit E is always in
range (R26). -/
theorem legalWord_of_fields {w : Word} (hreserved : w.extractLsb' 27 5 = 0#5)
    (hsize : (Tag.ofWord w).n + (Tag.ofWord w).f + (Tag.ofWord w).sBits ≤ (Tag.ofWord w).w.size)
    (hbits : 1 ≤ (Tag.ofWord w).n + (Tag.ofWord w).f) : legalWord w = true := by
  have hmin : -128 ≤ (Tag.ofWord w).e := (w.extractLsb' 14 8).le_toInt
  have hmax : (Tag.ofWord w).e < 128 := (w.extractLsb' 14 8).toInt_lt
  rw [legalWord, hreserved, Tag.legal_iff.2 ⟨hsize, hbits, hmin, by omega⟩]
  rfl

/-- SETFMT loads nothing but a legal format word with `data[63:32] = 0` (R26, R141). -/
theorem formatOperand_eq_illegal {d : Data}
    (h : ¬ (d.extractLsb' 32 32 = 0#32 ∧ legalWord (d.extractLsb' 0 32) = true)) : formatOperand d = illegal := by
  rw [formatOperand, if_neg (by simpa using h)]

/-- The widths in the order of their codes (R25, R120). -/
theorem Width.size_eq (w : Width) : w.size = 8 * 2 ^ w.code.toNat := by cases w <;> rfl

@[simp] theorem Width.code_ofCode (b : BitVec 2) : (Width.ofCode b).code = b := by
  revert b; decide

/-- A policy's bit is set under IGNORE (R25). -/
theorem Policy.bit_eq_true_iff (p : Policy) : p.bit = true ↔ p = .ignore := by cases p <;> decide

@[simp] theorem Policy.bit_ofBit (b : Bool) : (Policy.ofBit b).bit = b := by cases b <;> rfl

end Sys2Proof.Machine
end

section
/-! The statements settled. -/
namespace Sys2Proof.Machine

/-- Settles O35: three commands answer data, and CLRST clears what its mask names, which has no bit above 5. -/
theorem statelessCommandsComplete : Obligations.StatelessCommandsComplete := by
  intro s fs m
  refine ⟨s.finishR_val _, s.finishR_val _, s.finishR_val _, s.clearStatus m, exec_clrst s m, rfl, fun k => ?_⟩
  rw [State.clearStatus_status, BitVec.getLsbD_and, BitVec.getLsbD_not, BitVec.getLsbD_setWidth]
  by_cases hk : k < 32
  case pos =>
    by_cases h6 : k < 6
    · simp [hk, h6]
    · simp [hk, h6, BitVec.getLsbD_of_ge m k (by omega)]
  case neg => simp [BitVec.getLsbD_of_ge s.status k (by omega)]

/-- Settles O36: the operand is loaded exactly where it is a legal format word. -/
theorem setfmtWritesLegalWords : Obligations.SetfmtWritesLegalWords := by
  intro s fs
  constructor
  · intro w hw hreserved hsize hbits
    refine exec_setfmt_of_val ?_ fs
    rw [hw, formatOperand_setWidth (legalWord_of_fields hreserved hsize hbits)]
  · intro h
    rw [exec, execSetfmt, formatOperand_eq_illegal h]
    rfl

/-- Settles O37: WRAP loads the data operand through the range check. -/
theorem wrapLoadsRawIntegers : Obligations.WrapLoadsRawIntegers := by
  rintro s rd fs t k rfl rfl
  exact s.finishV_check rd (dataInt (s.tagF fs) s.cmdData) (s.tagF fs)

/-- Settles O38: FROMINT loads the rounded integer through the range check, and so does FROMREAL. -/
theorem fromintScalesIntegers : Obligations.FromintScalesIntegers := by
  intro s rd fs t k r ht hk hr
  have hscale : scaleRound k t.point = r := (scaleRound_eq_rha k t.point).trans hr.symm
  refine ⟨fun hpoint => ?shift, ?fromReal, ?loads⟩
  case shift => rw [← hscale, scaleRound, if_pos hpoint, shl]
  case fromReal =>
    have h := fromReal_ratCast (k : ℚ) t
    rwa [Rat.cast_intCast, fromRational, ← hr] at h
  case loads =>
    have hdata : dataInt (s.tagF fs) s.cmdData = k := by rw [hk, ht, dataInt]
    rw [exec_fromint, hdata, ← ht, hscale]
    exact s.finishV_check rd r t

/-- Settles O39: a valid register is read as it stands, and a legal tag survives its format word. -/
theorem registerReadsComplete : Obligations.RegisterReadsComplete := by
  refine ⟨fun s rd rs1 v t h => ⟨?rdv, ?rdtag, ?mov⟩, fun t ht => ?word, fun w => ?reader⟩
  case rdv => rw [exec, execRdv, State.readV_valid h, Ev.andThen_val, State.finishR_val, dataOfInt]
  case rdtag => rw [exec, execRdtag, State.readV_valid h, Ev.andThen_val, State.finishR_val]
  case mov => rw [exec, execMov, State.readV_valid h, State.finishV_val]
  case word =>
    obtain ⟨-, -, -, -, hw, hop, hup, hreserved⟩ := t.toWord_places
    have hof := Tag.ofWord_toWord ht
    refine ⟨congrArg Tag.n hof, congrArg Tag.f hof, congrArg Tag.e hof, congrArg Tag.s hof, ?_, ?_, ?_, hreserved,
      hof, legalWord_toWord ht⟩
    · rw [hw, Width.size_eq]
    · rw [hop, Policy.bit_eq_true_iff]
    · rw [hup, Policy.bit_eq_true_iff]
  case reader =>
    refine ⟨rfl, rfl, rfl, rfl, ?_, ?_, ?_⟩
    · rw [Width.size_eq, Tag.ofWord, Width.code_ofCode]
    · rw [← Policy.bit_eq_true_iff, Tag.ofWord, Policy.bit_ofBit]
    · rw [← Policy.bit_eq_true_iff, Tag.ofWord, Policy.bit_ofBit]

/-- Settles O40: a value that is not lost is loaded through the range check, and a lost one is the 0 of `Normalize`. -/
theorem cvtConverts : Obligations.CvtConverts := by
  intro s rd rs1 fs v t d r hv hd hr
  obtain ⟨hfloor, hthrow, hignore, hkept⟩ := normalizeFloorsAndDetects v t d
  rw [hfloor, ← hr] at hthrow hignore hkept
  rw [exec_cvt_of_valid hv, ← hd]
  obtain ⟨hin, hout, hwrap⟩ := s.finishV_check rd r d
  have hne (hrange : inRange r d = false) : ¬ (v ≠ 0 ∧ r = 0) := by
    rintro ⟨-, rfl⟩
    rw [inRange_zero] at hrange
    cases hrange
  refine ⟨fun hrange hnz => ?fits, fun hv0 hr0 hup => ?lost, fun hv0 hr0 hup => ?zeroed, fun hrange hop => ?overflows,
    fun hrange hop => ?wraps⟩
  case fits => rw [hkept fun h => hnz h.1 h.2, hin hrange]
  case lost => rw [hthrow ⟨hv0, hr0⟩ hup]; rfl
  case zeroed => rw [hignore ⟨hv0, hr0⟩ hup]; exact s.finishV_andThen_ok rd
  case overflows => rw [hkept (hne hrange), hout hrange hop]
  case wraps => rw [hkept (hne hrange), hwrap hrange hop]

end Sys2Proof.Machine
end

/-! # Proofs of the statements about arithmetic (42_arithmetic.md) -/

section
/-! The end of a command that loads what its events come to into `rd`, and the events of each arithmetic command in the
order of its pseudocode (R110, R171 to R179). -/
namespace Sys2Proof.Machine

/-- Events are collected in order, however they are grouped (R110). -/
theorem Ev.andThen_assoc {α β γ : Type} (m : Ev α) (k : α → Ev β) (l : β → Ev γ) :
    (m.andThen k).andThen l = m.andThen fun x => (k x).andThen l := by
  obtain ⟨fl, out⟩ := m
  cases out with
  | error c => rfl
  | ok x =>
    rw [Ev.andThen_ok, Ev.andThen_ok]
    generalize k x = n
    obtain ⟨fl', out'⟩ := n
    cases out' with
    | error c => rfl
    | ok y => rw [Ev.andThen_ok, Ev.andThen_ok, BitVec.or_assoc]

/-- The end of a command whose events `e` come to the stored integer of `rd` under the tag `p` (R43, R266). -/
def State.load (s : State) (rd : VName) (e : Ev Int) (p : Tag) : Host.Outcome State Fault Refusal :=
  s.finishV rd (e.andThen fun r => Ev.val (r, p))

theorem State.load_ok (s : State) (rd : VName) (fl : Word) (r : Int) (p : Tag) :
    s.load rd ⟨fl, .ok r⟩ p = .next (((s.raiseFlags fl).setV rd r p).respond .ok (BitVec.ofInt 64 r)) :=
  s.finishV_andThen_ok rd

theorem State.load_error (s : State) (rd : VName) (fl : Word) (c : Code) (p : Tag) :
    s.load rd ⟨fl, .error c⟩ p = .next (s.abort fl c) := rfl

theorem State.load_val (s : State) (rd : VName) (r : Int) (p : Tag) :
    s.load rd (Ev.val r) p = .next ((s.setV rd r p).respond .ok (BitVec.ofInt 64 r)) := by
  rw [Ev.val, State.load_ok, State.raiseFlags_zero]

theorem State.load_raise (s : State) (rd : VName) (fl : Word) (c : Code) (p : Tag) :
    s.load rd (Ev.raise fl c) p = .next (s.abort fl c) := rfl

/-- The events of ADD and SUB (R171, R172). -/
def sumEvents (op : Int → Int → Int) (A : Int) (a : Tag) (B : Int) (b : Tag) : Ev Int :=
  (normalize B b a).andThen fun B2 => check (op A B2) (sumTag a b).1

/-- The events of MUL (R173). -/
def mulEvents (A : Int) (a : Tag) (B : Int) (b : Tag) : Ev Int :=
  if (prodTag a b).2 then check (A * B) (prodTag a b).1 else mulFallback A a B b

/-- The events of DIV (R174). -/
def divEvents (A : Int) (a : Tag) (B : Int) (b : Tag) : Ev Int :=
  if B = 0 then domainError
  else if (quotTag a b).2 then check ((shl A (b.n + b.f)).tdiv B) (quotTag a b).1 else divFallback A a B b

theorem sumValue_eq (op : Int → Int → Int) (A : Int) (a : Tag) (B : Int) (b : Tag) :
    sumValue op (A, a) (B, b) = (sumEvents op A a B b).andThen fun r => Ev.val (r, (sumTag a b).1) := by
  rw [sumEvents, Ev.andThen_assoc]
  rfl

theorem mulValue_eq (A : Int) (a : Tag) (B : Int) (b : Tag) :
    mulValue (A, a) (B, b) = (mulEvents A a B b).andThen fun r => Ev.val (r, (prodTag a b).1) := rfl

theorem divValue_eq (A : Int) (a : Tag) (B : Int) (b : Tag) :
    divValue (A, a) (B, b) = (divEvents A a B b).andThen fun r => Ev.val (r, (quotTag a b).1) := by
  by_cases hB : B = 0
  · rw [divValue, divEvents, if_pos hB, if_pos hB]; rfl
  · rw [divValue, divEvents, if_neg hB, if_neg hB]; rfl

/-- A compound form converts the integer its binary form comes to (R176 to R179). -/
theorem inPlace_andThen_val (e : Ev Int) (p a : Tag) : inPlace (e.andThen fun r => Ev.val (r, p)) a =
    (e.andThen fun r => normalize r p a).andThen fun r => Ev.val (r, a) := by
  simp only [inPlace, Ev.andThen_assoc, Ev.andThen_val]

variable {s : State} {rd rs1 rs2 : VName} {A B : Int} {a b : Tag}

/-- NEG loads the negative or the complement through the range check (R175). -/
theorem exec_neg_of_valid (hA : s.getV rs1 = ⟨true, A, a⟩) :
    exec (.neg rd rs1) s = s.load rd (check (if a.s then -A else largest a - A) a) a := by
  rw [exec, execNeg, State.readV_valid hA, Ev.andThen_val]
  rfl

/-- Two registers of which one is invalid cannot be read (R261). -/
theorem State.read2_invalid (h : (s.getV rs1).valid = false ∨ (s.getV rs2).valid = false) :
    s.read2 rs1 rs2 = illegal := by
  unfold State.read2
  cases h1 : (s.getV rs1).valid
  case false => rw [State.readV_invalid h1]; rfl
  case true =>
    have h2 : (s.getV rs2).valid = false := h.resolve_left (by rw [h1]; exact Bool.noConfusion)
    rw [State.readV_invalid h2, State.readV, if_pos h1, Ev.andThen_val]
    rfl

/-- ADD of an invalid register (R261). -/
theorem exec_add_of_invalid (h : (s.getV rs1).valid = false ∨ (s.getV rs2).valid = false) :
    exec (.add rd rs1 rs2) s = .next (s.abort ill .illegal) := by
  rw [exec, execAdd, State.read2_invalid h]
  rfl

section
variable (hA : s.getV rs1 = ⟨true, A, a⟩) (hB : s.getV rs2 = ⟨true, B, b⟩)
include hA hB

/-- ADD (R171). -/
theorem exec_add_of_valid : exec (.add rd rs1 rs2) s = s.load rd (sumEvents (· + ·) A a B b) (sumTag a b).1 := by
  rw [exec, execAdd, State.read2_valid hA hB, Ev.andThen_val, sumValue_eq, State.load]

/-- SUB (R172). -/
theorem exec_sub_of_valid : exec (.sub rd rs1 rs2) s = s.load rd (sumEvents (· - ·) A a B b) (sumTag a b).1 := by
  rw [exec, execSub, State.read2_valid hA hB, Ev.andThen_val, sumValue_eq, State.load]

/-- MUL (R173). -/
theorem exec_mul_of_valid : exec (.mul rd rs1 rs2) s = s.load rd (mulEvents A a B b) (prodTag a b).1 := by
  rw [exec, execMul, State.read2_valid hA hB, Ev.andThen_val, mulValue_eq, State.load]

/-- DIV (R174). -/
theorem exec_div_of_valid : exec (.div rd rs1 rs2) s = s.load rd (divEvents A a B b) (quotTag a b).1 := by
  rw [exec, execDiv, State.read2_valid hA hB, Ev.andThen_val, divValue_eq, State.load]

/-- ADDA (R176). -/
theorem exec_adda_of_valid : exec (.adda rs1 rs2) s =
    s.load rs1 ((sumEvents (· + ·) A a B b).andThen fun r => normalize r (sumTag a b).1 a) a := by
  rw [exec, execAdda, State.read2_valid hA hB, Ev.andThen_val, sumValue_eq, inPlace_andThen_val, State.load]

/-- SUBA (R177). -/
theorem exec_suba_of_valid : exec (.suba rs1 rs2) s =
    s.load rs1 ((sumEvents (· - ·) A a B b).andThen fun r => normalize r (sumTag a b).1 a) a := by
  rw [exec, execSuba, State.read2_valid hA hB, Ev.andThen_val, sumValue_eq, inPlace_andThen_val, State.load]

/-- MULA (R178). -/
theorem exec_mula_of_valid : exec (.mula rs1 rs2) s =
    s.load rs1 ((mulEvents A a B b).andThen fun r => normalize r (prodTag a b).1 a) a := by
  rw [exec, execMula, State.read2_valid hA hB, Ev.andThen_val, mulValue_eq, inPlace_andThen_val, State.load]

/-- DIVA (R179). -/
theorem exec_diva_of_valid : exec (.diva rs1 rs2) s =
    s.load rs1 ((divEvents A a B b).andThen fun r => normalize r (quotTag a b).1 a) a := by
  rw [exec, execDiva, State.read2_valid hA hB, Ev.andThen_val, divValue_eq, inPlace_andThen_val, State.load]

end

end Sys2Proof.Machine
end

section
/-! What a command loads that can lose a nonzero value: a conversion, or a fallback product or quotient (R112, R126,
R128). -/
namespace Sys2Proof.Machine

variable {a b d p : Tag} {v r A B : Int}

/-- After the STATUS bits `fl`, a value that may be lost and is then range-checked has three ends: it is loaded, it
underflows, or it overflows. `P` says that the exact value is not 0. -/
theorem State.load_detected (s : State) (rd : VName) (fl : Word) {lost : Bool} {P : Prop}
    (hlost : lost = true ↔ P ∧ r = 0) {e : Ev Int}
    (he : e = (Ev.note fl).andThen fun _ => (underflowIf lost d).andThen fun _ => check r d) :
    (inRange r d = true → (P → r ≠ 0) →
      s.load rd e d = .next (((s.raiseFlags fl).setV rd r d).respond .ok (BitVec.ofInt 64 r))) ∧
    (P → r = 0 → d.up = .throw → s.load rd e d = .next (s.abort (fl ||| unf) .underflow)) ∧
    (inRange r d = false → d.op = .throw → s.load rd e d = .next (s.abort (fl ||| ovf) .overflow)) := by
  have hkept (h : P → r ≠ 0) : underflowIf lost d = Ev.val () := by
    rw [underflowIf, if_neg fun hl => h (hlost.1 hl).1 (hlost.1 hl).2]
  subst he
  refine ⟨fun hin hnz => ?loaded, fun hP h0 hup => ?lost, fun hout hop => ?overflows⟩
  case loaded =>
    rw [hkept hnz, Ev.andThen_val, check_of_inRange hin, Ev.note, Ev.andThen_ok, Ev.val, BitVec.or_zero,
      State.load_ok]
  case lost =>
    rw [underflowIf, if_pos (hlost.2 ⟨hP, h0⟩), underflow, hup]
    rfl
  case overflows =>
    have hr : r ≠ 0 := by rintro rfl; rw [inRange_zero] at hout; cases hout
    rw [hkept fun _ => hr, Ev.andThen_val, check_throw hout hop]
    rfl

/-- The three ends of a command that loads a converted value (R112). -/
theorem State.load_normalize (s : State) (rd : VName) (hr : r = ⌊(v : ℚ) * 2 ^ (d.point - a.point)⌋) :
    (inRange r d = true → (v ≠ 0 → r ≠ 0) →
      s.load rd (normalize v a d) d = .next ((s.setV rd r d).respond .ok (BitVec.ofInt 64 r))) ∧
    (v ≠ 0 → r = 0 → d.up = .throw → s.load rd (normalize v a d) d = .next (s.abort unf .underflow)) ∧
    (inRange r d = false → d.op = .throw → s.load rd (normalize v a d) d = .next (s.abort ovf .overflow)) := by
  rw [← rescale_eq_floor] at hr
  subst hr
  have hnote : normalize v a d = (Ev.note 0#32).andThen fun _ =>
      (underflowIf (vanishes v a d) d).andThen fun _ => check (rescale v a d) d := by
    rw [show Ev.note 0#32 = Ev.val () from rfl, Ev.andThen_val]
    rfl
  have h := s.load_detected rd 0#32 vanishes_iff hnote
  rwa [State.raiseFlags_zero, BitVec.zero_or, BitVec.zero_or] at h

/-- A conversion that loses nothing is the range check of the floor (R112). -/
theorem normalize_of_kept (hr : r = ⌊(v : ℚ) * 2 ^ (d.point - a.point)⌋) (hnz : v ≠ 0 → r ≠ 0) :
    normalize v a d = check r d := by
  rw [← rescale_eq_floor] at hr
  subst hr
  obtain ⟨-, -, -, hkept⟩ := normalizeFloorsAndDetects v a d
  exact hkept fun h => hnz h.1 h.2

/-- A conversion to a tag with the same binary point is its range check alone (R112). -/
theorem normalize_of_point_eq (h : p.point = d.point) : normalize v p d = check v d :=
  normalize_of_kept (by rw [h, sub_self, zpow_zero, mul_one, Int.floor_intCast]) id

/-- The three ends of a command that loads the fallback product: STATUS.APX is set on all (R126, R28). -/
theorem State.load_mulFallback (s : State) (rd : VName) (hr : r = mulApprox A a B b) :
    (inRange r a = true → (A ≠ 0 ∧ B ≠ 0 → r ≠ 0) → s.load rd (mulFallback A a B b) a =
      .next (((s.raiseFlags apx).setV rd r a).respond .ok (BitVec.ofInt 64 r))) ∧
    (A ≠ 0 ∧ B ≠ 0 → r = 0 → a.up = .throw →
      s.load rd (mulFallback A a B b) a = .next (s.abort (apx ||| unf) .underflow)) ∧
    (inRange r a = false → a.op = .throw →
      s.load rd (mulFallback A a B b) a = .next (s.abort (apx ||| ovf) .overflow)) := by
  subst hr
  exact s.load_detected rd apx (lost := A != 0 && B != 0 && mulApprox A a B b == 0)
    (by rw [Bool.and_eq_true, Bool.and_eq_true, bne_iff_ne, bne_iff_ne, beq_iff_eq]) rfl

/-- The three ends of a command that loads the fallback quotient: STATUS.APX is set on all (R128, R28). -/
theorem State.load_divFallback (s : State) (rd : VName) (hr : r = divApprox A a B b) :
    (inRange r a = true → (A ≠ 0 → r ≠ 0) → s.load rd (divFallback A a B b) a =
      .next (((s.raiseFlags apx).setV rd r a).respond .ok (BitVec.ofInt 64 r))) ∧
    (A ≠ 0 → r = 0 → a.up = .throw →
      s.load rd (divFallback A a B b) a = .next (s.abort (apx ||| unf) .underflow)) ∧
    (inRange r a = false → a.op = .throw →
      s.load rd (divFallback A a B b) a = .next (s.abort (apx ||| ovf) .overflow)) := by
  subst hr
  exact s.load_detected rd apx (lost := A != 0 && divApprox A a B b == 0)
    (by rw [Bool.and_eq_true, bne_iff_ne, beq_iff_eq]) rfl

end Sys2Proof.Machine
end

section
/-! Which promotions are expandable, and the ranges of sums, products and quotients in their tags (R101, R121 to R125,
R127, R129). -/
namespace Sys2Proof.Machine

variable {a b p : Tag} {A B v : Int} {c : Candidate}

/-- R121 -/
theorem Candidate.expandable_iff : c.expandable = true ↔ c.req ≤ 64 ∧ -128 ≤ c.e ∧ c.e ≤ 127 := by
  simp only [Candidate.expandable, Bool.and_eq_true, decide_eq_true_eq, and_assoc]
  rfl

/-- A candidate that fits gets the smallest native width (R121). -/
theorem promote_of_fits (hreq : c.req ≤ 64) (hmin : -128 ≤ c.e) (hmax : c.e ≤ 127)
    (hp : p = ⟨nativeW c.req, c.s, c.n, c.f, c.e, a.op, a.up⟩) : promote c a = (p, true) := by
  rw [hp]
  exact if_pos (Candidate.expandable_iff.2 ⟨hreq, hmin, hmax⟩)

/-- One that does not fit leaves the left operand's tag (R121). -/
theorem promote_of_not_fits (h : 64 < c.req ∨ c.e < -128 ∨ 127 < c.e) : promote c a = (a, false) :=
  if_neg (by rw [Candidate.expandable_iff]; omega)

/-- The sum tag, if it is expandable (R123). -/
theorem sumTag_fst_of_true (h : (sumTag a b).2 = true) : ∃ w, (sumTag a b).1 =
    ⟨w, a.s || b.s, a.n + 1, a.f, a.e, a.op, a.up⟩ := ⟨_, promote_fst_of_true h⟩

/-- The range of a format, signed or not: an unsigned one is the nonnegative half (R101). -/
theorem inRange_iff_bounds : inRange v a = true ↔
    (-2 ^ (a.n + a.f) ≤ v ∧ v < 2 ^ (a.n + a.f)) ∧ (a.s = false → 0 ≤ v) := by
  have hpos : (0 : Int) < 2 ^ (a.n + a.f) := by positivity
  rw [inRange_iff, least, largest]
  cases a.s
  case false => rw [if_neg Bool.false_ne_true]; simp only [forall_const]; omega
  case true => rw [if_pos rfl]; simp only [Bool.true_eq_false, false_implies, and_true]; omega

/-- A format as wide as another, and unsigned only where the other is, holds every value of the other (R101). -/
theorem inRange_mono (h : inRange v a = true) (hbits : a.n + a.f ≤ p.n + p.f) (hs : p.s = false → a.s = false) :
    inRange v p = true := by
  have hpow : (2 : Int) ^ (a.n + a.f) ≤ 2 ^ (p.n + p.f) := pow_le_pow_right₀ one_le_two hbits
  rw [inRange_iff_bounds] at h ⊢
  obtain ⟨⟨hlow, hhigh⟩, hnonneg⟩ := h
  exact ⟨⟨by omega, by omega⟩, fun hp => hnonneg (hs hp)⟩

/-- The sum of two values of a format lies in the format one bit wider (R171). -/
theorem inRange_add (hA : inRange A a = true) (hB : inRange B a = true) (hbits : p.n + p.f = a.n + a.f + 1)
    (hs : p.s = false → a.s = false) : inRange (A + B) p = true := by
  have hpow : (2 : Int) ^ (p.n + p.f) = 2 * 2 ^ (a.n + a.f) := by rw [hbits, pow_succ']
  rw [inRange_iff_bounds] at hA hB ⊢
  obtain ⟨⟨hAlow, hAhigh⟩, hAnonneg⟩ := hA
  obtain ⟨⟨hBlow, hBhigh⟩, hBnonneg⟩ := hB
  exact ⟨⟨by omega, by omega⟩, fun hp => add_nonneg (hAnonneg (hs hp)) (hBnonneg (hs hp))⟩

/-- So does their difference, unless it is negative and the wider format unsigned (R171, R172). -/
theorem inRange_sub (hA : inRange A a = true) (hB : inRange B a = true) (hbits : p.n + p.f = a.n + a.f + 1)
    (hs : p.s = false → B ≤ A) : inRange (A - B) p = true := by
  have hpow : (2 : Int) ^ (p.n + p.f) = 2 * 2 ^ (a.n + a.f) := by rw [hbits, pow_succ']
  rw [inRange_iff_bounds] at hA hB ⊢
  obtain ⟨⟨hAlow, hAhigh⟩, -⟩ := hA
  obtain ⟨⟨hBlow, hBhigh⟩, -⟩ := hB
  exact ⟨⟨by omega, by omega⟩, fun hp => sub_nonneg.2 (hs hp)⟩

/-- The sum tag keeps the left operand's binary point, expandable or not (R123). -/
theorem sumTag_point (a b : Tag) : (sumTag a b).1.point = a.point := by
  cases hex : (sumTag a b).2
  case false => rw [show (sumTag a b).1 = a from promote_fst_of_false hex]
  case true => obtain ⟨w, htag⟩ := sumTag_fst_of_true hex; rw [htag]; rfl

/-- The sum tag holds every value of the left operand's format, expandable or not (R123). -/
theorem inRange_sumTag (h : inRange v a = true) (b : Tag) : inRange v (sumTag a b).1 = true := by
  cases hex : (sumTag a b).2
  case false => rwa [show (sumTag a b).1 = a from promote_fst_of_false hex]
  case true =>
    obtain ⟨w, htag⟩ := sumTag_fst_of_true hex
    rw [htag]
    exact inRange_mono h (show a.n + a.f ≤ a.n + 1 + a.f by omega) fun hp => (Bool.or_eq_false_iff.1 hp).1

/-- The least value of a signed format (R101). -/
theorem least_of_signed (h : a.s = true) : least a = -2 ^ (a.n + a.f) := if_pos h

/-- The expandable product has no event but for the two least signed values (R127). -/
theorem mulEvents_of_expandable (hex : (prodTag a b).2 = true) (hA : inRange A a = true) (hB : inRange B b = true)
    (hne : ¬ (a.s = true ∧ b.s = true ∧ A = least a ∧ B = least b)) : mulEvents A a B b = Ev.val (A * B) := by
  rw [mulEvents, if_pos hex]
  refine check_of_inRange (Bool.of_not_eq_false fun h => hne ?_)
  obtain ⟨ha, hb, hA, hB⟩ := (exactProduct_overflow_iff hex hA hB).1 h
  exact ⟨ha, hb, by rw [hA, least_of_signed ha], by rw [hB, least_of_signed hb]⟩

/-- The expandable quotient has no event but for the least signed value over -1 (R129). -/
theorem divEvents_of_expandable (hex : (quotTag a b).2 = true) (hA : inRange A a = true) (hB : inRange B b = true)
    (hB0 : B ≠ 0) (hne : ¬ (a.s = true ∧ b.s = true ∧ A = least a ∧ B = -1)) :
    divEvents A a B b = Ev.val ((A * 2 ^ (b.n + b.f)).tdiv B) := by
  rw [divEvents, if_neg hB0, if_pos hex]
  refine check_of_inRange (Bool.of_not_eq_false fun h => hne ?_)
  obtain ⟨ha, hb, hA, hB⟩ := (exactQuotient_overflow_iff hex hA hB hB0).1 h
  exact ⟨ha, hb, by rw [hA, least_of_signed ha], hB⟩

/-- Division by zero is a DOMAIN event (R174). -/
theorem divEvents_zero (A : Int) (a b : Tag) : divEvents A a 0 b = domainError := if_pos rfl

/-- A compound sum that ends in the left operand's range has no event of its own (R176, R177). -/
theorem sumEvents_inPlace {op : Int → Int → Int} {B2 : Int} (hB : normalize B b a = Ev.val B2)
    (h : inRange (op A B2) a = true) :
    ((sumEvents op A a B b).andThen fun r => normalize r (sumTag a b).1 a) = Ev.val (op A B2) := by
  rw [sumEvents, hB, Ev.andThen_val, check_of_inRange (inRange_sumTag h b), Ev.andThen_val,
    normalize_of_point_eq (sumTag_point a b), check_of_inRange h]

/-- A compound sum of in-range operands that leaves their range overflows, in the check of the sum or in the conversion
back (R176). -/
theorem sumEvents_inPlace_overflow {B2 : Int} (hA : inRange A a = true) (hB2 : inRange B2 a = true)
    (hB : normalize B b a = Ev.val B2) (h : inRange (A + B2) a = false) (hop : a.op = .throw) :
    ((sumEvents (· + ·) A a B b).andThen fun r => normalize r (sumTag a b).1 a) = Ev.raise ovf .overflow := by
  rw [sumEvents, hB, Ev.andThen_val]
  cases hex : (sumTag a b).2
  case false =>
    rw [show (sumTag a b).1 = a from promote_fst_of_false hex, check_throw h hop]
    rfl
  case true =>
    have hsum : inRange (A + B2) (sumTag a b).1 = true := by
      obtain ⟨w, htag⟩ := sumTag_fst_of_true hex
      rw [htag]
      exact inRange_add hA hB2 (show a.n + 1 + a.f = a.n + a.f + 1 by omega) fun hp =>
        (Bool.or_eq_false_iff.1 hp).1
    rw [check_of_inRange hsum, Ev.andThen_val, normalize_of_point_eq (sumTag_point a b), check_throw h hop]

/-- The two's complement of the width takes `2^(N+F)` to the least value of a signed format that fills it (R103,
R175). -/
theorem wrapW_neg_least (hs : a.s = true) (hfull : a.n + a.f + 1 = a.w.size) :
    wrapW a.w.size a.s (-least a) = least a := by
  have hpow : (2 : Int) ^ a.w.size = 2 * 2 ^ (a.n + a.f) := by rw [← hfull, pow_succ']
  have hpos : (0 : Int) < 2 ^ (a.n + a.f) := by positivity
  obtain ⟨-, hwrap, -⟩ := wrapKeepsTheResidue a.w.size (-least a) a.w.one_le_size
  rw [hs, hwrap, least_of_signed hs, neg_neg, hpow, ← hfull,
    Nat.add_sub_cancel, Int.emod_eq_of_lt hpos.le (by omega), if_pos le_rfl]
  omega

end Sys2Proof.Machine
end

section
/-! The statements settled. -/
namespace Sys2Proof.Machine

/-- Settles O42: each command loads what its events come to. -/
theorem arithmeticFollowsItsPseudocode : Obligations.ArithmeticFollowsItsPseudocode := by
  intro s rd rs1 rs2 A B a b p i e hA hB hi
  suffices h : exec i s = s.load rd e p from
    ⟨fun fl c he => by rw [h, he, State.load_error], fun fl r he => by rw [h, he, State.load_ok]⟩
  rcases hi with ⟨rfl, rfl, rfl⟩ | ⟨rfl, rfl, rfl⟩ | ⟨rfl, rfl, rfl⟩ | ⟨rfl, rfl, rfl⟩ | ⟨rfl, rfl, rfl⟩ |
    ⟨rfl, rfl, rfl, rfl⟩ | ⟨rfl, rfl, rfl, rfl⟩ | ⟨rfl, rfl, rfl, rfl⟩ | ⟨rfl, rfl, rfl, rfl⟩
  · exact exec_add_of_valid hA hB
  · exact exec_sub_of_valid hA hB
  · exact exec_mul_of_valid hA hB
  · exact exec_div_of_valid hA hB
  · exact exec_neg_of_valid hA
  · exact exec_adda_of_valid hA hB
  · exact exec_suba_of_valid hA hB
  · exact exec_mula_of_valid hA hB
  · exact exec_diva_of_valid hA hB

/-- Settles O41: the converted operand and the left one lie in a's range, and the sum tag is one bit wider. -/
theorem expandableSumsComplete : Obligations.ExpandableSumsComplete := by
  intro s rd rs1 rs2 A B B2 a b p hA hB hAin hB2 hB2in hnz hreq hmin hmax hp
  have htag : sumTag a b = (p, true) := promote_of_fits hreq hmin hmax hp
  have hconv : normalize B b a = Ev.val B2 := by rw [normalize_of_kept hB2 hnz, check_of_inRange hB2in]
  have hps : p.s = (a.s || b.s) := by rw [hp]
  have hbits : p.n + p.f = a.n + a.f + 1 := by rw [hp]; dsimp only; omega
  have hunsigned (h : p.s = false) : a.s = false := (Bool.or_eq_false_iff.1 (hps ▸ h)).1
  refine ⟨?add, fun hneg => ?sub⟩
  case add =>
    rw [exec_add_of_valid hA hB, sumEvents, hconv, Ev.andThen_val, htag,
      check_of_inRange (inRange_add hAin hB2in hbits hunsigned), State.load_val]
  case sub =>
    have hle (h : p.s = false) : B2 ≤ A := hneg.resolve_left (by rw [← hps, h]; exact Bool.false_ne_true)
    rw [exec_sub_of_valid hA hB, sumEvents, hconv, Ev.andThen_val, htag,
      check_of_inRange (inRange_sub hAin hB2in hbits hle), State.load_val]

/-- Settles O43: neither operand is changed by its conversion, and an invalid one aborts in either order. -/
theorem sameFormatAddCommutes : Obligations.SameFormatAddCommutes := by
  intro s rd rs1 rs2 htag hA hB
  by_cases hinvalid : (s.getV rs1).valid = false ∨ (s.getV rs2).valid = false
  case pos => rw [exec_add_of_invalid hinvalid, exec_add_of_invalid hinvalid.symm]
  case neg =>
    obtain ⟨⟨valid1, A, a⟩, h1⟩ : ∃ x, s.getV rs1 = x := ⟨_, rfl⟩
    obtain ⟨⟨valid2, B, b⟩, h2⟩ : ∃ y, s.getV rs2 = y := ⟨_, rfl⟩
    rw [h1, h2] at hinvalid htag
    rw [h1] at hA
    rw [h2] at hB
    obtain ⟨rfl, rfl⟩ : valid1 = true ∧ valid2 = true := by simpa using hinvalid
    obtain rfl : a = b := htag
    rw [exec_add_of_valid h1 h2, exec_add_of_valid h2 h1, sumEvents, sumEvents, normalize_same hA, normalize_same hB,
      Ev.andThen_val, Ev.andThen_val, add_comm]

/-- Settles O44: the product tag holds every product of in-range operands but that of the two least values. -/
theorem expandableProductsComplete : Obligations.ExpandableProductsComplete := by
  intro s rd rs1 rs2 A B a b p hA hB hAin hBin hreq hmin hmax hp
  have hprod : prodTag a b = (p, true) := promote_of_fits hreq hmin hmax hp
  have hex : (prodTag a b).2 = true := by rw [hprod]
  refine ⟨fun hne => ?exact, fun hleast hop => ?overflows⟩
  case exact =>
    rw [exec_mul_of_valid hA hB, mulEvents_of_expandable hex hAin hBin hne, hprod, State.load_val]
  case overflows =>
    obtain ⟨ha, hb, hAl, hBl⟩ := hleast
    have hout : inRange (A * B) (prodTag a b).1 = false := (exactProduct_overflow_iff hex hAin hBin).2
      ⟨ha, hb, hAl.trans (least_of_signed ha), hBl.trans (least_of_signed hb)⟩
    rw [exec_mul_of_valid hA hB, mulEvents, if_pos hex, check_throw hout (by rw [hprod, hp, hop]), State.load_raise]

/-- Settles O45: the fallback product is R126's, and it may be lost or leave a's range. -/
theorem fallbackProductsComplete : Obligations.FallbackProductsComplete := by
  intro s rd rs1 rs2 A B a b t prod sh r hA hB hnot ht hprod hsh hr
  have htag : prodTag a b = (a, false) := promote_of_not_fits hnot
  obtain ⟨happrox, -⟩ := fallbackProductErrorBound A B t prod sh a b ht hprod hsh
  obtain ⟨hloads, hlost, hover⟩ := s.load_mulFallback rd (hr.trans happrox.symm)
  rw [exec_mul_of_valid hA hB, mulEvents, htag]
  exact ⟨fun hin hnz => hloads hin fun h => hnz h.1 h.2, fun hA0 hB0 => hlost ⟨hA0, hB0⟩, hover⟩

/-- Settles O46: the quotient tag holds every quotient of in-range operands but that of the least value over -1. -/
theorem expandableQuotientsComplete : Obligations.ExpandableQuotientsComplete := by
  intro s rd rs1 rs2 A B a b p hA hB
  rw [exec_div_of_valid hA hB]
  refine ⟨fun hB0 => ?zero, fun hAin hBin hB0 hreq hmin hmax hp => ?nonzero⟩
  case zero => rw [hB0, divEvents_zero]; rfl
  case nonzero =>
    have hquot : quotTag a b = (p, true) := promote_of_fits hreq hmin hmax hp
    have hex : (quotTag a b).2 = true := by rw [hquot]
    refine ⟨fun hne => ?exact, fun hleast hop => ?overflows⟩
    case exact => rw [divEvents_of_expandable hex hAin hBin hB0 hne, hquot, State.load_val]
    case overflows =>
      obtain ⟨ha, hb, hAl, hBl⟩ := hleast
      have hout : inRange ((shl A (b.n + b.f)).tdiv B) (quotTag a b).1 = false :=
        (exactQuotient_overflow_iff hex hAin hBin hB0).2 ⟨ha, hb, hAl.trans (least_of_signed ha), hBl⟩
      rw [divEvents, if_neg hB0, if_pos hex, check_throw hout (by rw [hquot, hp, hop]), State.load_raise]

/-- Settles O47: the fallback quotient is R128's, and it may be lost or leave a's range. -/
theorem fallbackQuotientsComplete : Obligations.FallbackQuotientsComplete := by
  intro s rd rs1 rs2 A B a b need u A2 B2 r q hA hB hB0 hnot hneed hu hA2 hB2 hq hr
  have htag : quotTag a b = (a, false) := promote_of_not_fits hnot
  obtain ⟨-, happrox, -⟩ := fallbackQuotientIsTruncated A B need u A2 B2 a b q hB0 hneed hu hA2 hB2 hq
  rw [exec_div_of_valid hA hB, divEvents, if_neg hB0, htag]
  exact s.load_divFallback rd (hr.trans happrox.symm)

/-- Settles O48: the negative of a signed value leaves its range only at the least one, the complement never does. -/
theorem negNegates : Obligations.NegNegates := by
  intro s rd rs1 A a hA hin
  obtain ⟨⟨hlow, hhigh⟩, hnonneg⟩ := inRange_iff_bounds.1 hin
  rw [exec_neg_of_valid hA]
  cases hs : a.s
  case true =>
    rw [if_pos rfl, least_of_signed hs]
    have hout : inRange (- -2 ^ (a.n + a.f)) a = false := by
      rw [inRange_eq_false_iff, largest, neg_neg]; omega
    refine ⟨fun _ hne => ?negative, ?throws, ?wraps, nofun⟩
    case negative =>
      have hfits : inRange (-A) a = true :=
        inRange_iff_bounds.2 ⟨⟨by omega, by omega⟩, fun h => by rw [hs] at h; cases h⟩
      rw [check_of_inRange hfits, State.load_val]
    case throws =>
      rintro - rfl hop
      rw [check_throw hout hop, State.load_raise]
    case wraps =>
      rintro - rfl hop hfull
      have hwrap := wrapW_neg_least hs hfull
      rw [least_of_signed hs] at hwrap
      rw [check_ignore hout hop, hwrap, State.load_ok]
  case false =>
    have hfits : inRange (largest a - A) a = true := by
      have := hnonneg hs
      rw [inRange_iff_bounds, largest]
      exact ⟨⟨by omega, by omega⟩, fun _ => by omega⟩
    refine ⟨nofun, nofun, nofun, fun _ => ?_⟩
    rw [if_neg Bool.false_ne_true, check_of_inRange hfits, State.load_val]

/-- Settles O49: the sum tag has a's binary point and holds a's range, so what is in a's range comes back unchanged. -/
theorem compoundSumsComplete : Obligations.CompoundSumsComplete := by
  intro s rd rs2 A B B2 a b hA hB hB2 hB2in hnz
  have hconv : normalize B b a = Ev.val B2 := by rw [normalize_of_kept hB2 hnz, check_of_inRange hB2in]
  refine ⟨fun h => ?adda, fun h => ?suba, fun hAin h hop => ?overflows⟩
  case adda => rw [exec_adda_of_valid hA hB, sumEvents_inPlace hconv h, State.load_val]
  case suba => rw [exec_suba_of_valid hA hB, sumEvents_inPlace hconv h, State.load_val]
  case overflows =>
    rw [exec_adda_of_valid hA hB, sumEvents_inPlace_overflow hAin hB2in hconv h hop, State.load_raise]

/-- Settles O50: the exact product is converted to a's tag, whose binary point is `P(b)` lower. -/
theorem compoundProductsComplete : Obligations.CompoundProductsComplete := by
  intro s rd rs2 A B r a b hA hB hAin hBin hex hne hr
  have hpoint : a.point - (prodTag a b).1.point = -b.point := by
    obtain ⟨w, htag⟩ := prodTag_fst_of_true hex
    rw [htag]; simp only [Tag.point]; push_cast; ring
  rw [exec_mula_of_valid hA hB, mulEvents_of_expandable hex hAin hBin hne, Ev.andThen_val]
  exact s.load_normalize rd (by rw [hpoint, hr, Int.cast_mul])

/-- Settles O51: the exact quotient is converted to a's tag, whose binary point is `b.N - b.E` lower. -/
theorem compoundQuotientsComplete : Obligations.CompoundQuotientsComplete := by
  intro s rd rs2 A B q r a b hA hB
  rw [exec_diva_of_valid hA hB]
  refine ⟨fun hB0 => ?zero, fun hAin hBin hB0 hex hne hq hr => ?nonzero⟩
  case zero => rw [hB0, divEvents_zero]; rfl
  case nonzero =>
    have hpoint : a.point - (quotTag a b).1.point = b.e - b.n := by
      obtain ⟨w, htag⟩ := quotTag_fst_of_true hex
      rw [htag]; simp only [Tag.point]; push_cast; ring
    rw [divEvents_of_expandable hex hAin hBin hB0 hne, ← hq, Ev.andThen_val]
    exact s.load_normalize rd (by rw [hpoint, hr])

end Sys2Proof.Machine
end

/-! # Proofs of the statements about comparison (43_compare.md) -/

section
/-! The six comparisons are one command with a relation: what it does when the right operand converts, and when the
conversion raises (R200). -/
namespace Sys2Proof.Machine

/-- STATUS.CMP is bit 5, and it holds the result last written (R27). -/
theorem State.setCmp_status_getLsbD (s : State) (c : Bool) : (s.setCmp c).status.getLsbD 5 = c := by
  cases c <;> simp [cmpBit]

/-- Writing STATUS.CMP leaves the other bits of STATUS (R27). -/
theorem State.setCmp_status_outside (s : State) (c : Bool) :
    (s.setCmp c).status &&& ~~~cmpBit = s.status &&& ~~~cmpBit := by
  simpa using setCmp_outside s.status 0#32 cmpBit c (BitsIn.zero _) (BitsIn.refl _)

/-- The comparison of `rs1` with `rs2` by the relation `cond` (R200). -/
def State.compare (s : State) (rs1 rs2 : VName) (cond : Int → Int → Bool) : Host.Outcome State Fault Refusal :=
  s.finishC ((s.read2 rs1 rs2).andThen fun p => compareValue cond p.1 p.2)

theorem exec_cmpEq (s : State) (rs1 rs2 : VName) :
    exec (.cmpEq rs1 rs2) s = s.compare rs1 rs2 fun A B2 => decide (A = B2) := rfl

theorem exec_cmpNe (s : State) (rs1 rs2 : VName) :
    exec (.cmpNe rs1 rs2) s = s.compare rs1 rs2 fun A B2 => decide (A ≠ B2) := rfl

theorem exec_cmpLt (s : State) (rs1 rs2 : VName) :
    exec (.cmpLt rs1 rs2) s = s.compare rs1 rs2 fun A B2 => decide (A < B2) := rfl

theorem exec_cmpLe (s : State) (rs1 rs2 : VName) :
    exec (.cmpLe rs1 rs2) s = s.compare rs1 rs2 fun A B2 => decide (A ≤ B2) := rfl

theorem exec_cmpGt (s : State) (rs1 rs2 : VName) :
    exec (.cmpGt rs1 rs2) s = s.compare rs1 rs2 fun A B2 => decide (B2 < A) := rfl

theorem exec_cmpGe (s : State) (rs1 rs2 : VName) :
    exec (.cmpGe rs1 rs2) s = s.compare rs1 rs2 fun A B2 => decide (B2 ≤ A) := rfl

/-- The state after a comparison whose relation is `c` and whose conversion set the STATUS bits `fl` (R200). -/
def State.compared (s : State) (fl : Word) (c : Bool) : State :=
  ((s.raiseFlags fl).setCmp c).respond .ok (if c then 1#64 else 0#64)

@[simp] theorem State.compared_rspCode (s : State) (fl : Word) (c : Bool) : (s.compared fl c).rspCode = .ok := rfl

theorem State.compared_rspData_eq_one_iff (s : State) (fl : Word) (c : Bool) :
    (s.compared fl c).rspData = 1#64 ↔ c = true := by
  cases c <;> simp [State.compared]

/-- A comparison sets the bits of its conversion and writes STATUS.CMP (R200). -/
theorem State.compared_status_outside (s : State) (fl : Word) (c : Bool) :
    (s.compared fl c).status &&& ~~~cmpBit = (s.status ||| fl) &&& ~~~cmpBit :=
  (s.raiseFlags fl).setCmp_status_outside c

variable {s t : State} {rs1 rs2 : VName} {A B B2 : Int} {a b : Tag} {fl : Word} {cond : Int → Int → Bool}

/-- Two valid operands are compared once the right one is converted to the left tag (R200). -/
theorem State.compare_of_valid (hA : s.getV rs1 = ⟨true, A, a⟩) (hB : s.getV rs2 = ⟨true, B, b⟩)
    (cond : Int → Int → Bool) :
    s.compare rs1 rs2 cond = s.finishC ((normalize B b a).andThen fun B2 => Ev.val (cond A B2)) := by
  rw [State.compare, State.read2_valid hA hB, Ev.andThen_val, compareValue]

theorem State.compare_of_ok (hA : s.getV rs1 = ⟨true, A, a⟩) (hB : s.getV rs2 = ⟨true, B, b⟩)
    (hconv : normalize B b a = ⟨fl, .ok B2⟩) (cond : Int → Int → Bool) :
    s.compare rs1 rs2 cond = .next (s.compared fl (cond A B2)) := by
  have hevents : (normalize B b a).andThen (fun B2 => Ev.val (cond A B2)) = ⟨fl, .ok (cond A B2)⟩ := by
    rw [hconv, Ev.andThen_ok, Ev.val, BitVec.or_zero]
  rw [State.compare_of_valid hA hB, hevents]
  rfl

theorem State.compare_of_error {e : Code} (hA : s.getV rs1 = ⟨true, A, a⟩) (hB : s.getV rs2 = ⟨true, B, b⟩)
    (hconv : normalize B b a = ⟨fl, .error e⟩) (cond : Int → Int → Bool) :
    s.compare rs1 rs2 cond = .next (s.abort fl e) := by
  rw [State.compare_of_valid hA hB, hconv, Ev.andThen_error]
  rfl

/-- A comparison that responds OK has read two valid operands and converted the right one (R200, R266). -/
theorem State.operands_of_compare_ok (h : s.compare rs1 rs2 cond = .next t) (hok : t.rspCode = .ok) :
    ∃ A B a b fl B2, s.getV rs1 = ⟨true, A, a⟩ ∧ s.getV rs2 = ⟨true, B, b⟩ ∧ normalize B b a = ⟨fl, .ok B2⟩ := by
  rcases State.finish_cases h with ⟨c, hc, -⟩ | ⟨e, he, rfl⟩
  case inl =>
    obtain ⟨p, hp, hvalue, -⟩ := Ev.andThen_out_ok hc
    obtain ⟨B2, hB2, -, -⟩ := Ev.andThen_out_ok hvalue
    obtain ⟨hA, hB⟩ := State.read2_out_ok hp
    exact ⟨_, _, _, _, _, B2, hA, hB, by rw [← hB2]⟩
  case inr =>
    have hall (x : Word) : BitsIn x (BitVec.allOnes 32) := by simp [BitsIn]
    have hwithin : ((s.read2 rs1 rs2).andThen fun p => compareValue cond p.1 p.2).Within (BitVec.allOnes 32)
        [.illegal, .underflow, .overflow] :=
      (within_read2 _ _ _ (hall _) (by simp)).andThen fun _ =>
        within_compareValue _ _ _ (hall _) (hall _) (by simp) (by simp)
    obtain ⟨-, hne, -⟩ := hwithin.2 e he
    exact absurd hok hne

end Sys2Proof.Machine
end

section
/-! The statements settled. -/
namespace Sys2Proof.Machine

/-- Settles O52: each comparison is `State.compare` with its relation. -/
theorem comparisonsComplete : Obligations.ComparisonsComplete := by
  intro s rs1 rs2 A B a b i c hA hB hi
  obtain ⟨cond, hexec, rfl⟩ : ∃ cond, exec i s = s.compare rs1 rs2 cond ∧ c = cond A := by
    rcases hi with ⟨rfl, rfl⟩ | ⟨rfl, rfl⟩ | ⟨rfl, rfl⟩ | ⟨rfl, rfl⟩ | ⟨rfl, rfl⟩ | ⟨rfl, rfl⟩
    · exact ⟨_, exec_cmpEq s rs1 rs2, rfl⟩
    · exact ⟨_, exec_cmpNe s rs1 rs2, rfl⟩
    · exact ⟨_, exec_cmpLt s rs1 rs2, rfl⟩
    · exact ⟨_, exec_cmpLe s rs1 rs2, rfl⟩
    · exact ⟨_, exec_cmpGt s rs1 rs2, rfl⟩
    · exact ⟨_, exec_cmpGe s rs1 rs2, rfl⟩
  rw [hexec]
  refine ⟨fun fl B2 hconv => ?answers, fun fl e hconv => State.compare_of_error hA hB hconv cond⟩
  exact ⟨_, State.compare_of_ok hA hB hconv cond, rfl, rfl, rfl, rfl,
    State.setCmp_status_getLsbD _ _, State.compared_status_outside _ _ _⟩

/-- Settles O53: the six relations are of the same two integers, and between in-range operands of one tag those are the
operands themselves in either order. -/
theorem comparisonIdentities : Obligations.ComparisonIdentities := by
  intro s eq ne lt le gt ge x y heq hne hlt hle hgt hge
  rw [exec_cmpEq] at heq
  rw [exec_cmpNe] at hne
  rw [exec_cmpLt] at hlt
  rw [exec_cmpLe] at hle
  rw [exec_cmpGt] at hgt
  rw [exec_cmpGe] at hge
  refine ⟨fun hok => ?identities, fun hx hy htag hxin hyin => ?mirror⟩
  case identities =>
    obtain ⟨A, B, a, b, fl, B2, hA, hB, hconv⟩ := State.operands_of_compare_ok heq hok
    rw [State.compare_of_ok hA hB hconv, Host.Outcome.next.injEq] at heq hne hlt hle hgt hge
    subst heq hne hlt hle hgt hge
    simp only [State.compared_rspData_eq_one_iff, decide_eq_true_iff]
    exact ⟨rfl, rfl, rfl, rfl, rfl, not_not.symm, not_le.symm, not_le.symm, le_iff_lt_or_eq,
      le_iff_lt_or_eq.trans (or_congr_right eq_comm)⟩
  case mirror =>
    obtain ⟨⟨validx, A, a⟩, hA⟩ : ∃ v, s.getV x = v := ⟨_, rfl⟩
    obtain ⟨⟨validy, B, b⟩, hB⟩ : ∃ v, s.getV y = v := ⟨_, rfl⟩
    rw [hA] at hx hxin htag
    rw [hB] at hy hyin htag
    obtain rfl : validx = true := hx
    obtain rfl : validy = true := hy
    obtain rfl : a = b := htag
    rw [State.compare_of_ok hA hB (normalize_same hyin), Host.Outcome.next.injEq] at hlt
    subst hlt
    refine ⟨rfl, ?_, ?_⟩
    · exact (State.compared_status_outside _ _ _).trans (by rw [BitVec.or_zero]; rfl)
    · rw [exec_cmpGt, State.compare_of_ok hB hA (normalize_same hxin)]

end Sys2Proof.Machine
end

/-! # Proofs of the statements about the CORDIC engines (44_cordic.md) -/

section
/-! The hyperbolic schedule: which shifts it runs twice, how often it runs each, and its length (R212, R224). -/
namespace Sys2Proof.Machine

theorem repShift_strictMono : StrictMono repShift :=
  strictMono_nat_of_lt_succ fun j => by
    show repShift j < 3 * repShift j + 1
    omega

/-- The search for `k` from a member of REP finds it just when it is that member or a later one, given fuel for the
distance (R212). -/
theorem isRepeatFrom_repShift_iff {fuel j k : Nat} (hfuel : k < repShift j + fuel) :
    isRepeatFrom fuel (repShift j) k = true ↔ ∃ i, j ≤ i ∧ k = repShift i := by
  have hpast {j : Nat} (hk : k < repShift j) : ¬ ∃ i, j ≤ i ∧ k = repShift i := by
    rintro ⟨i, hi, rfl⟩
    exact absurd (repShift_strictMono.monotone hi) (by omega)
  induction fuel generalizing j with
  | zero => exact iff_of_false Bool.false_ne_true (hpast hfuel)
  | succ fuel ih =>
    rw [isRepeatFrom]
    split
    case isTrue hk => exact iff_of_false Bool.false_ne_true (hpast hk)
    case isFalse hge =>
      split
      case isTrue hk => exact iff_of_true rfl ⟨j, le_rfl, hk⟩
      case isFalse hne =>
        have hnext : repShift (j + 1) = 3 * repShift j + 1 := rfl
        rw [← hnext]
        refine (ih (by omega)).trans ?_
        constructor
        · rintro ⟨i, hi, hk⟩
          exact ⟨i, by omega, hk⟩
        · rintro ⟨i, hi, hk⟩
          have hij : i ≠ j := fun h => hne (h ▸ hk)
          exact ⟨i, by omega, hk⟩

theorem isRepeat_iff {k : Nat} : isRepeat k = true ↔ ∃ j, k = repShift j :=
  (isRepeatFrom_repShift_iff (j := 0) (show k < 4 + k by omega)).trans (by simp)

theorem one_le_of_isRepeat {k : Nat} (h : isRepeat k = true) : 1 ≤ k := by
  obtain ⟨j, rfl⟩ := isRepeat_iff.1 h
  exact le_trans (by decide) (repShift_strictMono.monotone (Nat.zero_le j))

theorem isRepeat_iff_mem_of_lt {k : Nat} (hk : k < 121) : isRepeat k = true ↔ k ∈ [4, 13, 40] := by
  rw [isRepeat_iff]
  constructor
  · rintro ⟨j, rfl⟩
    have hj : j < 3 := repShift_strictMono.lt_iff_lt.1 hk
    interval_cases j <;> decide
  · simp only [List.mem_cons, List.not_mem_nil, or_false]
    rintro (rfl | rfl | rfl)
    · exact ⟨0, rfl⟩
    · exact ⟨1, rfl⟩
    · exact ⟨2, rfl⟩

/-- How often the hyperbolic schedule runs a shift it reaches (R212). -/
def timesRun (k : Nat) : Nat := if isRepeat k then 2 else 1

theorem timesRun_pos (k : Nat) : 1 ≤ timesRun k := by
  rw [timesRun]
  split <;> decide

theorem timesRun_le_two (k : Nat) : timesRun k ≤ 2 := by
  rw [timesRun]
  split <;> decide

theorem timesRun_eq_two_iff {k : Nat} : timesRun k = 2 ↔ isRepeat k = true := by
  simp [timesRun]

theorem hyperbolicSchedule_succ (f : Nat) :
    hyperbolicSchedule (f + 1) = hyperbolicSchedule f ++ List.replicate (timesRun (f + 1)) (f + 1) := by
  rw [hyperbolicSchedule, timesRun]
  split <;> rfl

theorem count_hyperbolicSchedule (f k : Nat) :
    (hyperbolicSchedule f).count k = if 1 ≤ k ∧ k ≤ f then timesRun k else 0 := by
  induction f with
  | zero => rw [if_neg (by omega)]; rfl
  | succ f ih =>
    rw [hyperbolicSchedule_succ, List.count_append, ih, List.count_replicate]
    by_cases hk : k = f + 1
    · subst hk
      simp
    · have hne : (f + 1 == k) = false := by simpa using Ne.symm hk
      rw [hne, if_neg Bool.false_ne_true, Nat.add_zero]
      exact if_congr (by omega) rfl rfl

theorem mem_hyperbolicSchedule {f k : Nat} : k ∈ hyperbolicSchedule f ↔ 1 ≤ k ∧ k ≤ f := by
  rw [← List.count_pos_iff, count_hyperbolicSchedule]
  split
  case isTrue h => exact iff_of_true (timesRun_pos k) h
  case isFalse h => exact iff_of_false (lt_irrefl 0) h

theorem hyperbolicSchedule_pairwise_le (f : Nat) : (hyperbolicSchedule f).Pairwise (· ≤ ·) := by
  induction f with
  | zero => exact List.Pairwise.nil
  | succ f ih =>
    rw [hyperbolicSchedule_succ, List.pairwise_append]
    refine ⟨ih, List.pairwise_replicate.2 (.inr le_rfl), fun a ha b hb => ?_⟩
    have hle := (mem_hyperbolicSchedule.1 ha).2
    rw [List.eq_of_mem_replicate hb]
    omega

theorem length_filter_le_succ (l : List Nat) (f : Nat) :
    (l.filter (· ≤ f + 1)).length = (l.filter (· ≤ f)).length + l.count (f + 1) := by
  induction l with
  | nil => rfl
  | cons x xs ih =>
    simp only [List.filter_cons, List.count_cons, decide_eq_true_eq, beq_iff_eq, apply_ite List.length,
      List.length_cons]
    split_ifs <;> omega

theorem length_hyperbolicSchedule {f : Nat} (hf : f < 121) :
    (hyperbolicSchedule f).length = f + ([4, 13, 40].filter (· ≤ f)).length := by
  induction f with
  | zero => rfl
  | succ f ih =>
    have htimes : timesRun (f + 1) = 1 + [4, 13, 40].count (f + 1) := by
      rw [List.Nodup.count (by decide), timesRun, if_congr (isRepeat_iff_mem_of_lt hf) rfl rfl]
      split <;> rfl
    rw [hyperbolicSchedule_succ, List.length_append, List.length_replicate, ih (by omega),
      length_filter_le_succ, htimes]
    omega

/-- An engine runs at least one step when F is at least 1 (R210 to R212). -/
theorem schedule_ne_nil (c : Coord) {f : Nat} (hf : 1 ≤ f) : schedule c f ≠ [] := by
  cases c with
  | circular => exact List.ne_nil_of_mem (List.mem_range.2 hf)
  | hyperbolic => exact List.ne_nil_of_mem (mem_hyperbolicSchedule.2 ⟨le_rfl, hf⟩)

end Sys2Proof.Machine
end

section
/-! The angle tables are largest at entry 0, and rounding keeps the order (R104, R241, R242). -/
namespace Sys2Proof.Machine

theorem scaleRound_zero (p : Int) : scaleRound 0 p = 0 := by
  rw [scaleRound_eq_rha, Int.cast_zero, zero_mul]
  exact rha_intCast 0

theorem scaleRound_mono_of_nonneg {a b : Int} (ha : 0 ≤ a) (hab : a ≤ b) (p : Int) :
    scaleRound a p ≤ scaleRound b p := by
  have hb := ha.trans hab
  rw [scaleRound, scaleRound]
  split
  · exact mul_le_mul_of_nonneg_right hab (by positivity)
  · rw [roundShift, roundShift, if_pos ha, if_pos hb]
    exact Int.ediv_le_ediv (by positivity) (by omega)

theorem lutRound_nonneg (kind : LutKind) (i : Nat) (t : Tag) : 0 ≤ lutRound kind i t := by
  have h := scaleRound_mono_of_nonneg le_rfl (Int.natCast_nonneg (romWord kind i t.f)) (t.point - Config.romBits)
  rwa [scaleRound_zero] at h

theorem getD_zero_le_of_forall_le {l : List Nat} {m : Nat} (h : ∀ x ∈ l, x ≤ m) (k : Nat) : l.getD k 0 ≤ m := by
  by_cases hk : k < l.length
  · rw [List.getD_eq_getElem _ _ hk]
    exact h _ (List.getElem_mem hk)
  · rw [List.getD_eq_default _ _ (by omega)]
    exact Nat.zero_le m

theorem atanRom_getD_le (k : Nat) : atanRom.getD k 0 ≤ atanRom.getD 0 0 :=
  getD_zero_le_of_forall_le (by decide +kernel) k

theorem atanhRom_getD_le (k : Nat) : atanhRom.getD k 0 ≤ atanhRom.getD 0 0 :=
  getD_zero_le_of_forall_le (by decide +kernel) k

theorem stepAngle_nonneg (c : Coord) (t : Tag) (k : Nat) : 0 ≤ stepAngle c t k := by
  cases c <;> exact lutRound_nonneg _ _ _

theorem stepAngle_le_firstAngle (c : Coord) (t : Tag) (k : Nat) : stepAngle c t k ≤ firstAngle c t := by
  cases c with
  | circular => exact scaleRound_mono_of_nonneg (Int.natCast_nonneg _) (Int.ofNat_le.2 (atanRom_getD_le k)) _
  | hyperbolic => exact scaleRound_mono_of_nonneg (Int.natCast_nonneg _) (Int.ofNat_le.2 (atanhRom_getD_le (k - 1))) _

end Sys2Proof.Machine
end

section
/-! The four engines are one command, `State.cordic`: its operand test and its end (R210, R217 to R221). -/
namespace Sys2Proof.Machine

variable {s : State} {c : Coord} {m : Mode} {rd rs1 rs2 : VName} {t : Tag}

theorem exec_crotc (s : State) (rd rs1 rs2 : VName) :
    exec (.crotc rd rs1 rs2) s = s.cordic .circular .rotation rd rs1 rs2 := rfl

theorem exec_croth (s : State) (rd rs1 rs2 : VName) :
    exec (.croth rd rs1 rs2) s = s.cordic .hyperbolic .rotation rd rs1 rs2 := rfl

theorem exec_cvecc (s : State) (rd rs1 rs2 : VName) :
    exec (.cvecc rd rs1 rs2) s = s.cordic .circular .vectoring rd rs1 rs2 := rfl

theorem exec_cvech (s : State) (rd rs1 rs2 : VName) :
    exec (.cvech rd rs1 rs2) s = s.cordic .hyperbolic .vectoring rd rs1 rs2 := rfl

theorem State.cordicLegal_iff : s.cordicLegal c rd rs1 rs2 = true ↔
    rd ≠ rs1 ∧ rd ≠ rs2 ∧ rs1 ≠ rs2 ∧
      (s.getV rd).valid = true ∧ (s.getV rs1).valid = true ∧ (s.getV rs2).valid = true ∧
      (s.getV rd).t = (s.getV rs1).t ∧ (s.getV rd).t = (s.getV rs2).t ∧ (s.getV rd).t.s = true ∧
      1 ≤ (s.getV rd).t.f ∧ firstAngle c (s.getV rd).t ≤ largest (s.getV rd).t := by
  simp only [State.cordicLegal, Bool.and_eq_true, decide_eq_true_eq, and_assoc]

theorem State.cordic_of_not_legal (h : ¬ s.cordicLegal c rd rs1 rs2 = true) :
    s.cordic c m rd rs1 rs2 = .next (s.abort ill .illegal) := by
  rw [State.cordic, cordicLanes, if_neg h]
  rfl

theorem State.cordic_of_legal (h : s.cordicLegal c rd rs1 rs2 = true) (ht : (s.getV rd).t = t) :
    s.cordic c m rd rs1 rs2 = s.finish (checkLanes (runEngine c m t (s.lanes rd rs1 rs2)) t)
      (fun s' l => s'.setLanes rd rs1 rs2 t l) (fun l => dataOfInt l.x) := by
  subst ht
  rw [State.cordic, cordicLanes, if_pos h]

end Sys2Proof.Machine
end

section
/-! The lanes an engine leaves are wrapped in W bits, and what their writeback checks come to (R111, R215 to R217). -/
namespace Sys2Proof.Machine

variable {t : Tag} {l : Lanes}

theorem direction_eq_ite (m : Mode) (l : Lanes) : direction m l =
    if m = .rotation then (if 0 ≤ l.z then 1 else -1) else (if l.y < 0 then 1 else -1) := by
  cases m <;> rfl

theorem stepAngle_eq_ite (c : Coord) (t : Tag) (k : Nat) : stepAngle c t k =
    if c = .circular then lutRound .atan k t else lutRound .atanh (k - 1) t := by
  cases c <;> rfl

theorem firstAngle_eq_lutRound (c : Coord) (t : Tag) :
    firstAngle c t = lutRound (if c = .circular then .atan else .atanh) 0 t := by
  cases c <;> rfl

/-- Three integers wrapped in the storage width of a tag (R103). -/
def Lanes.wrap (p : Lanes) (t : Tag) : Lanes :=
  ⟨wrapW t.w.size t.s p.x, wrapW t.w.size t.s p.y, wrapW t.w.size t.s p.z⟩

theorem microStep_eq_wrap (c : Coord) (m : Mode) (hs : t.s = true) (l : Lanes) (k : Nat) :
    ∃ p : Lanes, microStep c m t l k = p.wrap t := by
  simp only [Lanes.wrap, hs]
  exact ⟨⟨_, _, _⟩, rfl⟩

/-- An engine ends with a micro-step, so its lanes are wrapped. -/
theorem runEngine_eq_wrap (c : Coord) (m : Mode) (hs : t.s = true) (hf : 1 ≤ t.f) (l : Lanes) :
    ∃ p : Lanes, runEngine c m t l = p.wrap t := by
  obtain ⟨ks, k, hks⟩ := (List.eq_nil_or_concat' _).resolve_left (schedule_ne_nil c hf)
  rw [runEngine, hks, List.foldl_append]
  exact microStep_eq_wrap c m hs _ k

/-- In a signed format that fills its width every wrapped integer is in range (R101, R103). -/
theorem inRange_wrapW (hs : t.s = true) (hfull : t.n + t.f + 1 = t.w.size) (v : Int) :
    inRange (wrapW t.w.size t.s v) t = true := by
  have hfits := fitsWidth_wrapW v t
  rw [fitsWidth, if_pos hs, Bool.and_eq_true, decide_eq_true_eq, decide_eq_true_eq, ← hfull,
    Nat.add_sub_cancel] at hfits
  rw [inRange_iff, least_of_signed hs, largest, ← hfull]
  exact hfits

theorem wrapW_wrapW (w : Nat) (sg : Bool) (v : Int) : wrapW w sg (wrapW w sg v) = wrapW w sg v :=
  wrapW_congr w sg (wrapW_emod w sg v)

/-- The STATUS bits of a writeback under IGNORE (R111). -/
def rangeFlag (inside : Bool) : Word := if inside then 0#32 else ovf

/-- Under IGNORE the check of a wrapped integer keeps it (R111). -/
theorem check_wrapW_of_ignore (ht : t.op = .ignore) (v : Int) : check (wrapW t.w.size t.s v) t =
    ⟨rangeFlag (inRange (wrapW t.w.size t.s v) t), .ok (wrapW t.w.size t.s v)⟩ := by
  cases h : inRange (wrapW t.w.size t.s v) t
  · rw [check_ignore h ht, wrapW_wrapW]
    rfl
  · rw [check_of_inRange h]
    rfl

theorem checkLanes_of_inRange (h : inRange l.x t = true ∧ inRange l.y t = true ∧ inRange l.z t = true) :
    checkLanes l t = Ev.val l := by
  obtain ⟨hx, hy, hz⟩ := h
  rw [checkLanes, check_of_inRange hx, check_of_inRange hy, check_of_inRange hz]
  simp only [Ev.andThen_val]

theorem checkLanes_of_throw (ht : t.op = .throw)
    (h : inRange l.x t = false ∨ inRange l.y t = false ∨ inRange l.z t = false) :
    checkLanes l t = Ev.raise ovf .overflow := by
  rw [checkLanes]
  cases hx : inRange l.x t
  case false => rw [check_throw hx ht, Ev.andThen_raise]
  case true =>
    rw [check_of_inRange hx, Ev.andThen_val]
    cases hy : inRange l.y t
    case false => rw [check_throw hy ht, Ev.andThen_raise]
    case true =>
      have hz : inRange l.z t = false := by simpa [hx, hy] using h
      rw [check_of_inRange hy, Ev.andThen_val, check_throw hz ht, Ev.andThen_raise]

theorem checkLanes_wrap_of_ignore (ht : t.op = .ignore) (p : Lanes) : checkLanes (p.wrap t) t =
    ⟨rangeFlag (inRange (p.wrap t).x t && inRange (p.wrap t).y t && inRange (p.wrap t).z t), .ok (p.wrap t)⟩ := by
  have hflags (a b c : Bool) :
      rangeFlag a ||| (rangeFlag b ||| (rangeFlag c ||| 0#32)) = rangeFlag (a && b && c) := by
    revert a b c
    decide
  rw [← hflags, checkLanes, Lanes.wrap]
  simp only [check_wrapW_of_ignore ht, Ev.andThen_ok, Ev.val]

end Sys2Proof.Machine
end

section
/-! The statements settled. -/
namespace Sys2Proof.Machine

/-- Settles O54: the hyperbolic schedule appends each shift `timesRun` times, by induction on F. -/
theorem schedulesAreTheListedShifts : Obligations.SchedulesAreTheListedShifts := by
  intro f
  refine ⟨rfl, hyperbolicSchedule_pairwise_le f, fun k => ?counts, length_hyperbolicSchedule⟩
  rw [schedule, count_hyperbolicSchedule, ← isRepeat_iff]
  by_cases hk : 1 ≤ k ∧ k ≤ f
  · rw [if_pos hk]
    exact ⟨timesRun_le_two k, iff_of_true (timesRun_pos k) hk,
      timesRun_eq_two_iff.trans (and_iff_right hk.2).symm⟩
  · rw [if_neg hk]
    exact ⟨by omega, iff_of_false (by omega) hk,
      iff_of_false (by omega) fun ⟨hle, hrep⟩ => hk ⟨one_le_of_isRepeat hrep, hle⟩⟩

/-- Settles O55: entry 0 is the largest of its table. -/
theorem engineAnglesAreRepresentable : Obligations.EngineAnglesAreRepresentable :=
  fun c t k _ _ _ hfirst _ => ⟨stepAngle_nonneg c t k, (stepAngle_le_firstAngle c t k).trans hfirst⟩

/-- Settles O56: each engine is `State.cordic`, which tests R210 first. -/
theorem engineOperandsAreChecked : Obligations.EngineOperandsAreChecked := by
  intro s rd rs1 rs2 i c hi hillegal
  obtain ⟨m, hexec⟩ : ∃ m, exec i s = s.cordic c m rd rs1 rs2 := by
    rcases hi with ⟨rfl, rfl | rfl⟩ | ⟨rfl, rfl | rfl⟩
    · exact ⟨_, exec_crotc s rd rs1 rs2⟩
    · exact ⟨_, exec_cvecc s rd rs1 rs2⟩
    · exact ⟨_, exec_croth s rd rs1 rs2⟩
    · exact ⟨_, exec_cvech s rd rs1 rs2⟩
  rw [hexec]
  exact State.cordic_of_not_legal fun h => hillegal (State.cordicLegal_iff.1 h)

/-- Settles O57: on legal operands an engine is the writeback of wrapped lanes. -/
theorem enginesComplete : Obligations.EnginesComplete := by
  intro s rd rs1 rs2 i c m t l d step hi h01 h02 h12 hrd hrs1 hrs2 hs hf hfirst hd hstep hl
  have hexec : exec i s = s.cordic c m rd rs1 rs2 := by
    rcases hi with ⟨rfl, rfl, rfl⟩ | ⟨rfl, rfl, rfl⟩ | ⟨rfl, rfl, rfl⟩ | ⟨rfl, rfl, rfl⟩
    · exact exec_crotc s rd rs1 rs2
    · exact exec_croth s rd rs1 rs2
    · exact exec_cvecc s rd rs1 rs2
    · exact exec_cvech s rd rs1 rs2
  have hmicro : step = microStep c m t := by
    subst hd hstep
    funext p k
    cases c <;> simp [microStep, direction_eq_ite, stepAngle_eq_ite, asr_eq_floor]
  have hrun : l = runEngine c m t (s.lanes rd rs1 rs2) := by rw [hl, hmicro]; rfl
  have htag : (s.getV rd).t = t := congrArg VReg.t hrd
  have hlegal : s.cordicLegal c rd rs1 rs2 = true := by
    rw [State.cordicLegal_iff, htag]
    exact ⟨h01, h02, h12, congrArg VReg.valid hrd, congrArg VReg.valid hrs1, congrArg VReg.valid hrs2,
      (congrArg VReg.t hrs1).symm, (congrArg VReg.t hrs2).symm, hs, hf, (firstAngle_eq_lutRound c t).le.trans hfirst⟩
  obtain ⟨p, hp⟩ := runEngine_eq_wrap c m hs hf (s.lanes rd rs1 rs2)
  rw [← hrun] at hp
  rw [hexec, State.cordic_of_legal hlegal htag, ← hrun]
  refine ⟨fun h => ?inside, fun h hop => ?throw, fun h hop => ?ignore⟩
  case inside =>
    have hin : inRange l.x t = true ∧ inRange l.y t = true ∧ inRange l.z t = true := by
      rcases h with hfull | hin
      · rw [hp]
        exact ⟨inRange_wrapW hs hfull _, inRange_wrapW hs hfull _, inRange_wrapW hs hfull _⟩
      · exact hin
    rw [checkLanes_of_inRange hin, State.finish_val]
    rfl
  case throw =>
    rw [checkLanes_of_throw hop h, State.finish_error s _ _ rfl]
    rfl
  case ignore =>
    have hflag : (inRange l.x t && inRange l.y t && inRange l.z t) = false := by
      rcases h with h | h | h <;> simp [h]
    rw [hp] at hflag ⊢
    rw [checkLanes_wrap_of_ignore hop, hflag, State.finish_ok s _ _ rfl]
    rfl

end Sys2Proof.Machine
end

/-! # Proofs of the statements about the tables (45_lut.md) -/

section
/-! A table entry rounds the ROM word as it would the exact real: below the ROM's binary point, RHA sees no more of a
real than its floor (R104, R241, R242). -/
namespace Sys2Proof.Machine

/-- RHA after a right shift depends on the floor of the shifted real alone (R104). -/
theorem rhaReal_div_two_pow_succ {x : ℝ} (hx : 0 ≤ x) (k : ℕ) :
    rhaReal (x / 2 ^ (k + 1)) = (⌊x⌋ + 2 ^ k) / 2 ^ (k + 1) := by
  have hhalf : x / 2 ^ (k + 1) + 1 / 2 = (x + (2 ^ k : ℤ)) / (2 ^ (k + 1) : ℕ) := by
    push_cast; field_simp; ring
  rw [rhaReal, if_pos (by positivity), hhalf, Int.floor_div_natCast, Int.floor_add_intCast]
  push_cast
  rfl

theorem IsFloor.floor_eq {w : Nat} {y : ℝ} (h : IsFloor w y) : ⌊y * 2 ^ 192⌋ = w := by
  rw [Int.floor_eq_iff, Int.cast_natCast]
  exact h

/-- A ROM word rounds to a binary point below the ROM's as the real it is the floor of (R104, R242). -/
theorem IsFloor.scaleRound_eq_rhaReal {w : Nat} {y : ℝ} (h : IsFloor w y) {p : ℤ} (hp : p < 192) :
    scaleRound w (p - 192) = rhaReal (y * 2 ^ p) := by
  obtain ⟨k, hk⟩ : ∃ k : ℕ, p = 192 - (k + 1 : ℕ) := ⟨(191 - p).toNat, by omega⟩
  have hword : ((w : ℤ) : ℚ) * 2 ^ (p - 192) = (w : ℚ) / 2 ^ (k + 1) := by
    rw [hk, sub_sub_cancel_left, zpow_neg, zpow_natCast, Int.cast_natCast, div_eq_mul_inv]
  have hreal : y * 2 ^ p = y * 2 ^ 192 / 2 ^ (k + 1) := by
    rw [hk, zpow_sub₀ two_ne_zero, zpow_natCast, mul_div_assoc]
    norm_cast
  rw [scaleRound_eq_rha, ← rhaReal_ratCast, hword, hreal]
  push_cast
  rw [rhaReal_div_two_pow_succ w.cast_nonneg, rhaReal_div_two_pow_succ (w.cast_nonneg.trans h.1), h.floor_eq,
    Int.floor_natCast]

/-- A legal tag has an F the ROM lists, and its binary point lies below the ROM's (R26, R100). -/
theorem Tag.f_le_and_point_lt_of_legal {t : Tag} (ht : t.legal = true) : t.f ≤ 64 ∧ t.point < 192 := by
  obtain ⟨hsize, -, -, hmax⟩ := Tag.legal_iff.1 ht
  have := t.w.size_le
  rw [Tag.point]
  omega

/-- The entry before its range check is RHA of the scaled exact real (R241, R242). -/
theorem lutRound_eq_rhaReal (kind : LutKind) {i : Nat} {t : Tag} (ht : t.legal = true) (hi : i < lutLen kind t.f) :
    lutRound kind i t = rhaReal (lutReal kind i t.f * 2 ^ t.point) := by
  obtain ⟨hf, hpoint⟩ := Tag.f_le_and_point_lt_of_legal ht
  exact (isFloor_romWord kind hf hi).scaleRound_eq_rhaReal hpoint

theorem lutLen_eq_ite (kind : LutKind) (f : Nat) : lutLen kind f = if kind = .kcirc ∨ kind = .khyp then 1 else f := by
  cases kind <;> rfl

end Sys2Proof.Machine
end

section
/-! LUTRD: the kinds its SUB selects, and its two ends (R78, R243, R244). -/
namespace Sys2Proof.Machine

variable {s : State} {rd : VName} {fs : FName} {sub : BitVec 3} {imm : BitVec 12} {kind : LutKind}

/-- The kind numbers of R78. -/
theorem LutKind.ofSub_eq_some_iff : LutKind.ofSub sub = some kind ↔ (sub.toNat, kind) ∈
    [(0, LutKind.atan), (1, .atanh), (2, .pow2), (3, .ipow2), (4, .kcirc), (5, .khyp)] := by
  cases kind <;> revert sub <;> decide

/-- The length of a table by its kind number: F for the first four, 1 for the scale factors (R243). -/
theorem lutLen_of_ofSub_eq_some (h : LutKind.ofSub sub = some kind) (f : Nat) :
    lutLen kind f = if sub.toNat ≤ 3 then f else 1 := by
  unfold LutKind.ofSub at h
  split at h <;> cases h <;> simp [lutLen, *]

/-- Below the length LUTRD loads the rounded entry through the range check (R244). -/
theorem exec_lutrd_of_lt (h : LutKind.ofSub sub = some kind) (hn : imm.toNat < lutLen kind (s.tagF fs).f) :
    exec (.lutrd rd fs sub imm) s =
      s.finishV rd ((check (lutRound kind imm.toNat (s.tagF fs)) (s.tagF fs)).andThen fun r =>
        Ev.val (r, s.tagF fs)) := by
  simp only [exec, execLutrd, lutrdValue, h, if_pos hn, lutEntry]

/-- At or above the length LUTRD is the ILLEGAL abort (R243, R244). -/
theorem exec_lutrd_of_le (h : LutKind.ofSub sub = some kind) (hn : lutLen kind (s.tagF fs).f ≤ imm.toNat) :
    exec (.lutrd rd fs sub imm) s = .next (s.abort ill .illegal) := by
  simp only [exec, execLutrd, lutrdValue, h, if_neg hn.not_gt]
  rfl

end Sys2Proof.Machine
end

section
/-! The statements settled. -/
namespace Sys2Proof.Machine

/-- Settles O58: the ROM holds the floors of the exact reals, and rounding sees no more of them. -/
theorem tableEntriesAreRoundedReals : Obligations.TableEntriesAreRoundedReals := by
  intro kind i t ht hi
  rw [← lutLen_eq_ite] at hi
  have hround := lutRound_eq_rhaReal kind ht hi
  exact ⟨hround, congrArg (check · t) hround⟩

/-- Settles O59: a defined kind and index load through the range check, and no other kind or index loads. -/
theorem lutrdReadsTheTables : Obligations.LutrdReadsTheTables := by
  rintro s rd fs k n t len rfl rfl
  refine ⟨fun kind hkind hn => ?loads, ?illegal⟩
  case loads =>
    have hsub := LutKind.ofSub_eq_some_iff.2 hkind
    rw [exec_lutrd_of_lt hsub (by rwa [lutLen_of_ofSub_eq_some hsub])]
    exact s.finishV_check rd _ _
  case illegal =>
    rintro (hundefined | hn)
    · exact exec_lutrd_of_undefined_kind (LutKind.ofSub_eq_none (decide_eq_false hundefined.not_ge)) s rd fs n
    · cases hsub : LutKind.ofSub k with
      | none => exact exec_lutrd_of_undefined_kind hsub s rd fs n
      | some kind => exact exec_lutrd_of_le hsub (by rwa [lutLen_of_ofSub_eq_some hsub])

end Sys2Proof.Machine
end


/-! # Proofs of the statements about errors (60_exceptions.md) -/

section
/-! Everything an error leaves behind: the abort by a code, with that code's STATUS bit among the sticky bits it sets
(R260, R266, R267). -/
namespace Sys2Proof.Machine

variable {s t : State} {i : Instr}

theorem bitsIn_and_right {a x y : Word} (h : BitsIn a (x &&& y)) : BitsIn a y :=
  bitsIn_and_left (BitVec.and_comm x y ▸ h)

/-- An instruction that responds an error is the abort by one of its codes. -/
theorem exec_eq_abort_of_ne_ok (h : exec i s = .next t) (hne : t.rspCode ≠ .ok) :
    ∃ fl c, BitsIn fl stickyMask ∧ c ∈ i.codes ∧ BitsIn c.statusBit fl ∧ t = s.abort fl c := by
  rcases exec_answers h with ⟨fl, c, hfl, hc, -, hbit, ht⟩ | ⟨u, d, -, -, rfl⟩
  · exact ⟨fl, c, bitsIn_and_right hfl, hc, hbit, ht⟩
  · exact absurd rfl hne

/-- A performed word, malformed or not, that responds an error is an abort. -/
theorem State.perform_eq_abort_of_ne_ok (h : s.perform = .next t) (hne : t.rspCode ≠ .ok) :
    ∃ fl c, BitsIn fl stickyMask ∧ BitsIn c.statusBit fl ∧ t = s.abort fl c := by
  rcases State.perform_cases h with ⟨i, -, hexec⟩ | ht
  · obtain ⟨fl, c, hfl, -, hbit, ht⟩ := exec_eq_abort_of_ne_ok hexec hne
    exact ⟨fl, c, hfl, hbit, ht⟩
  · exact ⟨ill, .illegal, by unfold BitsIn; decide, BitsIn.refl ill, ht⟩

end Sys2Proof.Machine
end

section
/-! A command that reads an invalid register (R21, R261). -/
namespace Sys2Proof.Machine

variable {s : State} {r : VName}

theorem State.read2_of_mem_invalid {rs1 rs2 : VName} (hr : r ∈ [rs1, rs2]) (hinvalid : (s.getV r).valid = false) :
    s.read2 rs1 rs2 = illegal := by
  obtain rfl | rfl : r = rs1 ∨ r = rs2 := by simpa using hr
  · exact State.read2_invalid (.inl hinvalid)
  · exact State.read2_invalid (.inr hinvalid)

theorem State.cordic_of_mem_invalid {c : Coord} {m : Mode} {rd rs1 rs2 : VName} (hr : r ∈ [rd, rs1, rs2])
    (hinvalid : (s.getV r).valid = false) : s.cordic c m rd rs1 rs2 = .next (s.abort ill .illegal) := by
  refine State.cordic_of_not_legal fun hlegal => ?_
  obtain ⟨hrd, hrs1, hrs2⟩ := State.valid_of_cordicLegal hlegal
  have hvalid : ∀ i ∈ [rd, rs1, rs2], (s.getV i).valid = true := by simp [hrd, hrs1, hrs2]
  exact Bool.false_ne_true (hinvalid.symm.trans (hvalid r hr))

/-- Every instruction reads its sources before it does anything else: one register, two, or an engine's three. -/
theorem exec_of_invalid_source {i : Instr} (hr : r ∈ i.sources) (hinvalid : (s.getV r).valid = false) :
    exec i s = .next (s.abort ill .illegal) := by
  cases i <;> simp only [exec]
  case nop | setfmt | rdfmt | wrap | fromint | lutrd | rdst | clrst => cases hr
  case rdv | rdtag | mov | cvt | neg =>
    cases List.mem_singleton.1 hr
    simp only [execRdv, execRdtag, execMov, execCvt, execNeg, State.readV_invalid hinvalid]
    rfl
  case add | sub | mul | div =>
    simp only [execAdd, execSub, execMul, execDiv, State.read2_of_mem_invalid hr hinvalid]
    rfl
  case adda | suba | mula | diva =>
    simp only [execAdda, execSuba, execMula, execDiva, State.read2_of_mem_invalid hr hinvalid]
    rfl
  case cmpEq | cmpNe | cmpLt | cmpLe | cmpGt | cmpGe =>
    simp only [execCmpEq, execCmpNe, execCmpLt, execCmpLe, execCmpGt, execCmpGe, State.read2_of_mem_invalid hr hinvalid]
    rfl
  case crotc | croth | cvecc | cvech => exact State.cordic_of_mem_invalid hr hinvalid

end Sys2Proof.Machine
end

section
/-! The two commands that divide, by the validity of their operands and by their divisor (R174, R179, R262). -/
namespace Sys2Proof.Machine

variable {s t : State} {i : Instr} {l r : VName}

/-- A command that divides `l` by `r`: DIV, or DIVA in place. -/
def Divides (i : Instr) (l r : VName) : Prop := (∃ rd, i = .div rd l r) ∨ i = .diva l r

theorem divides_of_domain_mem_codes (h : Code.domain ∈ i.codes) : ∃ l r, Divides i l r := by
  cases i
  case div rd l r => exact ⟨l, r, .inl ⟨rd, rfl⟩⟩
  case diva l r => exact ⟨l, r, .inr rfl⟩
  all_goals simp [Instr.codes] at h

theorem Divides.sources_eq (h : Divides i l r) : i.sources = [l, r] := by
  obtain ⟨rd, rfl⟩ | rfl := h <;> rfl

theorem bitsIn_allOnes (a : Word) : BitsIn a (BitVec.allOnes 32) := by simp [BitsIn]

/-- Division by a nonzero integer raises no DOMAIN event, on either path (R128, R129). -/
theorem within_divEvents_of_ne_zero (A : Int) (a : Tag) {B : Int} (hB : B ≠ 0) (b : Tag) :
    (divEvents A a B b).Within (BitVec.allOnes 32) [.overflow, .underflow] := by
  have hcheck (v : Int) (d : Tag) : (check v d).Within (BitVec.allOnes 32) [.overflow, .underflow] :=
    within_check v d (bitsIn_allOnes _) (by simp)
  rw [divEvents, if_neg hB]
  split
  · exact hcheck _ _
  · exact (Ev.within_note _ (bitsIn_allOnes apx)).andThen fun _ =>
      (within_underflowIf _ _ (bitsIn_allOnes _) (by simp)).andThen fun _ => hcheck _ _

/-- A division of valid operands loads what its events come to: a DOMAIN event exactly when the divisor is 0. -/
theorem Divides.exec_of_valid (h : Divides i l r) (hl : (s.getV l).valid = true) (hr : (s.getV r).valid = true) :
    ∃ rd e p, exec i s = s.load rd e p ∧ ((s.getV r).v = 0 → e = domainError) ∧
      ((s.getV r).v ≠ 0 → e.Within (BitVec.allOnes 32) [.overflow, .underflow]) := by
  have hA : s.getV l = ⟨true, (s.getV l).v, (s.getV l).t⟩ := by rw [← hl]
  have hB : s.getV r = ⟨true, (s.getV r).v, (s.getV r).t⟩ := by rw [← hr]
  obtain ⟨rd, rfl⟩ | rfl := h
  case inl =>
    refine ⟨rd, _, _, exec_div_of_valid hA hB, fun hzero => ?_, fun hne => within_divEvents_of_ne_zero _ _ hne _⟩
    rw [hzero, divEvents_zero]
  case inr =>
    refine ⟨l, _, _, exec_diva_of_valid hA hB, fun hzero => ?_, fun hne =>
      (within_divEvents_of_ne_zero _ _ hne _).andThen fun _ =>
        within_normalize _ _ _ (bitsIn_allOnes _) (bitsIn_allOnes _) (by simp) (by simp)⟩
    rw [hzero, divEvents_zero]
    rfl

/-- A division of valid operands by zero is the DOMAIN abort. -/
theorem Divides.exec_of_zero (h : Divides i l r) (hl : (s.getV l).valid = true) (hr : (s.getV r).valid = true)
    (hzero : (s.getV r).v = 0) : exec i s = .next (s.abort dom .domain) := by
  obtain ⟨rd, e, p, hexec, hdomain, -⟩ := h.exec_of_valid hl hr
  rw [hexec, hdomain hzero]
  rfl

/-- A division that responds DOMAIN had valid operands and a zero divisor. -/
theorem Divides.operands_of_domain (h : Divides i l r) (ht : exec i s = .next t) (hc : t.rspCode = .domain) :
    (s.getV l).valid = true ∧ (s.getV r).valid = true ∧ (s.getV r).v = 0 := by
  have hvalid (x : VName) (hx : x ∈ [l, r]) : (s.getV x).valid = true := by
    refine Bool.of_not_eq_false fun hinvalid => ?_
    rw [exec_of_invalid_source (h.sources_eq ▸ hx) hinvalid] at ht
    cases ht
    cases hc
  have hl := hvalid l (by simp)
  have hr := hvalid r (by simp)
  refine ⟨hl, hr, by_contra fun hne => ?_⟩
  obtain ⟨rd, e, p, hexec, -, hwithin⟩ := h.exec_of_valid hl hr
  rw [hexec] at ht
  rcases ends_finishV ((hwithin hne).andThen fun _ => Ev.within_val _ _ _) ht with
    ⟨fl, c, -, hmem, -, -, rfl⟩ | ⟨fl, u, d, -, -, rfl⟩
  · have hdomain : c = .domain := hc
    simp [hdomain] at hmem
  · cases hc

end Sys2Proof.Machine
end

section
/-! The statements settled. -/
namespace Sys2Proof.Machine

/-- Settles O13: an error is an abort, which only sets sticky bits, that of its code among them, and responds. -/
theorem errorsArePrecise : Obligations.ErrorsArePrecise := by
  intro s t h hne
  obtain ⟨fl, c, hfl, hbit, rfl⟩ := State.perform_eq_abort_of_ne_ok h hne
  exact ⟨rfl, rfl, or_outside hfl, bitsIn_status_or s.status fl, hbit.or_right, rfl, rfl⟩

/-- Settles O17: of all instructions only the divisions list DOMAIN, and they are that abort exactly on a zero
divisor. -/
theorem domainIsExactlyAZeroDivisor : Obligations.DomainIsExactlyAZeroDivisor := by
  intro i s t h
  have hzero : t.rspCode = .domain → ∃ l r, Divides i l r ∧ (s.getV l).valid = true ∧ (s.getV r).valid = true ∧
      (s.getV r).v = 0 := by
    intro hc
    obtain ⟨fl, c, -, hmem, -, rfl⟩ := exec_eq_abort_of_ne_ok h (by rw [hc]; decide)
    have hdomain : c = .domain := hc
    obtain ⟨l, r, hdiv⟩ := divides_of_domain_mem_codes (hdomain ▸ hmem)
    exact ⟨l, r, hdiv, hdiv.operands_of_domain h hc⟩
  have habort : (∃ l r, Divides i l r ∧ (s.getV l).valid = true ∧ (s.getV r).valid = true ∧ (s.getV r).v = 0) →
      t = s.abort dom .domain := by
    rintro ⟨l, r, hdiv, hl, hr, hv⟩
    rw [hdiv.exec_of_zero hl hr hv] at h
    cases h
    rfl
  exact ⟨⟨hzero, fun hdiv => habort hdiv ▸ rfl⟩, fun hc => habort (hzero hc)⟩

/-- Settles O18: every command reads its sources first. -/
theorem invalidSourceEndsIllegal : Obligations.InvalidSourceEndsIllegal := fun _ _ _ => exec_of_invalid_source

end Sys2Proof.Machine
end

/-! # Proofs of the statements about reset (70_reset_and_hazards.md) -/

section
/-! The reset edge, and what the registers hold after it (R290, R291). -/
namespace Sys2Proof.Machine

variable {s : State} {p : Pins}

/-- An edge in reset resets the block, whatever is in flight or on the channel (R290). -/
theorem State.clockEdge_of_reset (hp : p.rstN = false) : s.clockEdge p = .next s.toReset := by
  simp [State.clockEdge, hp]

@[simp] theorem State.getV_toReset (i : VName) : s.toReset.getV i = VReg.reset := by cases i <;> rfl

@[simp] theorem State.getF_toReset (j : FName) : s.toReset.getF j = resetFormat := by cases j <;> rfl

/-- The reset format word is legal (R26). -/
theorem legalWord_resetFormat : legalWord resetFormat = true := by decide

/-- The reset format is Q<15,16> under THROW/THROW (R291). -/
theorem tag_ofWord_resetFormat : Tag.ofWord resetFormat = ⟨.w32, true, 15, 16, 0, .throw, .throw⟩ := by decide

end Sys2Proof.Machine
end

section
/-! The statement settled. -/
namespace Sys2Proof.Machine

/-- Settles O9: the edge leaves the reset state, in which every register is the same, and the host's reset move leaves
that state too. -/
theorem resetPutsAllStateInItsResetValue : Obligations.ResetPutsAllStateInItsResetValue := by
  intro s p hp
  obtain ⟨hcmd, hrsp⟩ : (s.outputs p).cmdReady = false ∧ (s.outputs p).rspValid = false := by simp [State.outputs, hp]
  have hformat (j : FName) : s.toReset.getF j = resetFormat ∧ legalWord (s.toReset.getF j) = true ∧
      s.toReset.tagF j = ⟨.w32, true, 15, 16, 0, .throw, .throw⟩ := by
    rw [State.tagF, State.getF_toReset]
    exact ⟨rfl, legalWord_resetFormat, tag_ofWord_resetFormat⟩
  have hready (q : Pins) (hq : q.rstN = true) :
      (s.toReset.outputs q).cmdReady = true ∧ (s.toReset.outputs q).rspValid = false := by
    simp [State.outputs, hq, State.toReset, State.reset]
  exact ⟨hcmd, hrsp, s.toReset, State.clockEdge_of_reset hp, fun i => by rw [State.getV_toReset]; rfl, hformat, rfl,
    rfl, rfl, rfl, rfl, hready, fun _ => step_of_reset⟩

end Sys2Proof.Machine
end

/-! # Proof of the statement about response codes (60_exceptions.md) -/

section
/-! The statement settled. -/
namespace Sys2Proof.Machine

/-- Settles O16: an instruction is aborted with a code of its list, or it completes and OK is in its list. -/
theorem responseCodesAreTheListedOnes : Obligations.ResponseCodesAreTheListedOnes := by
  intro i s t h
  rcases exec_answers h with ⟨fl, c, -, hc, -, -, rfl⟩ | ⟨u, d, -, hok, rfl⟩
  · exact hc
  · exact hok

end Sys2Proof.Machine
end
